-- ==== Sys2Proof/Word.lean ====
section
/-! DEFINITION. The word types of KZC (spec 00 R5, R6; 30 R61, R65). -/

namespace Sys2Proof

/-- A byte of a memory, a bit buffer or a stream. -/
abbrev Byte := BitVec 8

/-- ADDR_W bits: a cursor, a length, a slot of the hash table (00 R4). -/
abbrev Word32 := BitVec 32

/-- COUNT_W bits: a bit counter; also the value operand and the value of a response. -/
abbrev Word64 := BitVec 64

/-- One command word (30 R61). -/
abbrev CommandWord := BitVec 80

/-- One response word (30 R65). -/
abbrev ResponseWord := BitVec 68

end Sys2Proof
end

