-- ==== Sys2Proof/Config.lean ====
section
/-! DEFINITION. What an implementation of KZC fixes (spec 00 R4, 70 R253) and the free values of the spec
(93 "any value"). The constants whose value the spec marks as general knowledge are log entry 15. -/

namespace Sys2Proof.Config

/-- MIN_MATCH (00 R4): the shortest match the format encodes. -/
def minMatch : Nat := 4

/-- ML_MASK and RUN_MASK (00 R4): the cap of each nibble of a token. -/
def nibbleCap : Nat := 15

/-- MAX_DISTANCE (00 R4). -/
def maxDistance : Nat := 65535

/-- MIN_LENGTH (00 R4): a shorter input is one literal run. -/
def minLength : Nat := 14

/-- HASH_LOG_SMALL (00 R4). -/
def hashLogSmall : Nat := 13

/-- HASH_LOG_LARGE (00 R4). -/
def hashLogLarge : Nat := 12

/-- MF_LIMIT (00 R4, decision D27). -/
def mfLimit : Nat := 12

/-- LAST_LITERALS (00 R4, decision D27). -/
def lastLiterals : Nat := 5

/-- LZ_64K_LIMIT (00 R4, decision D27). -/
def lz64kLimit : Nat := 65548

/-- SKIP_STRENGTH (00 R4, decision D29). -/
def skipStrength : Nat := 6

/-- The multiplier of LZ_HASH (43 R166, decision D28). -/
def hashMultiplier : Nat := 2654435761

/-- PAD_BITS (00 R4): close pads the bit count to a multiple of this. -/
def padBits : Nat := 64

/-- MAX_BITS (00 R4): the largest length of one WBITS or RBITS. -/
def maxBits : Nat := 64

/-- EG_MAX_MAG (00 R4, decision D22). -/
def egMaxMag : Nat := 255

/-- The ninth consecutive zero of a prefix stops EGDEC (42 R144). -/
def egZeroLimit : Nat := 9

/-- CLOSE_PARTIAL_FILL (00 R4, decision D14): the bit that completes a partial byte at close. -/
def closePartialFill : Bool := true

/-- MAX_SPAN (00 R4, decision D8). -/
def maxSpan : Nat := 2147483647

/-- The open parameters of 00 R4, with the constraints of 70 R253: an illegal configuration cannot be built. -/
structure Params where
  /-- W_BUFSZ, bytes in the writer's bit buffer -/
  wBufsz : Nat
  /-- R_BUFSZ, bytes in the reader's bit buffer -/
  rBufsz : Nat
  /-- SRC_MEM_BYTES -/
  srcMemBytes : Nat
  /-- DST_MEM_BYTES -/
  dstMemBytes : Nat
  /-- EGE_SIGNED, the strap of the encoder -/
  egeSigned : Bool
  /-- EGD_SIGNED, the strap of the decoder -/
  egdSigned : Bool
  wBufsz_pos : 1 ≤ wBufsz := by decide
  rBufsz_pos : 1 ≤ rBufsz := by decide
  srcMem_le : srcMemBytes ≤ maxSpan := by decide
  dstMem_le : dstMemBytes ≤ maxSpan := by decide
  deriving DecidableEq, Repr

/-- The parameters State.reset is built with. DESIGN CHOICE (log entry 1): the spec leaves them open. -/
def defaultParams : Params where
  wBufsz := 16
  rBufsz := 16
  srcMemBytes := maxSpan
  dstMemBytes := maxSpan
  egeSigned := false
  egdSigned := false

/-- The sink's answer to one request (20 R46). -/
inductive SinkAnswer where
  /-- the request succeeds -/
  | ok
  /-- the request fails; `part` says how much of it took effect (bytes of a push; for a close, whether it closed) -/
  | fail (part : Nat)
  deriving DecidableEq, Repr, Inhabited

/-- The source's answer to one request (20 R47). -/
inductive SourceAnswer where
  /-- SourceRead delivers `k` bytes, brought into the range the rule allows; SourceClose succeeds -/
  | deliver (k : Nat)
  /-- the request fails; for a close, a nonzero `part` says that it closed all the same -/
  | fail (part : Nat)
  deriving DecidableEq, Repr, Inhabited

/-! Free values: opaque, so nothing can be proved of them. Each is applied to the counter `env.draws`. -/

/-- What the sink answers where the environment's script says nothing (93 U7; log entry 2). -/
opaque sinkAnswer : Nat → SinkAnswer

/-- What the source answers where the environment's script says nothing (93 U7; log entry 2). -/
opaque sourceAnswer : Nat → SourceAnswer

/-- W_BUF after a sink failure, byte by byte (93 U3; log entry 3). -/
opaque freeWBuf : Nat → Nat → Byte

/-- W_POS after a sink failure (93 U3). -/
opaque freeWPos : Nat → Nat

/-- W_BIT after a sink failure (93 U3). -/
opaque freeWBit : Nat → BitVec 3

/-- W_COUNT after a sink failure, and what WCOUNT answers then (93 U3, U6). -/
opaque freeWCount : Nat → Word64

/-- W_CLOSED after a sink failure (93 U3). -/
opaque freeWClosed : Nat → Bool

/-- R_BUF after a reader fault, byte by byte (93 U4; log entry 4). -/
opaque freeRBuf : Nat → Nat → Byte

/-- R_FILL after a reader fault (93 U4). -/
opaque freeRFill : Nat → Nat

/-- R_POS after a reader fault (93 U4). -/
opaque freeRPos : Nat → Nat

/-- R_BIT after a reader fault (93 U4). -/
opaque freeRBit : Nat → BitVec 3

/-- R_COUNT after a reader fault, and what RCOUNT answers then (93 U4, U6). -/
opaque freeRCount : Nat → Word64

/-- R_CLOSED after a source failure (93 U4). -/
opaque freeRClosed : Nat → Bool

/-- R_EOS after a source failure (93 U4). -/
opaque freeREos : Nat → Bool

end Sys2Proof.Config
end

