-- ==== Sys2Proof/Machine/State.lean ====
section
/-! DEFINITION. The state of KZC (spec 10), the environment's state the spec lists beside it (R26), and the model's own
fields: the environment's answers, the host's coming moves, the responses of the run, and where LZINV stands inside a
command. Plain data throughout. -/

namespace Sys2Proof.Machine

open Sys2Proof.Config (Params SinkAnswer SourceAnswer)

/-! ### Statuses and responses (30 R65, R66) -/

/-- The status of a command (30 R66). -/
inductive Status where
  | ok
  | streamClosed
  | ioFailure
  | insufficientCapacity
  | corruptInput
  | invalidArgument
  | illegalCommand
  | endOfStream
  | egRange
  deriving DecidableEq, Repr

/-- The response of a command (30 R65). -/
structure Response where
  status : Status
  val : Word64
  deriving DecidableEq, Repr

/-! ### The bit streams -/

/-- The writer's state (10 R13). -/
structure Writer where
  /-- W_BUF -/
  buf : List Byte
  /-- W_POS -/
  pos : Nat
  /-- W_BIT -/
  bit : BitVec 3
  /-- W_CLOSED -/
  closed : Bool
  /-- W_COUNT -/
  count : Word64
  /-- W_IOFAULT -/
  ioFault : Bool
  deriving DecidableEq, Repr

/-- The reader's state (10 R15). -/
structure Reader where
  /-- R_BUF -/
  buf : List Byte
  /-- R_FILL -/
  fill : Nat
  /-- R_POS -/
  pos : Nat
  /-- R_BIT -/
  bit : BitVec 3
  /-- R_CLOSED -/
  closed : Bool
  /-- R_COUNT -/
  count : Word64
  /-- R_IOFAULT -/
  ioFault : Bool
  /-- R_EOS -/
  eos : Bool
  deriving DecidableEq, Repr

/-- SINK (10 R26). -/
structure Sink where
  bytes : List Byte
  flushes : Nat
  closed : Bool
  deriving DecidableEq, Repr

/-- SOURCE (10 R26). -/
structure Source where
  bytes : List Byte
  next : Nat
  closed : Bool
  deriving DecidableEq, Repr

/-- The environment's answers (20 R46, R47; log entry 2): the coming answers of the sink and of the source, and the
counter at which a free value is drawn. -/
structure Env where
  sinkScript : List SinkAnswer
  sourceScript : List SourceAnswer
  draws : Nat
  deriving DecidableEq, Repr

/-! ### Memories (10 R25, 20 R57) -/

/-- A byte memory: the bytes written since reset, addresses strictly rising. An unlisted address holds no value. -/
abbrev Memory := List Host.Cell

/-- The hash table HT (10 R18): the slots that are not 0, slot numbers strictly rising. -/
abbrev HashTable := List (Nat × Word32)

/-- Addresses (or slot numbers) strictly rising. -/
def risingKeys {α : Type} : List (Nat × α) → Bool
  | [] => true
  | [_] => true
  | (a, _) :: (b, y) :: rest => a < b && risingKeys ((b, y) :: rest)

/-- The canonical form of a memory. No entry can equal what an unlisted address reads as, since that is no value. -/
def Memory.wf (m : Memory) : Bool := risingKeys m

/-- The canonical form of the hash table: rising slot numbers, no slot listed with the 0 an unlisted slot reads as. -/
def HashTable.wf (t : HashTable) : Bool := risingKeys t && t.all fun e => e.2 != 0

/-! ### LZINV inside a command (log entry 11) -/

/-- The place in a block at which LZINV stands (30 R74, R83; 44 R197), with what the parts before it have said. -/
inductive LziPhase where
  /-- a token comes next -/
  | token
  /-- a byte of the literal-length extension comes next: the length so far, the token's low nibble -/
  | litExt (len mat : Nat)
  /-- this many literals come next (at least one), the token's low nibble -/
  | literals (left mat : Nat)
  /-- the distance comes next: the token's low nibble -/
  | dist (mat : Nat)
  /-- a byte of the match-length extension comes next: the distance, the length so far -/
  | matchExt (dist len : Nat)
  deriving DecidableEq, Repr

/-- LZINV at work: `sEnd` and `d0` of 44 R197 and the place; its cursors s and d are SRC_POS and DST_POS. Idle
between commands. -/
inductive Lzi where
  | idle
  | active (sEnd d0 : Nat) (phase : LziPhase)
  deriving DecidableEq, Repr

/-! ### The host (20 R45, 70 R250, R262) -/

/-- One thing the host does between commands. -/
inductive HostMove where
  /-- present a command word (30 R60) -/
  | command (w : CommandWord)
  /-- write a byte of SRC (20 R45) -/
  | writeSrc (a : Nat) (b : Byte)
  /-- write a byte of DST (20 R45) -/
  | writeDst (a : Nat) (b : Byte)
  /-- attach the source: fix SOURCE.bytes (70 R255) -/
  | attachSource (bytes : List Byte)
  /-- reset, sampling the straps and attaching a fresh source (70 R250 to R252) -/
  | reset (egeSigned egdSigned : Bool) (source : List Byte)
  deriving DecidableEq, Repr

/-! ### The state -/

/-- The state of KZC with the environment's sink and source: the list of 10 R10, these fields and no others. -/
structure Kzc where
  writer : Writer
  reader : Reader
  /-- EG_RANGE_SEEN (10 R17) -/
  egRangeSeen : Bool
  /-- HT (10 R18) -/
  ht : HashTable
  /-- SRC_POS, SRC_LEN, DST_POS, DST_LEN (10 R20) -/
  srcPos : Word32
  srcLen : Word32
  dstPos : Word32
  dstLen : Word32
  /-- SRC and DST (10 R25) -/
  src : Memory
  dst : Memory
  /-- SINK and SOURCE (10 R26) -/
  sink : Sink
  source : Source
  deriving DecidableEq, Repr

/-- The state a step acts on: KZC's (10 R10), its parameters, and the model's own fields. The model's own are no state of
KZC: they are what a run is made of (70 R262, R263: the host's moves, the environment's draws, the responses), and
LZINV's place inside a command, idle in every state a command leaves (log entry 23). -/
structure State extends Kzc where
  /-- the parameters and straps (00 R4, 10 R23, R24); no command writes them -/
  cfg : Params
  /-- a SourceRead has been made since reset, so SOURCE.bytes is fixed (70 R262); the model's own, log entry 9 -/
  sourceStarted : Bool
  /-- LZINV inside a command; idle between commands (the model's own) -/
  lzi : Lzi
  /-- the environment's answers (the model's own) -/
  env : Env
  /-- the host's coming moves, oldest first (the model's own) -/
  inbox : List HostMove
  /-- the responses of the run since reset, oldest first (70 R263) -/
  responses : List Response
  deriving DecidableEq, Repr

/-- What stops the machine. -/
inductive Fault where
  /-- UNINIT (60 R229): raised by LZFWD, LZINV and the LZ elements when they read a byte nothing has written. Safe: a
  real memory would return some byte. -/
  | uninit
  /-- raised by a host move that names an address outside SRC or DST (20 R41, R42): no such byte. Safe. -/
  | noSuchAddress
  deriving DecidableEq, Repr

/-- What the model gives no meaning. -/
inductive Refusal where
  /-- an instruction whose arm has no meaning yet, by its mnemonic; raised by the dispatch only. Safe. -/
  | notModelled (mnemonic : String)
  /-- raised by an LZ element run where LZINV does not stand before that element: 30 R83 gives an element its meaning by
  its place, and the fetch never meets one elsewhere. Safe. -/
  | wireOutOfPlace
  /-- raised by the host move that changes SOURCE.bytes after the first read, which 70 R262 assumes never. Safe. -/
  | sourceAlreadyRead
  deriving DecidableEq, Repr

/-! ### Reset (10 R28, 70 R251) -/

/-- The writer right after reset. -/
def Writer.reset (p : Params) : Writer where
  buf := List.replicate p.wBufsz 0
  pos := 0
  bit := 7
  closed := false
  count := 0
  ioFault := false

/-- The reader right after reset. R_BUF is unspecified: DESIGN CHOICE, every byte 0 (log entry 5). -/
def Reader.reset (p : Params) : Reader where
  buf := List.replicate p.rBufsz 0
  fill := 0
  pos := 0
  bit := 7
  closed := false
  count := 0
  ioFault := false
  eos := false

/-- The state right after reset of a KZC with parameters and straps `p`, the source delivering `source`. HT is
unspecified: DESIGN CHOICE, every slot 0 (log entry 6). -/
def State.resetWith (p : Params) (source : List Byte) : State where
  cfg := p
  writer := Writer.reset p
  reader := Reader.reset p
  egRangeSeen := false
  ht := []
  srcPos := 0
  srcLen := 0
  dstPos := 0
  dstLen := 0
  src := []
  dst := []
  sink := { bytes := [], flushes := 0, closed := false }
  source := { bytes := source, next := 0, closed := false }
  sourceStarted := false
  lzi := .idle
  env := { sinkScript := [], sourceScript := [], draws := 0 }
  inbox := []
  responses := []

/-- The machine right after reset. The parameters are log entry 1, the empty source log entry 22. -/
def State.reset : State := State.resetWith Config.defaultParams []

end Sys2Proof.Machine
end

