-- ==== Sys2Proof/Machine/Flags.lean ====
section
/-! DEFINITION. The status bits: the STATUS and CONFIG registers (spec 10 R22, R23) and the admission tests that read
the sticky bits (40 R102, 41 R122, 60 R230). -/

namespace Sys2Proof.Machine

/-- STATUS (10 R22): bit 5 down to bit 0. -/
def statusBits (s : State) : BitVec 6 :=
  BitVec.ofBool s.egRangeSeen ++ BitVec.ofBool s.reader.eos ++ BitVec.ofBool s.reader.ioFault ++
    BitVec.ofBool s.writer.ioFault ++ BitVec.ofBool s.reader.closed ++ BitVec.ofBool s.writer.closed

/-- CONFIG (10 R23): bit 2 CLOSE_PARTIAL_FILL, bit 1 EGD_SIGNED, bit 0 EGE_SIGNED. -/
def configBits (s : State) : BitVec 3 :=
  BitVec.ofBool Config.closePartialFill ++ BitVec.ofBool s.cfg.egdSigned ++ BitVec.ofBool s.cfg.egeSigned

/-- The writer's sticky fault, tested by every writer command but WCOUNT (60 R230.2). -/
def writerFault (s : State) : Option Status :=
  if s.writer.ioFault then some .ioFailure else none

/-- The admission test of WBIT, WBITS, WFLUSH and EGENC (40 R102). -/
def writerAdmission (s : State) : Option Status :=
  if s.writer.ioFault then some .ioFailure
  else if s.writer.closed then some .streamClosed
  else none

/-- The reader's sticky I/O fault, tested by every reader command but RCOUNT (60 R230.2). -/
def readerFault (s : State) : Option Status :=
  if s.reader.ioFault then some .ioFailure else none

/-- The admission test of RBIT, RBITS and EGDEC (41 R122). -/
def readerAdmission (s : State) : Option Status :=
  if s.reader.ioFault then some .ioFailure
  else if s.reader.eos then some .endOfStream
  else if s.reader.closed then some .streamClosed
  else none

/-- A fault bit of STATUS, 2 to 5, is set (60 R220, 70 R263). -/
def faultRecorded (s : State) : Bool :=
  s.writer.ioFault || s.reader.ioFault || s.reader.eos || s.egRangeSeen

end Sys2Proof.Machine
end

