-- ==== Sys2Proof/Machine/Operands.lean ====
section
/-! DEFINITION. The operand forms of the commands (spec 30 R61, R64): a bit length, a symbol, a span length, a register
index, and which values a command accepts. -/

namespace Sys2Proof.Machine

/-- A bit length is 1 .. 64 (40 R104, 41 R124). -/
def lengthOk (a : BitVec 8) : Bool := 1 ≤ a.toNat && a.toNat ≤ Config.maxBits

/-- The symbol operand as an integer (42 R142). -/
def symbolOf (v : Word64) : Int := v.toInt

/-- A symbol of the mode's domain: 0 .. 255, or -255 .. 255 in signed mode (42 R140). -/
def symbolOk (signed : Bool) (v : Word64) : Bool :=
  if signed then -(Config.egMaxMag : Int) ≤ symbolOf v && symbolOf v ≤ Config.egMaxMag
  else 0 ≤ symbolOf v && symbolOf v ≤ Config.egMaxMag

/-- The prefix length of a magnitude, floor(log2(m + 1)) (42 R141). -/
def prefixLength (m : Nat) : Nat := Nat.log2 (m + 1)

/-- The remainder of a magnitude (30 R72). -/
def remainderOf (m : Nat) : Nat := m - (2 ^ prefixLength m - 1)

/-- The symbol of a code with prefix length `n`, remainder `r` and sign bit `neg`, in two's complement (42 R143). -/
def codeSymbol (n r : Nat) (neg : Bool) : Word64 :=
  let m : Int := ((2 ^ n - 1 + r : Nat) : Int)
  BitVec.ofInt 64 (if neg then -m else m)

/-- The span `n` bytes long at SRC_POS is at most MAX_SPAN and lies in the source view (43 R161, 44 R190). -/
def spanOk (n : Nat) (s : State) : Bool :=
  n ≤ Config.maxSpan && s.srcPos.toNat + n ≤ s.srcLen.toNat

/-- MaxLen(n) = n + n / 255 + 16, rounded down (43 R160). -/
def maxLen (n : Nat) : Nat := n + n / 255 + 16

/-- The room of the destination view (43 R162). -/
def destinationRoom (s : State) : Nat := s.dstLen.toNat - s.dstPos.toNat

end Sys2Proof.Machine
end

