-- ==== Sys2Proof/Syntax.lean ====
section
/-! DEFINITION. The instructions of KZC: one constructor for each row of spec/opcode_table.json. The first sixteen
are the commands of 30 R62; a field a command does not use is ignored (R64) and stands in no constructor. The other
twenty-two are the wire elements of 30 Part B (the table's WIRE rows): what stands in an LZ77 block (R75 to R79) and
what stands in a bit stream for one exp-Golomb symbol (R72, R73). Log entries 11 and 12 say what it means to run one. -/

namespace Sys2Proof

inductive Instr where
  /-- WBIT, the bit is v[0] -/
  | wbit (b : Bool)
  /-- WBITS, length a, value v -/
  | wbits (a : BitVec 8) (v : Word64)
  | wflush
  | wclose
  | wcount
  | rbit
  /-- RBITS, length a -/
  | rbits (a : BitVec 8)
  | rclose
  | rcount
  /-- EGENC, the symbol v in two's complement -/
  | egenc (v : Word64)
  | egdec
  /-- LZFWD, span length v -/
  | lzfwd (v : Word64)
  /-- LZINV, span length v -/
  | lzinv (v : Word64)
  /-- LZMAX, input length v -/
  | lzmax (v : Word64)
  /-- CRW, register index a, value v -/
  | crw (a : BitVec 8) (v : Word64)
  /-- CRR, register index a -/
  | crr (a : BitVec 8)
  /-- WIRE.LZ_TOKEN: token[7:4] and token[3:0] -/
  | lzToken (lit mat : BitVec 4)
  /-- WIRE.LZ_LEN_EXT_BYTE -/
  | lzLenExt (e : Byte)
  /-- WIRE.LZ_LITERAL -/
  | lzLiteral (b : Byte)
  /-- WIRE.LZ_DIST16 -/
  | lzDist16 (d : BitVec 16)
  /-- WIRE.EGU_N0 to WIRE.EGU_N8: x is the remainder -/
  | eguN0
  | eguN1 (x : BitVec 1)
  | eguN2 (x : BitVec 2)
  | eguN3 (x : BitVec 3)
  | eguN4 (x : BitVec 4)
  | eguN5 (x : BitVec 5)
  | eguN6 (x : BitVec 6)
  | eguN7 (x : BitVec 7)
  | eguN8
  /-- WIRE.EGS_N0 to WIRE.EGS_N8: x is the remainder, neg the sign bit -/
  | egsN0
  | egsN1 (x : BitVec 1) (neg : Bool)
  | egsN2 (x : BitVec 2) (neg : Bool)
  | egsN3 (x : BitVec 3) (neg : Bool)
  | egsN4 (x : BitVec 4) (neg : Bool)
  | egsN5 (x : BitVec 5) (neg : Bool)
  | egsN6 (x : BitVec 6) (neg : Bool)
  | egsN7 (x : BitVec 7) (neg : Bool)
  | egsN8 (neg : Bool)
  deriving DecidableEq, Repr

end Sys2Proof
end

