-- ==== Sys2Proof/WellFormed.lean ====
section
/-! DEFINITION. Which instruction terms are not reserved encodings. The widths of every field are in its type, so the
one check left is 30 R82 (a): the distance 0 is reserved. (A length of WBITS or an index of CRW outside its range is
no reserved encoding: the command takes it and answers INVALID_ARGUMENT, 30 R64.) -/

namespace Sys2Proof

/-- The instruction is no reserved encoding (30 R82). Its meaning is defined all the same (44 R195 e). -/
def Instr.wellFormed (i : Instr) : Bool :=
  match i with
  | .lzDist16 d => d != 0
  | _ => true

end Sys2Proof
end

