-- ==== Sys2Proof/Decode.lean ====
section
/-! DEFINITION. Decoding and encoding (spec 30). A command word is decoded by `decodeCommand`. The elements of the two
data streams have no mark of their own on the wire: which element stands next follows from the place (30 R83), so
`decode` takes the place, a `Slot`. A bit sequence is a list of bits in the order of the wire, first bit first. -/

namespace Sys2Proof

/-! ### Bits -/

/-- The low `n` bits of `v`, most-significant first (30 R70). -/
def bitsOf : Nat → Nat → List Bool
  | 0, _ => []
  | n + 1, v => v.testBit n :: bitsOf n v

/-- The number a bit sequence stands for, first bit most significant (41 R124). -/
def ofBits (bits : List Bool) : Nat :=
  bits.foldl (fun x b => 2 * x + b.toNat) 0

/-- The bytes of a bit sequence, the first bit of each its most-significant (30 R70); an incomplete last byte is left
out. -/
def bytesOf : List Bool → List Byte
  | b7 :: b6 :: b5 :: b4 :: b3 :: b2 :: b1 :: b0 :: rest =>
    BitVec.ofNat 8 (ofBits [b7, b6, b5, b4, b3, b2, b1, b0]) :: bytesOf rest
  | _ => []

/-! ### Commands (30 R61, R62) -/

/-- Why a bit sequence is no instruction. -/
inductive DecodeError where
  /-- the op of a command word is not one of the sixteen (30 R63) -/
  | reservedOp (op : BitVec 8)
  /-- an exp-Golomb code outside the supported range (30 R82 c) -/
  | egRange
  /-- the sequence ends inside the instruction -/
  | truncated
  deriving DecidableEq, Repr

/-- Bits [79:72] of a command word. -/
def opField (w : CommandWord) : BitVec 8 := w.extractLsb' 72 8

/-- Bits [71:64] of a command word. -/
def aField (w : CommandWord) : BitVec 8 := w.extractLsb' 64 8

/-- Bits [63:0] of a command word. -/
def vField (w : CommandWord) : Word64 := w.extractLsb' 0 64

/-- The command a command word asks for (30 R62), or the reserved op (R63). -/
def decodeCommand (w : CommandWord) : Except DecodeError Instr :=
  let a := aField w
  let v := vField w
  match (opField w).toNat with
  | 0x01 => .ok (.wbit (v.getLsbD 0))
  | 0x02 => .ok (.wbits a v)
  | 0x03 => .ok .wflush
  | 0x04 => .ok .wclose
  | 0x05 => .ok .wcount
  | 0x11 => .ok .rbit
  | 0x12 => .ok (.rbits a)
  | 0x14 => .ok .rclose
  | 0x15 => .ok .rcount
  | 0x21 => .ok (.egenc v)
  | 0x22 => .ok .egdec
  | 0x31 => .ok (.lzfwd v)
  | 0x32 => .ok (.lzinv v)
  | 0x33 => .ok (.lzmax v)
  | 0x41 => .ok (.crw a v)
  | 0x42 => .ok (.crr a)
  | _ => .error (.reservedOp (opField w))

/-! ### The bytes of an LZ77 block (30 R75 to R80) -/

/-- The token byte (30 R75). -/
def tokenByte (lit mat : BitVec 4) : Byte := lit ++ mat

/-- The token a byte stands for (30 R75): all 256 values are legal. -/
def decodeToken (b : Byte) : Instr := .lzToken (b.extractLsb' 4 4) (b.extractLsb' 0 4)

/-- The two bytes of a distance, little-endian (30 R79). -/
def distBytes (d : BitVec 16) : List Byte := [d.extractLsb' 0 8, d.extractLsb' 8 8]

/-- The distance two bytes stand for, lower address first (30 R79). -/
def decodeDist (lo hi : Byte) : Instr := .lzDist16 (hi ++ lo)

/-! ### Exp-Golomb codes (30 R72, R73) -/

/-- The bits of one code: `n` zeros, a one, the `n` bits of the remainder, and in signed mode a sign bit unless the
magnitude is 0 (30 R72). -/
def egCodeBits (signed : Bool) (n r : Nat) (neg : Bool) : List Bool :=
  List.replicate n false ++ true :: bitsOf n r ++ (if signed && n != 0 then [neg] else [])

/-- The code with prefix length `n` (0 .. 8), remainder `r` and sign bit `neg`, as an instruction. -/
def egInstr (signed : Bool) (n r : Nat) (neg : Bool) : Instr :=
  match signed, n with
  | false, 0 => .eguN0
  | false, 1 => .eguN1 (BitVec.ofNat 1 r)
  | false, 2 => .eguN2 (BitVec.ofNat 2 r)
  | false, 3 => .eguN3 (BitVec.ofNat 3 r)
  | false, 4 => .eguN4 (BitVec.ofNat 4 r)
  | false, 5 => .eguN5 (BitVec.ofNat 5 r)
  | false, 6 => .eguN6 (BitVec.ofNat 6 r)
  | false, 7 => .eguN7 (BitVec.ofNat 7 r)
  | false, _ => .eguN8
  | true, 0 => .egsN0
  | true, 1 => .egsN1 (BitVec.ofNat 1 r) neg
  | true, 2 => .egsN2 (BitVec.ofNat 2 r) neg
  | true, 3 => .egsN3 (BitVec.ofNat 3 r) neg
  | true, 4 => .egsN4 (BitVec.ofNat 4 r) neg
  | true, 5 => .egsN5 (BitVec.ofNat 5 r) neg
  | true, 6 => .egsN6 (BitVec.ofNat 6 r) neg
  | true, 7 => .egsN7 (BitVec.ofNat 7 r) neg
  | true, _ => .egsN8 neg

/-- The next `n` bits as a number, and the rest. -/
def takeBits (n : Nat) (bits : List Bool) : Except DecodeError (Nat × List Bool) :=
  if bits.length < n then .error .truncated else .ok (ofBits (bits.take n), bits.drop n)

/-- Counts the zeros before the first one, up to eight (42 R143, R144); `n` zeros were counted before. -/
def egZeros : List Bool → Nat → Except DecodeError (Nat × List Bool)
  | [], _ => .error .truncated
  | true :: rest, n => .ok (n, rest)
  | false :: rest, n => if n + 1 = Config.egZeroLimit then .error .egRange else egZeros rest (n + 1)

/-- One exp-Golomb code off the front of a bit sequence (30 R72, R73, R82 c). -/
def decodeEg (signed : Bool) (bits : List Bool) : Except DecodeError (Instr × List Bool) :=
  match egZeros bits 0 with
  | .error e => .error e
  | .ok (n, rest) =>
    match takeBits n rest with
    | .error e => .error e
    | .ok (r, rest) =>
      if 2 ^ n - 1 + r > Config.egMaxMag then .error .egRange
      else if signed && n != 0 then
        match rest with
        | [] => .error .truncated
        | neg :: rest => .ok (egInstr signed n r neg, rest)
      else .ok (egInstr signed n r false, rest)

/-! ### One decoder and one encoder for every row of the table -/

/-- Where an instruction stands (30 R83): on the command port, at a place in an LZ77 block, or in a bit stream. -/
inductive Slot where
  | command
  | lzToken
  | lzLenExt
  | lzLiteral
  | lzDist
  | egCode (signed : Bool)
  deriving DecidableEq, Repr

/-- One instruction off the front of a bit sequence at the place `slot`, and the rest. -/
def decode (slot : Slot) (bits : List Bool) : Except DecodeError (Instr × List Bool) :=
  match slot with
  | .command =>
    match takeBits 80 bits with
    | .error e => .error e
    | .ok (w, rest) => (decodeCommand (BitVec.ofNat 80 w)).map fun i => (i, rest)
  | .lzToken =>
    match takeBits 8 bits with
    | .error e => .error e
    | .ok (b, rest) => .ok (decodeToken (BitVec.ofNat 8 b), rest)
  | .lzLenExt =>
    match takeBits 8 bits with
    | .error e => .error e
    | .ok (b, rest) => .ok (.lzLenExt (BitVec.ofNat 8 b), rest)
  | .lzLiteral =>
    match takeBits 8 bits with
    | .error e => .error e
    | .ok (b, rest) => .ok (.lzLiteral (BitVec.ofNat 8 b), rest)
  | .lzDist =>
    match takeBits 16 bits with
    | .error e => .error e
    | .ok (d, rest) =>
      .ok (decodeDist (BitVec.ofNat 8 (d / 256)) (BitVec.ofNat 8 d), rest)
  | .egCode signed => decodeEg signed bits

/-- A command word from its fields (30 R61). -/
def commandWord (op a : BitVec 8) (v : Word64) : CommandWord := op ++ a ++ v

/-- The bits of a command word from bit 79 down. -/
def commandBits (op a : BitVec 8) (v : Word64) : List Bool := bitsOf 80 (commandWord op a v).toNat

/-- The bits of an instruction in the order of the wire: a command with 0 in every unused field (30 R67), an element as
30 R72 and R75 to R79 lay it out. -/
def encode (i : Instr) : List Bool :=
  match i with
  | .wbit b => commandBits 0x01 0 (BitVec.ofNat 64 b.toNat)
  | .wbits a v => commandBits 0x02 a v
  | .wflush => commandBits 0x03 0 0
  | .wclose => commandBits 0x04 0 0
  | .wcount => commandBits 0x05 0 0
  | .rbit => commandBits 0x11 0 0
  | .rbits a => commandBits 0x12 a 0
  | .rclose => commandBits 0x14 0 0
  | .rcount => commandBits 0x15 0 0
  | .egenc v => commandBits 0x21 0 v
  | .egdec => commandBits 0x22 0 0
  | .lzfwd v => commandBits 0x31 0 v
  | .lzinv v => commandBits 0x32 0 v
  | .lzmax v => commandBits 0x33 0 v
  | .crw a v => commandBits 0x41 a v
  | .crr a => commandBits 0x42 a 0
  | .lzToken lit mat => bitsOf 8 (tokenByte lit mat).toNat
  | .lzLenExt e => bitsOf 8 e.toNat
  | .lzLiteral b => bitsOf 8 b.toNat
  | .lzDist16 d => (distBytes d).flatMap fun b => bitsOf 8 b.toNat
  | .eguN0 => egCodeBits false 0 0 false
  | .eguN1 x => egCodeBits false 1 x.toNat false
  | .eguN2 x => egCodeBits false 2 x.toNat false
  | .eguN3 x => egCodeBits false 3 x.toNat false
  | .eguN4 x => egCodeBits false 4 x.toNat false
  | .eguN5 x => egCodeBits false 5 x.toNat false
  | .eguN6 x => egCodeBits false 6 x.toNat false
  | .eguN7 x => egCodeBits false 7 x.toNat false
  | .eguN8 => egCodeBits false 8 0 false
  | .egsN0 => egCodeBits true 0 0 false
  | .egsN1 x neg => egCodeBits true 1 x.toNat neg
  | .egsN2 x neg => egCodeBits true 2 x.toNat neg
  | .egsN3 x neg => egCodeBits true 3 x.toNat neg
  | .egsN4 x neg => egCodeBits true 4 x.toNat neg
  | .egsN5 x neg => egCodeBits true 5 x.toNat neg
  | .egsN6 x neg => egCodeBits true 6 x.toNat neg
  | .egsN7 x neg => egCodeBits true 7 x.toNat neg
  | .egsN8 neg => egCodeBits true 8 0 neg

/-- Where an instruction can stand. -/
def slotOf (i : Instr) : Slot :=
  match i with
  | .lzToken _ _ => .lzToken
  | .lzLenExt _ => .lzLenExt
  | .lzLiteral _ => .lzLiteral
  | .lzDist16 _ => .lzDist
  | .eguN0 | .eguN1 _ | .eguN2 _ | .eguN3 _ | .eguN4 _ | .eguN5 _ | .eguN6 _ | .eguN7 _ | .eguN8 => .egCode false
  | .egsN0 | .egsN1 _ _ | .egsN2 _ _ | .egsN3 _ _ | .egsN4 _ _ | .egsN5 _ _ | .egsN6 _ _ | .egsN7 _ _ | .egsN8 _ =>
    .egCode true
  | .wbit _ | .wbits _ _ | .wflush | .wclose | .wcount | .rbit | .rbits _ | .rclose | .rcount | .egenc _ | .egdec
  | .lzfwd _ | .lzinv _ | .lzmax _ | .crw _ _ | .crr _ => .command

/-- How many bits an instruction has on the wire (30 R61, R73, R75 to R79). -/
def nbitsOf (i : Instr) : Nat :=
  match i with
  | .lzToken _ _ | .lzLenExt _ | .lzLiteral _ => 8
  | .lzDist16 _ => 16
  | .eguN0 | .egsN0 => 1
  | .eguN1 _ => 3
  | .eguN2 _ => 5
  | .eguN3 _ => 7
  | .eguN4 _ => 9
  | .eguN5 _ => 11
  | .eguN6 _ => 13
  | .eguN7 _ => 15
  | .eguN8 => 17
  | .egsN1 _ _ => 4
  | .egsN2 _ _ => 6
  | .egsN3 _ _ => 8
  | .egsN4 _ _ => 10
  | .egsN5 _ _ => 12
  | .egsN6 _ _ => 14
  | .egsN7 _ _ => 16
  | .egsN8 _ => 18
  | .wbit _ | .wbits _ _ | .wflush | .wclose | .wcount | .rbit | .rbits _ | .rclose | .rcount | .egenc _ | .egdec
  | .lzfwd _ | .lzinv _ | .lzmax _ | .crw _ _ | .crr _ => 80

/-! ### The table's own numbering -/

/-- The place at which a table row of `nbits` bits is read. Of the rows with 8 bits (and of those with 16) the one with fixed
bits is told by them, and any other word is read as a token (as a distance); rows of 24 bits are the two longest codes, told
apart by their bits (log entry 13). -/
def tableSlot (nbits w : Nat) : Slot × Nat :=
  match nbits with
  | 80 => (.command, 80)
  | 8 => if w / 2 ^ 4 = 1 then (.egCode true, 8) else (.lzToken, 8)
  | 16 => if w / 2 ^ 8 = 1 then (.egCode true, 16) else (.lzDist, 16)
  | 24 => if w < 512 then (.egCode false, 17) else (.egCode true, 18)
  | n => if n % 2 = 1 then (.egCode false, n) else (.egCode true, n)

/-- The bits of a table row's word `w` in the order of the wire: a distance is written first byte first. -/
def tableBits (nbits w : Nat) : List Bool :=
  match tableSlot nbits w with
  | (.lzDist, _) => (distBytes (BitVec.ofNat 16 w)).flatMap fun b => bitsOf 8 b.toNat
  | (_, n) => bitsOf n w

/-- The instruction the decoder reads from the bits `w` of a table row of `nbits` bits. -/
def decodeTableWord (nbits w : Nat) : Option Instr :=
  match decode (tableSlot nbits w).1 (tableBits nbits w) with
  | .ok (i, []) => some i
  | _ => none

end Sys2Proof
end

