-- ==== Sys2Proof/Machine/Ops.lean ====
section
/-! DEFINITION. The named operations every meaning is written over: memories and the hash table, responses, the
requests to the sink and the source, PutBit and FlushBuffer, GetBit and Refill, the elements of an LZ77 block as LZINV
takes them, the host's moves. -/

namespace Sys2Proof.Machine

open Sys2Proof.Config (SinkAnswer SourceAnswer)

/-! ### Stores: lists of (key, value), keys rising -/

/-- The value at key `a`, if one is listed. -/
def storeGet {α : Type} : List (Nat × α) → Nat → Option α
  | [], _ => none
  | (k, x) :: rest, a => if k = a then some x else storeGet rest a

/-- Puts `x` at key `a`, keeping the keys rising. -/
def storePut {α : Type} : List (Nat × α) → Nat → α → List (Nat × α)
  | [], a, x => [(a, x)]
  | (k, y) :: rest, a, x =>
    if a < k then (a, x) :: (k, y) :: rest
    else if a = k then (a, x) :: rest
    else (k, y) :: storePut rest a x

/-- Takes key `a` off the list. -/
def storeErase {α : Type} : List (Nat × α) → Nat → List (Nat × α)
  | [], _ => []
  | (k, y) :: rest, a => if k = a then rest else (k, y) :: storeErase rest a

/-- The byte at address `a`; `none` is a byte nothing has written (20 R57). -/
def memRead (m : Memory) (a : Nat) : Option Byte := storeGet m a

/-- `S[a] <- b` (00 R7). -/
def memWrite (m : Memory) (a : Nat) (b : Byte) : Memory := storePut m a b

/-- `MemRead(S, a, n)` (00 R7): `none` if one of the bytes was never written. -/
def memReadBytes (m : Memory) (a : Nat) : Nat → Option (List Byte)
  | 0 => some []
  | n + 1 =>
    match memRead m a with
    | none => none
    | some b => (memReadBytes m (a + 1) n).map fun bs => b :: bs

/-- `MemWrite(S, a, n, v)` (00 R7), lowest address first. -/
def memWriteBytes (m : Memory) (a : Nat) : List Byte → Memory
  | [] => m
  | b :: bs => memWriteBytes (memWrite m a b) (a + 1) bs

/-- HT[h]; an unlisted slot holds 0 (43 R165). -/
def htRead (t : HashTable) (h : Nat) : Nat := ((storeGet t h).getD 0).toNat

/-- HT[h] <- p, as a 32-bit slot (10 R18). -/
def htWrite (t : HashTable) (h p : Nat) : HashTable :=
  if BitVec.ofNat 32 p = 0 then storeErase t h else storePut t h (BitVec.ofNat 32 p)

/-! ### Responses (30 R65, 60 R220, R231) -/

/-- The code of a status (30 R66). -/
def statusCode : Status → BitVec 4
  | .ok => 0
  | .streamClosed => 1
  | .ioFailure => 2
  | .insufficientCapacity => 3
  | .corruptInput => 4
  | .invalidArgument => 5
  | .illegalCommand => 6
  | .endOfStream => 7
  | .egRange => 8

/-- The 68-bit response word: status in [67:64], val in [63:0] (30 R65). -/
def responseWord (r : Response) : ResponseWord := statusCode r.status ++ r.val

/-- The command's response is returned to the host (30 R65). -/
def respond (s : State) (st : Status) (v : Word64) : State :=
  { s with responses := s.responses ++ [{ status := st, val := v }] }

/-- `return v` (00 R7): the command ends with status OK. -/
def returnOk (v : Word64) (s : State) : Host.Outcome State Fault Refusal :=
  .next (respond s .ok v)

/-- `raise <Status>` (00 R7, 60 R231): the one way a command ends with another status. The value is 0, nothing is
saved and control goes nowhere. -/
def raiseStatus (st : Status) (s : State) : Host.Outcome State Fault Refusal :=
  .next (respond s st 0)

/-- What a piece of a command's pseudocode comes to: it goes on with a value, or the command has raised a status. -/
inductive Run (α : Type) where
  | done (a : α) (s : State)
  | raised (st : Status) (s : State)

/-- Goes on with `f` unless the command has ended. -/
def andThen {α β : Type} (r : Run α) (f : α → State → Run β) : Run β :=
  match r with
  | .done a s => f a s
  | .raised st s => .raised st s

/-- Ends a command with what its pseudocode came to. -/
def conclude (r : Run Word64) : Host.Outcome State Fault Refusal :=
  match r with
  | .done v s => returnOk v s
  | .raised st s => raiseStatus st s

/-- A command that first makes an admission test (40 R102, 41 R122): a refusal changes nothing. -/
def admitted (test : Option Status) (body : State → Host.Outcome State Fault Refusal) (s : State) :
    Host.Outcome State Fault Refusal :=
  match test with
  | some st => raiseStatus st s
  | none => body s

/-! ### The environment's answers (20 R46, R47; log entry 2) -/

/-- The counter of free values moves on. -/
def nextDraw (s : State) : State := { s with env := { s.env with draws := s.env.draws + 1 } }

/-- The sink's answer to the next request: the script's, or a free one where the script is used up. -/
def drawSink (s : State) : SinkAnswer × State :=
  match s.env.sinkScript with
  | a :: rest => (a, { s with env := { s.env with sinkScript := rest } })
  | [] => (Config.sinkAnswer s.env.draws, nextDraw s)

/-- The source's answer to the next request, in the same way. -/
def drawSource (s : State) : SourceAnswer × State :=
  match s.env.sourceScript with
  | a :: rest => (a, { s with env := { s.env with sourceScript := rest } })
  | [] => (Config.sourceAnswer s.env.draws, nextDraw s)

/-! ### Faults of the two stream units -/

/-- The writer after a failed request: W_IOFAULT set, every other register a free value in its range (40 R109, 93 U3;
log entry 3). W_CLOSED stays one-way (10 R22). -/
def faultedWriter (n : Nat) (bufsz : Nat) (w : Writer) : Writer where
  buf := (List.range bufsz).map (Config.freeWBuf n)
  pos := Config.freeWPos n % (bufsz + 1)
  bit := Config.freeWBit n
  closed := w.closed || Config.freeWClosed n
  count := Config.freeWCount n
  ioFault := true

/-- `IoFail()` (40 R109). -/
def ioFail {α : Type} (s : State) : Run α :=
  .raised .ioFailure
    (nextDraw { s with writer := faultedWriter s.env.draws s.cfg.wBufsz s.writer })

/-- The reader with the registers 41 R127 leaves unspecified free (93 U4; log entry 4). -/
def scrambledReader (n : Nat) (bufsz : Nat) (r : Reader) : Reader :=
  { r with
    buf := (List.range bufsz).map (Config.freeRBuf n)
    fill := Config.freeRFill n % (bufsz + 1)
    pos := Config.freeRPos n % (bufsz + 1)
    bit := Config.freeRBit n
    count := Config.freeRCount n }

/-- The end of the source (41 R127): R_EOS set, END_OF_STREAM. -/
def endOfStream {α : Type} (s : State) : Run α :=
  .raised .endOfStream
    (nextDraw { s with reader := { scrambledReader s.env.draws s.cfg.rBufsz s.reader with eos := true } })

/-- A failed source request (41 R128): R_IOFAULT set, IO_FAILURE, the reader's other state free. R_CLOSED and R_EOS
stay one-way (10 R22). -/
def sourceFail {α : Type} (s : State) : Run α :=
  let n := s.env.draws
  .raised .ioFailure
    (nextDraw { s with
      reader :=
        { scrambledReader n s.cfg.rBufsz s.reader with
          closed := s.reader.closed || Config.freeRClosed n
          eos := s.reader.eos || Config.freeREos n
          ioFault := true } })

/-! ### The sink's requests (20 R46) -/

/-- `SinkPush(bytes)`: on failure an unspecified prefix of the bytes has been appended. -/
def sinkPush (bytes : List Byte) (s : State) : Run Unit :=
  match drawSink s with
  | (.ok, s) => .done () { s with sink := { s.sink with bytes := s.sink.bytes ++ bytes } }
  | (.fail k, s) => ioFail { s with sink := { s.sink with bytes := s.sink.bytes ++ bytes.take k } }

/-- `SinkFlush()`: SINK.flushes counts how many times the sink was asked (10 R26). -/
def sinkFlush (s : State) : Run Unit :=
  match drawSink s with
  | (.ok, s) => .done () { s with sink := { s.sink with flushes := s.sink.flushes + 1 } }
  | (.fail _, s) => ioFail { s with sink := { s.sink with flushes := s.sink.flushes + 1 } }

/-- `SinkClose()`: on failure the sink may be closed or not. -/
def sinkClose (s : State) : Run Unit :=
  match drawSink s with
  | (.ok, s) => .done () { s with sink := { s.sink with closed := true } }
  | (.fail k, s) => ioFail { s with sink := { s.sink with closed := s.sink.closed || k != 0 } }

/-! ### The writer's helpers -/

/-- The writer once the complete bytes are gone: the partial byte at the start, zeroes in the rest (40 R101). -/
def compacted (w : Writer) : Writer :=
  { w with
    buf := (List.replicate w.buf.length 0).set 0 (if w.bit = 7 then 0 else w.buf.getD w.pos 0)
    pos := 0 }

/-- `FlushBuffer()` (40 R101). -/
def flushBuffer (s : State) : Run Unit :=
  andThen (if s.writer.pos > 0 then sinkPush (s.writer.buf.take s.writer.pos) s else .done () s) fun _ s =>
    sinkFlush { s with writer := compacted s.writer }

/-- The writer with one more bit packed and counted, before any flush (40 R100). -/
def packed (b : Bool) (w : Writer) : Writer :=
  let w1 := { w with
    buf := w.buf.set w.pos (w.buf.getD w.pos 0 ||| ((BitVec.ofNat 8 b.toNat) <<< w.bit.toNat))
    count := w.count + 1 }
  if w.bit = 0 then { w1 with bit := 7, pos := w.pos + 1 } else { w1 with bit := w.bit - 1 }

/-- `PutBit(b)` (40 R100): the buffer is flushed when the bit completes its last byte. -/
def putBit (b : Bool) (s : State) : Run Unit :=
  let t := { s with writer := packed b s.writer }
  if s.writer.bit = 0 ∧ t.writer.pos = s.cfg.wBufsz then flushBuffer t else .done () t

/-- PutBit of each bit in order. -/
def putBits : List Bool → State → Run Unit
  | [], s => .done () s
  | b :: bs, s => andThen (putBit b s) fun _ s => putBits bs s

/-! ### The source's requests (20 R47) -/

/-- How many bytes a successful SourceRead delivers: 0 exactly at the end of the source, else a count from 1 to the
smaller of the request and what remains, the environment's choice `k` where it lies in that range. -/
def deliveredCount (k max remaining : Nat) : Nat :=
  if remaining = 0 then 0 else Nat.max 1 (Nat.min k (Nat.min max remaining))

/-- `SourceRead(max)`: the bytes delivered. DESIGN CHOICE: a failed one leaves SOURCE.next as it is; R47 gives a growth
only for bytes returned (log entry 4). -/
def sourceRead (max : Nat) (s : State) : Run (List Byte) :=
  match drawSource s with
  | (.fail _, s) => sourceFail { s with sourceStarted := true }
  | (.deliver k, s) =>
    let rest := s.source.bytes.drop s.source.next
    let n := deliveredCount k max rest.length
    .done (rest.take n) { s with source := { s.source with next := s.source.next + n }, sourceStarted := true }

/-- `SourceClose()`: on failure the source may be closed or not. -/
def sourceClose (s : State) : Run Unit :=
  match drawSource s with
  | (.fail k, s) => sourceFail { s with source := { s.source with closed := s.source.closed || k != 0 } }
  | (.deliver _, s) => .done () { s with source := { s.source with closed := true } }

/-! ### The reader's helpers -/

/-- The reader with the bytes `bs` just taken from the source (41 R121). -/
def refilled (bs : List Byte) (r : Reader) : Reader :=
  { r with buf := bs ++ r.buf.drop bs.length, fill := bs.length, pos := 0 }

/-- `Refill()` (41 R121). -/
def refill (s : State) : Run Unit :=
  andThen (sourceRead s.cfg.rBufsz s) fun bs s =>
    if bs = [] then endOfStream s else .done () { s with reader := refilled bs s.reader }

/-- The bit the reader stands at (41 R120). -/
def currentBit (r : Reader) : Bool := (r.buf.getD r.pos 0).getLsbD r.bit.toNat

/-- The reader one bit further (41 R120). -/
def advanced (r : Reader) : Reader :=
  let r1 := { r with count := r.count + 1 }
  if r.bit = 0 then { r1 with bit := 7, pos := r.pos + 1 } else { r1 with bit := r.bit - 1 }

/-- `GetBit()` (41 R120). -/
def getBit (s : State) : Run Bool :=
  andThen (if s.reader.pos = s.reader.fill then refill s else .done () s) fun _ s =>
    .done (currentBit s.reader) { s with reader := advanced s.reader }

/-- `repeat n times: x <- (x << 1) | GetBit()` (41 R124). -/
def getBits : Nat → Nat → State → Run Nat
  | 0, x, s => .done x s
  | n + 1, x, s => andThen (getBit s) fun b s => getBits n (2 * x + b.toNat) s

/-! ### The elements of an LZ77 block, as LZINV takes them (44 R191 to R198; log entry 11)

The cursors s and d of 44 R197 are SRC_POS and DST_POS. Fetching an element moves SRC_POS past it; the operation of the
element does the rest. -/

/-- `goto CORRUPT` (44 R197): the cursors stay where decoding stopped (R198). -/
def lziCorrupt (s : State) : Host.Outcome State Fault Refusal :=
  raiseStatus .corruptInput { s with lzi := .idle }

/-- The span is exhausted (44 R193): the source's own check, that the bytes consumed are the declared span, and then OK
with `d - d0` (44 R197, R198). -/
def lziFinish (sEnd d0 : Nat) (s : State) : Host.Outcome State Fault Refusal :=
  if s.srcPos.toNat ≠ sEnd then lziCorrupt s
  else returnOk (BitVec.ofNat 64 (s.dstPos.toNat - d0)) { s with lzi := .idle }

/-- LZINV stands at the place `phase`. -/
def lziAt (sEnd d0 : Nat) (phase : LziPhase) (s : State) : Host.Outcome State Fault Refusal :=
  .next { s with lzi := .active sEnd d0 phase }

/-- LZINV stands before a byte of an extension: the extension must not run off the span (44 R191, R195 a). -/
def lziExtension (sEnd d0 : Nat) (phase : LziPhase) (s : State) : Host.Outcome State Fault Refusal :=
  if s.srcPos.toNat ≥ sEnd then lziCorrupt s else lziAt sEnd d0 phase s

/-- After a sequence's literals (44 R193, R195 d). -/
def lziAfterLiterals (sEnd d0 mat : Nat) (s : State) : Host.Outcome State Fault Refusal :=
  if s.srcPos.toNat ≥ sEnd then lziFinish sEnd d0 s
  else if s.srcPos.toNat + 2 > sEnd then lziCorrupt s
  else lziAt sEnd d0 (.dist mat) s

/-- The literal length is known (44 R192, R195 b, c). -/
def lziLiterals (sEnd d0 len mat : Nat) (s : State) : Host.Outcome State Fault Refusal :=
  if s.srcPos.toNat + len > sEnd ∨ s.dstPos.toNat + len > s.dstLen.toNat then lziCorrupt s
  else if len = 0 then lziAfterLiterals sEnd d0 mat s
  else lziAt sEnd d0 (.literals len mat) s

/-- The match copy, one byte at a time in increasing address order (44 R196); `none` if it reads a byte nothing has
written. -/
def copyMatch (m : Memory) (d dist : Nat) : Nat → Option Memory
  | 0 => some m
  | n + 1 =>
    match memRead m (d - dist) with
    | none => none
    | some b => copyMatch (memWrite m d b) (d + 1) dist n

/-- The distance and the length are known (44 R194, R195 e, f, g, R196); after the match the block may end (R193). -/
def lziMatch (sEnd d0 dist len : Nat) (s : State) : Host.Outcome State Fault Refusal :=
  let d := s.dstPos.toNat
  let m := len + Config.minMatch
  if dist = 0 ∨ dist > d - d0 ∨ d + m > s.dstLen.toNat then lziCorrupt s
  else
    match copyMatch s.dst d dist m with
    | none => .fault .uninit
    | some dst =>
      let s := { s with dst := dst, dstPos := BitVec.ofNat 32 (d + m) }
      if s.srcPos.toNat ≥ sEnd then lziFinish sEnd d0 s else lziAt sEnd d0 .token s

/-- A token (44 R192). -/
def lziToken (lit mat : BitVec 4) (s : State) : Host.Outcome State Fault Refusal :=
  match s.lzi with
  | .active sEnd d0 .token =>
    if lit.toNat = Config.nibbleCap then lziExtension sEnd d0 (.litExt Config.nibbleCap mat.toNat) s
    else lziLiterals sEnd d0 lit.toNat mat.toNat s
  | _ => .refused .wireOutOfPlace

/-- A byte of a length extension: added to the length so far; 0xFF says that another follows (30 R77, 44 R191). -/
def lziLenExt (e : Byte) (s : State) : Host.Outcome State Fault Refusal :=
  match s.lzi with
  | .active sEnd d0 (.litExt len mat) =>
    if e.toNat = 255 then lziExtension sEnd d0 (.litExt (len + e.toNat) mat) s
    else lziLiterals sEnd d0 (len + e.toNat) mat s
  | .active sEnd d0 (.matchExt dist len) =>
    if e.toNat = 255 then lziExtension sEnd d0 (.matchExt dist (len + e.toNat)) s
    else lziMatch sEnd d0 dist (len + e.toNat) s
  | _ => .refused .wireOutOfPlace

/-- A literal byte: copied verbatim to DST at the write cursor (30 R78, 44 R192). -/
def lziLiteral (b : Byte) (s : State) : Host.Outcome State Fault Refusal :=
  match s.lzi with
  | .active sEnd d0 (.literals left mat) =>
    let s := { s with dst := memWrite s.dst s.dstPos.toNat b, dstPos := s.dstPos + 1 }
    if left ≤ 1 then lziAfterLiterals sEnd d0 mat s else lziAt sEnd d0 (.literals (left - 1) mat) s
  | _ => .refused .wireOutOfPlace

/-- A distance (44 R194): the match-length extension follows it when the token's low nibble is 15. -/
def lziDist (dist : BitVec 16) (s : State) : Host.Outcome State Fault Refusal :=
  match s.lzi with
  | .active sEnd d0 (.dist mat) =>
    if mat = Config.nibbleCap then lziExtension sEnd d0 (.matchExt dist.toNat Config.nibbleCap) s
    else lziMatch sEnd d0 dist.toNat mat s
  | _ => .refused .wireOutOfPlace

/-- The next byte of the span, and the state with the read cursor past it. -/
def lziByte (s : State) : Option (Byte × State) :=
  (memRead s.src s.srcPos.toNat).map fun b => (b, { s with srcPos := s.srcPos + 1 })

/-- Fetches the element LZINV stands before (30 R83); `none` if a byte of it was never written. -/
def lziFetch (phase : LziPhase) (s : State) : Option (Instr × State) :=
  match lziByte s with
  | none => none
  | some (b, s1) =>
    match phase with
    | .token => some (decodeToken b, s1)
    | .litExt _ _ | .matchExt _ _ => some (.lzLenExt b, s1)
    | .literals _ _ => some (.lzLiteral b, s1)
    | .dist _ =>
      match lziByte s1 with
      | none => none
      | some (hi, s2) => some (decodeDist b hi, s2)

/-! ### The host's moves (20 R45, 70 R250 to R255, R262) -/

/-- The host writes a byte of SRC. -/
def hostWriteSrc (a : Nat) (b : Byte) (s : State) : Host.Outcome State Fault Refusal :=
  if a < s.cfg.srcMemBytes then .next { s with src := memWrite s.src a b } else .fault .noSuchAddress

/-- The host writes a byte of DST. -/
def hostWriteDst (a : Nat) (b : Byte) (s : State) : Host.Outcome State Fault Refusal :=
  if a < s.cfg.dstMemBytes then .next { s with dst := memWrite s.dst a b } else .fault .noSuchAddress

/-- The host attaches the source, before the first read (70 R255, R262). -/
def hostAttachSource (bytes : List Byte) (s : State) : Host.Outcome State Fault Refusal :=
  if s.sourceStarted then .refused .sourceAlreadyRead
  else .next { s with source := { s.source with bytes := bytes } }

/-- Reset (70 R250 to R252): the state of 10 R28 with the straps sampled and a fresh sink and source; the host's coming
moves and the environment's answers are not KZC's and stay (log entry 10). -/
def hostReset (egeSigned egdSigned : Bool) (source : List Byte) (s : State) : Host.Outcome State Fault Refusal :=
  .next { State.resetWith { s.cfg with egeSigned := egeSigned, egdSigned := egdSigned } source with
    env := s.env, inbox := s.inbox }

/-- A reserved op (30 R63, 60 R226): ILLEGAL_COMMAND, nothing changes. -/
def illegalCommand (s : State) : Host.Outcome State Fault Refusal := raiseStatus .illegalCommand s

/-- What the host reads at address `a` of SRC between commands (20 R45): a look at the state. DESIGN CHOICE: outside the
memory, of which the spec says nothing, `none`, as for a byte nothing has written (log entry 9). -/
def hostReadSrc (s : State) (a : Nat) : Option Byte := memRead s.src a

/-- The same for DST, outside it too (log entry 9). -/
def hostReadDst (s : State) (a : Nat) : Option Byte := memRead s.dst a

end Sys2Proof.Machine
end

