-- ==== Sys2Proof/Machine/BitReader.lean ====
section
/-! DEFINITION. The bit-stream reader's commands (spec 41): RBIT, RBITS, RCLOSE, RCOUNT. -/

namespace Sys2Proof.Machine

/-- RBIT (41 R123). -/
def execRbit (s : State) : Host.Outcome State Fault Refusal :=
  admitted (readerAdmission s) (fun s =>
    conclude (andThen (getBit s) fun b s => .done (BitVec.ofNat 64 b.toNat) s)) s

/-- RBITS (41 R124). -/
def execRbits (a : BitVec 8) (s : State) : Host.Outcome State Fault Refusal :=
  admitted (readerAdmission s) (fun s =>
    if lengthOk a then conclude (andThen (getBits a.toNat 0 s) fun x s => .done (BitVec.ofNat 64 x) s)
    else raiseStatus .invalidArgument s) s

/-- RCLOSE (41 R125): permitted after R_EOS. -/
def execRclose (s : State) : Host.Outcome State Fault Refusal :=
  admitted (readerFault s) (fun s =>
    if s.reader.closed then returnOk 0 s
    else
      conclude (andThen (sourceClose s) fun _ s =>
        .done 0 { s with reader := { s.reader with closed := true } })) s

/-- RCOUNT (41 R126): a free value after a reader fault (93 U6; log entry 14). -/
def execRcount (s : State) : Host.Outcome State Fault Refusal :=
  if s.reader.ioFault || s.reader.eos then returnOk (Config.freeRCount s.env.draws) (nextDraw s)
  else returnOk s.reader.count s

end Sys2Proof.Machine
end

