-- ==== Sys2Proof/Machine/BitWriter.lean ====
section
/-! DEFINITION. The bit-stream writer's commands (spec 40): WBIT, WBITS, WFLUSH, WCLOSE, WCOUNT. -/

namespace Sys2Proof.Machine

/-- WBIT (40 R103). -/
def execWbit (b : Bool) (s : State) : Host.Outcome State Fault Refusal :=
  admitted (writerAdmission s) (fun s => conclude (andThen (putBit b s) fun _ s => .done 0 s)) s

/-- WBITS (40 R104), in the bit-serial form R105 makes normative. -/
def execWbits (a : BitVec 8) (v : Word64) (s : State) : Host.Outcome State Fault Refusal :=
  admitted (writerAdmission s) (fun s =>
    if lengthOk a then
      conclude (andThen (putBits (bitsOf a.toNat v.toNat) s) fun _ s => .done (a.setWidth 64) s)
    else raiseStatus .invalidArgument s) s

/-- WFLUSH (40 R106). -/
def execWflush (s : State) : Host.Outcome State Fault Refusal :=
  admitted (writerAdmission s) (fun s => conclude (andThen (flushBuffer s) fun _ s => .done 0 s)) s

/-- How many bits complete the byte being filled: none at a byte boundary (40 R107). -/
def fillCount (w : Writer) : Nat := if w.bit = 7 then 0 else w.bit.toNat + 1

/-- How many bits bring the count to the next multiple of 64: none at one (30 R71, 40 R107). -/
def padCount (w : Writer) : Nat := (Config.padBits - w.count.toNat % Config.padBits) % Config.padBits

/-- WCLOSE (40 R107). -/
def execWclose (s : State) : Host.Outcome State Fault Refusal :=
  admitted (writerFault s) (fun s =>
    if s.writer.closed then returnOk 0 s
    else
      conclude
        (andThen (putBits (List.replicate (fillCount s.writer) Config.closePartialFill) s) fun _ s =>
          andThen (putBits (List.replicate (padCount s.writer) true) s) fun _ s =>
            andThen (flushBuffer s) fun _ s =>
              andThen (sinkClose s) fun _ s =>
                .done 0 { s with writer := { s.writer with closed := true } })) s

/-- WCOUNT (40 R108): a free value after a sink failure (R109, 93 U6; log entry 14). -/
def execWcount (s : State) : Host.Outcome State Fault Refusal :=
  if s.writer.ioFault then returnOk (Config.freeWCount s.env.draws) (nextDraw s)
  else returnOk s.writer.count s

end Sys2Proof.Machine
end

