-- ==== Sys2Proof/Machine/Control.lean ====
section
/-! DEFINITION. The control-register commands (spec 45): CRW, CRR, over the control register file of 10 R21. -/

namespace Sys2Proof.Machine

/-- CR[i] as a 64-bit value, zero-extended (10 R21); `none` where there is no such register (45 R211). -/
def controlRead (i : Nat) (s : State) : Option Word64 :=
  match i with
  | 0 => some (s.srcPos.setWidth 64)
  | 1 => some (s.srcLen.setWidth 64)
  | 2 => some (s.dstPos.setWidth 64)
  | 3 => some (s.dstLen.setWidth 64)
  | 4 => some ((statusBits s).setWidth 64)
  | 5 => some ((configBits s).setWidth 64)
  | 6 => some ((BitVec.ofNat 32 s.cfg.wBufsz).setWidth 64)
  | 7 => some ((BitVec.ofNat 32 s.cfg.rBufsz).setWidth 64)
  | _ => none

/-- `CR[i] <- v` where the index and the value are legal (45 R210); `none` where they are not. -/
def controlWrite (i v : Nat) (s : State) : Option State :=
  match i with
  | 0 => if v > s.srcLen.toNat then none else some { s with srcPos := BitVec.ofNat 32 v }
  | 1 =>
    if v < s.srcPos.toNat ∨ v > s.cfg.srcMemBytes then none else some { s with srcLen := BitVec.ofNat 32 v }
  | 2 => if v > s.dstLen.toNat then none else some { s with dstPos := BitVec.ofNat 32 v }
  | 3 =>
    if v < s.dstPos.toNat ∨ v > s.cfg.dstMemBytes then none else some { s with dstLen := BitVec.ofNat 32 v }
  | _ => none

/-- CRW (45 R210). -/
def execCrw (a : BitVec 8) (v : Word64) (s : State) : Host.Outcome State Fault Refusal :=
  match controlWrite a.toNat v.toNat s with
  | none => raiseStatus .invalidArgument s
  | some s => returnOk 0 s

/-- CRR (45 R211). -/
def execCrr (a : BitVec 8) (s : State) : Host.Outcome State Fault Refusal :=
  match controlRead a.toNat s with
  | none => raiseStatus .invalidArgument s
  | some v => returnOk v s

end Sys2Proof.Machine
end

