-- ==== Sys2Proof/Machine/ExpGolomb.lean ====
section
/-! DEFINITION. The exp-Golomb commands (spec 42): EGENC, EGDEC, and what the decoder does with one code (the eighteen
WIRE.EG rows of the table; log entry 12). -/

namespace Sys2Proof.Machine

/-- The bits EGENC writes for a symbol (42 R142, 30 R72). -/
def symbolBits (signed : Bool) (v : Word64) : List Bool :=
  let m := (symbolOf v).natAbs
  egCodeBits signed (prefixLength m) (remainderOf m) (symbolOf v < 0)

/-- EGENC (42 R142). -/
def execEgenc (v : Word64) (s : State) : Host.Outcome State Fault Refusal :=
  admitted (writerAdmission s) (fun s =>
    if symbolOk s.cfg.egeSigned v then
      conclude (andThen (putBits (symbolBits s.cfg.egeSigned v) s) fun _ s => .done 0 s)
    else raiseStatus .invalidArgument s) s

/-- A code outside the supported range (42 R144): EG_RANGE_SEEN set, the bits read stay consumed. -/
def egRange {α : Type} (s : State) : Run α := .raised .egRange { s with egRangeSeen := true }

/-- Reads zeros up to the first one, counting; `left` more zeros are allowed (42 R143). -/
def egPrefix : Nat → Nat → State → Run Nat
  | 0, _, s => egRange s
  | left + 1, n, s => andThen (getBit s) fun b s => if b then .done n s else egPrefix left (n + 1) s

/-- Reads one code off the bit stream: prefix length, remainder, sign bit (42 R143). -/
def egFetch (s : State) : Run (Nat × Nat × Bool) :=
  andThen (egPrefix Config.egZeroLimit 0 s) fun n s =>
    andThen (getBits n 0 s) fun r s =>
      if 2 ^ n - 1 + r > Config.egMaxMag then egRange s
      else if s.cfg.egdSigned && n != 0 then andThen (getBit s) fun neg s => .done (n, r, neg) s
      else .done (n, r, false) s

/-- The decoder's answer to one code: its symbol (42 R143). -/
def egReturn (n r : Nat) (neg : Bool) (s : State) : Host.Outcome State Fault Refusal :=
  returnOk (codeSymbol n r neg) s

/-- EGDEC (42 R143). -/
def execEgdec (s : State) : Host.Outcome State Fault Refusal :=
  admitted (readerAdmission s) (fun s =>
    match egFetch s with
    | .raised st s => raiseStatus st s
    | .done (n, r, neg) s => egReturn n r neg s) s

/-! What EGDEC does with each code once it is read (30 R72, R73; 42 R143). -/

/-- WIRE.EGU_N0 -/
def execEguN0 (s : State) : Host.Outcome State Fault Refusal := egReturn 0 0 false s

/-- WIRE.EGU_N1 -/
def execEguN1 (x : BitVec 1) (s : State) : Host.Outcome State Fault Refusal := egReturn 1 x.toNat false s

/-- WIRE.EGU_N2 -/
def execEguN2 (x : BitVec 2) (s : State) : Host.Outcome State Fault Refusal := egReturn 2 x.toNat false s

/-- WIRE.EGU_N3 -/
def execEguN3 (x : BitVec 3) (s : State) : Host.Outcome State Fault Refusal := egReturn 3 x.toNat false s

/-- WIRE.EGU_N4 -/
def execEguN4 (x : BitVec 4) (s : State) : Host.Outcome State Fault Refusal := egReturn 4 x.toNat false s

/-- WIRE.EGU_N5 -/
def execEguN5 (x : BitVec 5) (s : State) : Host.Outcome State Fault Refusal := egReturn 5 x.toNat false s

/-- WIRE.EGU_N6 -/
def execEguN6 (x : BitVec 6) (s : State) : Host.Outcome State Fault Refusal := egReturn 6 x.toNat false s

/-- WIRE.EGU_N7 -/
def execEguN7 (x : BitVec 7) (s : State) : Host.Outcome State Fault Refusal := egReturn 7 x.toNat false s

/-- WIRE.EGU_N8 -/
def execEguN8 (s : State) : Host.Outcome State Fault Refusal := egReturn 8 0 false s

/-- WIRE.EGS_N0 -/
def execEgsN0 (s : State) : Host.Outcome State Fault Refusal := egReturn 0 0 false s

/-- WIRE.EGS_N1 -/
def execEgsN1 (x : BitVec 1) (neg : Bool) (s : State) : Host.Outcome State Fault Refusal := egReturn 1 x.toNat neg s

/-- WIRE.EGS_N2 -/
def execEgsN2 (x : BitVec 2) (neg : Bool) (s : State) : Host.Outcome State Fault Refusal := egReturn 2 x.toNat neg s

/-- WIRE.EGS_N3 -/
def execEgsN3 (x : BitVec 3) (neg : Bool) (s : State) : Host.Outcome State Fault Refusal := egReturn 3 x.toNat neg s

/-- WIRE.EGS_N4 -/
def execEgsN4 (x : BitVec 4) (neg : Bool) (s : State) : Host.Outcome State Fault Refusal := egReturn 4 x.toNat neg s

/-- WIRE.EGS_N5 -/
def execEgsN5 (x : BitVec 5) (neg : Bool) (s : State) : Host.Outcome State Fault Refusal := egReturn 5 x.toNat neg s

/-- WIRE.EGS_N6 -/
def execEgsN6 (x : BitVec 6) (neg : Bool) (s : State) : Host.Outcome State Fault Refusal := egReturn 6 x.toNat neg s

/-- WIRE.EGS_N7 -/
def execEgsN7 (x : BitVec 7) (neg : Bool) (s : State) : Host.Outcome State Fault Refusal := egReturn 7 x.toNat neg s

/-- WIRE.EGS_N8 -/
def execEgsN8 (neg : Bool) (s : State) : Host.Outcome State Fault Refusal := egReturn 8 0 neg s

end Sys2Proof.Machine
end

