-- ==== Sys2Proof/Machine/Lz77Forward.lean ====
section
/-! DEFINITION. The LZ77 forward commands (spec 43): LZMAX, LZFWD. Positions are relative to the start of the span; the
span is the list of its bytes. -/

namespace Sys2Proof.Machine

/-- LZMAX (43 R160). -/
def execLzmax (v : Word64) (s : State) : Host.Outcome State Fault Refusal :=
  if v.toNat > Config.maxSpan then raiseStatus .invalidArgument s
  else returnOk (BitVec.ofNat 64 (maxLen v.toNat)) s

/-! ### Reads of the span -/

/-- S[p]. Every read is at a position inside the span (43 R181), where the 0 outside is never seen. -/
def spanAt (span : List Byte) (p : Nat) : Byte := span.getD p 0

/-- S4(a) = S4(b), four single-byte comparisons (43 R170, 20 R51). -/
def sameFour (span : List Byte) (a b : Nat) : Bool :=
  spanAt span a == spanAt span b && spanAt span (a + 1) == spanAt span (b + 1) &&
    spanAt span (a + 2) == spanAt span (b + 2) && spanAt span (a + 3) == spanAt span (b + 3)

/-- le32(b0, b1, b2, b3) (00 R7). -/
def le32 (b0 b1 b2 b3 : Byte) : Nat :=
  b0.toNat + (b1.toNat <<< 8) + (b2.toNat <<< 16) + (b3.toNat <<< 24)

/-- LZ_HASH (43 R166). -/
def lzHash (w hb : Nat) : Nat := (w * Config.hashMultiplier % 2 ^ 32) >>> (32 - hb)

/-- Hash(p) (43 R166, 20 R50). -/
def hashAt (span : List Byte) (hb p : Nat) : Nat :=
  lzHash (le32 (spanAt span p) (spanAt span (p + 1)) (spanAt span (p + 2)) (spanAt span (p + 3))) hb

/-- Accept(ip, ref) (43 R170). -/
def accepts (span : List Byte) (ip ref : Nat) : Bool :=
  ip - ref ≤ Config.maxDistance && sameFour span ref ip

/-! ### The hash table (43 R164, R165, R169) -/

/-- HB of the size class (43 R164). -/
def hashBits (n : Nat) : Nat := if n < Config.lz64kLimit then Config.hashLogSmall else Config.hashLogLarge

/-- The position as the size class stores it: masked to 16 bits in the small class, whole in the large (43 R164). -/
def storedPosition (hb p : Nat) : Nat := if hb = Config.hashLogSmall then p % 65536 else p

/-- HT[Hash(p)] <- p. -/
def insertPosition (span : List Byte) (hb : Nat) (t : HashTable) (p : Nat) : HashTable :=
  htWrite t (hashAt span hb p) (storedPosition hb p)

/-! ### The pieces of a block (43 R167, 30 R75, R76) -/

/-- WriteLen(E) (30 R76): E / 255 bytes 0xFF, then E mod 255. -/
def writeLen (e : Nat) : List Byte := List.replicate (e / 255) 255 ++ [BitVec.ofNat 8 (e % 255)]

/-- The extension of a length X: present when X does not fit below the escape value (30 R76, 90 C2). -/
def lengthExtension (x : Nat) : List Byte :=
  if x ≥ Config.nibbleCap then writeLen (x - Config.nibbleCap) else []

/-- The nibble of a length X (30 R75). -/
def lengthNibble (x : Nat) : BitVec 4 := BitVec.ofNat 4 (min x Config.nibbleCap)

/-- S[p] .. S[p + len - 1]. -/
def spanSlice (span : List Byte) (p len : Nat) : List Byte := (span.drop p).take len

/-- One sequence: token, literal-length extension, literals, distance, match-length extension (30 R74, 43 R173, R175).
`x` is the match length less 4. -/
def sequenceBytes (lits : List Byte) (dist x : Nat) : List Byte :=
  tokenByte (lengthNibble lits.length) (lengthNibble x) :: lengthExtension lits.length ++ lits ++
    distBytes (BitVec.ofNat 16 dist) ++ lengthExtension x

/-- The last sequence: literals only (30 R81, 43 R177). -/
def lastSequenceBytes (lits : List Byte) : List Byte :=
  tokenByte (lengthNibble lits.length) 0 :: lengthExtension lits.length ++ lits

/-! ### The search (43 R169 to R172, R174) -/

/-- The search loop from probe position `fip` with counter `att`: the accepted position, its reference and the table, or
the table when the margin is reached. `fuel` bounds the probes: each moves `fip` on by at least 1. -/
def searchFrom (span : List Byte) (hb mfl : Nat) : Nat → Nat → Nat → HashTable → Option (Nat × Nat) × HashTable
  | 0, _, _, t => (none, t)
  | fuel + 1, att, fip, t =>
    let next := fip + (att >>> Config.skipStrength)
    if next > mfl then (none, t)
    else
      let ref := htRead t (hashAt span hb fip)
      let t := insertPosition span hb t fip
      if accepts span fip ref then (some (fip, ref), t) else searchFrom span hb mfl fuel (att + 1) next t

/-- The counter a search starts with (43 R171). -/
def searchStart : Nat := 2 ^ Config.skipStrength + 3

/-- Catch-up (43 R172): how many steps back, at most `room`. -/
def catchUp (span : List Byte) : Nat → Nat → Nat → Nat
  | 0, _, _ => 0
  | room + 1, ip, ref =>
    if ref > 0 ∧ spanAt span (ip - 1) = spanAt span (ref - 1) then catchUp span room (ip - 1) (ref - 1) + 1 else 0

/-- Forward extension (43 R174): how many steps on, at most `room`, the distance to MLIM. -/
def extendBy (span : List Byte) : Nat → Nat → Nat → Nat
  | 0, _, _ => 0
  | room + 1, ip, ref =>
    if spanAt span ip = spanAt span ref then extendBy span room (ip + 1) (ref + 1) + 1 else 0

/-- Where the parse stands: about to search from a position, or at an accepted match. -/
inductive ParsePoint where
  | search (ip : Nat)
  | found (ip ref : Nat)
  deriving DecidableEq, Repr

/-- The parse from a point on (43 R178, SEARCH and MATCH): the bytes of the sequences but the last, the anchor at the
end and the table. `fuel` bounds the rounds: every second one consumes at least 4 bytes. -/
def parseFrom (span : List Byte) (hb mfl mlim : Nat) :
    Nat → ParsePoint → Nat → HashTable → List Byte × Nat × HashTable
  | 0, _, anchor, t => ([], anchor, t)
  | fuel + 1, .search ip, anchor, t =>
    match searchFrom span hb mfl (span.length + 1) searchStart ip t with
    | (none, t) => ([], anchor, t)
    | (some (ip, ref), t) =>
      let back := catchUp span (ip - anchor) ip ref
      parseFrom span hb mfl mlim fuel (.found (ip - back) (ref - back)) anchor t
  | fuel + 1, .found ip ref, anchor, t =>
    let lits := spanSlice span anchor (ip - anchor)
    let x := extendBy span (mlim - (ip + Config.minMatch)) (ip + Config.minMatch) (ref + Config.minMatch)
    let bytes := sequenceBytes lits (ip - ref) x
    let stop := ip + Config.minMatch + x
    if stop > mfl then (bytes, stop, t)
    else
      let t := insertPosition span hb t (stop - 2)
      let ref := htRead t (hashAt span hb stop)
      let t := insertPosition span hb t stop
      let point := if accepts span stop ref then .found stop ref else .search (stop + 1)
      let (more, anchor, t) := parseFrom span hb mfl mlim fuel point stop t
      (bytes ++ more, anchor, t)

/-- The block of a span and the table the parse leaves (43 R163 to R178). `t` is HT before: a short input leaves it. -/
def encodeBlock (span : List Byte) (t : HashTable) : List Byte × HashTable :=
  let n := span.length
  if n < Config.minLength then (lastSequenceBytes span, t)
  else
    let hb := hashBits n
    let t := insertPosition span hb [] 0
    let (bytes, anchor, t) :=
      parseFrom span hb (n - Config.mfLimit) (n - Config.lastLiterals) (n + 1) (.search 1) 0 t
    (bytes ++ lastSequenceBytes (spanSlice span anchor (n - anchor)), t)

/-- LZFWD (43 R178, R179). -/
def execLzfwd (v : Word64) (s : State) : Host.Outcome State Fault Refusal :=
  let n := v.toNat
  if spanOk n s then
    if destinationRoom s < maxLen n then raiseStatus .insufficientCapacity s
    else
      match memReadBytes s.src s.srcPos.toNat n with
      | none => .fault .uninit
      | some span =>
        let (out, t) := encodeBlock span s.ht
        returnOk (BitVec.ofNat 64 out.length)
          { s with
            ht := t
            dst := memWriteBytes s.dst s.dstPos.toNat out
            srcPos := BitVec.ofNat 32 (s.srcPos.toNat + n)
            dstPos := BitVec.ofNat 32 (s.dstPos.toNat + out.length) }
  else raiseStatus .invalidArgument s

end Sys2Proof.Machine
end

