-- ==== Sys2Proof/Machine/Lz77Inverse.lean ====
section
/-! DEFINITION. The LZ77 inverse command (spec 44), LZINV, and what it does with one element of a block (the four
WIRE.LZ rows of the table; log entry 11). -/

namespace Sys2Proof.Machine

/-- WIRE.LZ_TOKEN (30 R75, 44 R192) -/
def execLzToken (lit mat : BitVec 4) (s : State) : Host.Outcome State Fault Refusal := lziToken lit mat s

/-- WIRE.LZ_LEN_EXT_BYTE (30 R77, 44 R191) -/
def execLzLenExt (e : Byte) (s : State) : Host.Outcome State Fault Refusal := lziLenExt e s

/-- WIRE.LZ_LITERAL (30 R78, 44 R192) -/
def execLzLiteral (b : Byte) (s : State) : Host.Outcome State Fault Refusal := lziLiteral b s

/-- WIRE.LZ_DIST16 (30 R79, 44 R194) -/
def execLzDist16 (d : BitVec 16) (s : State) : Host.Outcome State Fault Refusal := lziDist d s

/-- LZINV's step: fetch the element it stands before and do what the element says. -/
def lziStep (phase : LziPhase) (s : State) : Host.Outcome State Fault Refusal :=
  match lziFetch phase s with
  | some (.lzToken lit mat, s) => lziToken lit mat s
  | some (.lzLenExt e, s) => lziLenExt e s
  | some (.lzLiteral b, s) => lziLiteral b s
  | some (.lzDist16 d, s) => lziDist d s
  | _ => .fault .uninit

/-- LZINV's steps until the command ends; `fuel` bounds them, since each consumes a byte of the span (44 R199 b). -/
def lziRun : Nat → State → Host.Outcome State Fault Refusal
  | 0, s => .next s
  | fuel + 1, s =>
    match s.lzi with
    | .idle => .next s
    | .active _ _ phase =>
      match lziStep phase s with
      | .next s => lziRun fuel s
      | .fault r => .fault r
      | .refused r => .refused r

/-- LZINV (44 R197). -/
def execLzinv (v : Word64) (s : State) : Host.Outcome State Fault Refusal :=
  let n := v.toNat
  if spanOk n s then
    if n = 0 then lziFinish s.srcPos.toNat s.dstPos.toNat s
    else lziRun n { s with lzi := .active (s.srcPos.toNat + n) s.dstPos.toNat .token }
  else raiseStatus .invalidArgument s

end Sys2Proof.Machine
end

