-- ==== Sys2Proof/Machine/Dispatch.lean ====
section
/-! DEFINITION. One arm per instruction. -/

namespace Sys2Proof.Machine

def exec (i : Instr) (s : State) : Host.Outcome State Fault Refusal :=
  match i with
  | .wbit b => Sys2Proof.Machine.execWbit b s
  | .wbits a v => Sys2Proof.Machine.execWbits a v s
  | .wflush => Sys2Proof.Machine.execWflush s
  | .wclose => Sys2Proof.Machine.execWclose s
  | .wcount => Sys2Proof.Machine.execWcount s
  | .rbit => Sys2Proof.Machine.execRbit s
  | .rbits a => Sys2Proof.Machine.execRbits a s
  | .rclose => Sys2Proof.Machine.execRclose s
  | .rcount => Sys2Proof.Machine.execRcount s
  | .egenc v => Sys2Proof.Machine.execEgenc v s
  | .egdec => Sys2Proof.Machine.execEgdec s
  | .lzfwd v => Sys2Proof.Machine.execLzfwd v s
  | .lzinv v => Sys2Proof.Machine.execLzinv v s
  | .lzmax v => Sys2Proof.Machine.execLzmax v s
  | .crw a v => Sys2Proof.Machine.execCrw a v s
  | .crr a => Sys2Proof.Machine.execCrr a s
  | .lzToken lit mat => Sys2Proof.Machine.execLzToken lit mat s
  | .lzLenExt e => Sys2Proof.Machine.execLzLenExt e s
  | .lzLiteral b => Sys2Proof.Machine.execLzLiteral b s
  | .lzDist16 d => Sys2Proof.Machine.execLzDist16 d s
  | .eguN0 => Sys2Proof.Machine.execEguN0 s
  | .eguN1 x => Sys2Proof.Machine.execEguN1 x s
  | .eguN2 x => Sys2Proof.Machine.execEguN2 x s
  | .eguN3 x => Sys2Proof.Machine.execEguN3 x s
  | .eguN4 x => Sys2Proof.Machine.execEguN4 x s
  | .eguN5 x => Sys2Proof.Machine.execEguN5 x s
  | .eguN6 x => Sys2Proof.Machine.execEguN6 x s
  | .eguN7 x => Sys2Proof.Machine.execEguN7 x s
  | .eguN8 => Sys2Proof.Machine.execEguN8 s
  | .egsN0 => Sys2Proof.Machine.execEgsN0 s
  | .egsN1 x neg => Sys2Proof.Machine.execEgsN1 x neg s
  | .egsN2 x neg => Sys2Proof.Machine.execEgsN2 x neg s
  | .egsN3 x neg => Sys2Proof.Machine.execEgsN3 x neg s
  | .egsN4 x neg => Sys2Proof.Machine.execEgsN4 x neg s
  | .egsN5 x neg => Sys2Proof.Machine.execEgsN5 x neg s
  | .egsN6 x neg => Sys2Proof.Machine.execEgsN6 x neg s
  | .egsN7 x neg => Sys2Proof.Machine.execEgsN7 x neg s
  | .egsN8 neg => Sys2Proof.Machine.execEgsN8 neg s

end Sys2Proof.Machine
end

