-- ==== Sys2Proof/Machine/Step.lean ====
section
/-! DEFINITION. One step of KZC: inside LZINV, one element of the block (no state a command leaves is there); else the
host's next move; with nothing to do KZC is idle and keeps its state (spec 60 R238). Log entries 8 and 11. -/

namespace Sys2Proof.Machine

/-- A command word presented to KZC: decoded and run to completion, or a reserved op (30 R60, R63). -/
def runCommand (w : CommandWord) (s : State) : Host.Outcome State Fault Refusal :=
  match decodeCommand w with
  | .ok i => exec i s
  | .error _ => illegalCommand s

def step (s : State) : Host.Outcome State Fault Refusal :=
  match s.lzi with
  | .active _ _ phase =>
    match lziFetch phase s with
    | some (i, s) => exec i s
    | none => .fault .uninit
  | .idle =>
    match s.inbox with
    | [] => .next s
    | .command w :: rest => runCommand w { s with inbox := rest }
    | .writeSrc a b :: rest => hostWriteSrc a b { s with inbox := rest }
    | .writeDst a b :: rest => hostWriteDst a b { s with inbox := rest }
    | .attachSource bytes :: rest => hostAttachSource bytes { s with inbox := rest }
    | .reset egeSigned egdSigned source :: rest => hostReset egeSigned egdSigned source { s with inbox := rest }

/-- The instruction with the bits `w` of a table row of `nbits` bits, placed so that the next step runs it (log entries 8
and 13): a command word is the host's next move; an LZ element stands at SRC_POS, zeros after it, with LZINV before it;
a code stands at the head of the source, zeros after it, with EGDEC the next command. -/
def State.withFetchWord (s : State) (nbits w : Nat) : State :=
  match tableSlot nbits w with
  | (.command, _) =>
    { s with lzi := .idle, inbox := .command (BitVec.ofNat 80 w) :: s.inbox }
  | (.egCode signed, n) =>
    { s with
      lzi := .idle
      inbox := .command (commandWord 0x22 0 0) :: s.inbox
      cfg := { s.cfg with egdSigned := signed }
      reader := Reader.reset s.cfg
      source :=
        { bytes := bytesOf (tableBits nbits w ++ List.replicate (80 - n) false), next := 0, closed := false }
      sourceStarted := false
      env := { s.env with sourceScript := List.replicate 10 (.deliver s.cfg.rBufsz) } }
  | (.lzDist, _) =>
    { s with
      lzi := .active (s.srcPos.toNat + 10) s.dstPos.toNat (.dist 0)
      src := memWriteBytes s.src s.srcPos.toNat (bytesOf (tableBits nbits w ++ List.replicate 64 false)) }
  | (.lzToken, _) | (.lzLenExt, _) | (.lzLiteral, _) =>
    { s with
      lzi := .active (s.srcPos.toNat + 10) s.dstPos.toNat .token
      src := memWriteBytes s.src s.srcPos.toNat (bytesOf (tableBits nbits w ++ List.replicate 72 false)) }

end Sys2Proof.Machine
end

