-- ==== Sys2Proof/Safety.lean ====
section
/-! DEFINITION. The terms claims about KZC are made in: the bits a stream has carried, the invariants of spec 10 R14, R16
and R20, the canonical form of the memories, and what a good run is (70 R263). -/

namespace Sys2Proof.Machine

/-! ### What the streams hold -/

/-- The bits of a byte in the order of the stream (00 R5). -/
def byteBits (b : Byte) : List Bool := bitsOf 8 b.toNat

/-- Every bit put into the writer since reset (40 R110 a): the bytes the sink has, the complete bytes in W_BUF, the bits of
the byte being filled. -/
def writtenBits (s : State) : List Bool :=
  (s.sink.bytes ++ s.writer.buf.take s.writer.pos).flatMap byteBits ++
    (byteBits (s.writer.buf.getD s.writer.pos 0)).take (7 - s.writer.bit.toNat)

/-- Every bit the reader can still hand out (41 R129): what is left in R_BUF, then what the source has not delivered. -/
def pendingBits (s : State) : List Bool :=
  (((s.reader.buf.take s.reader.fill).drop s.reader.pos ++ s.source.bytes.drop s.source.next).flatMap
    byteBits).drop (7 - s.reader.bit.toNat)

/-- The environment's next `n` answers of the sink are successes. -/
abbrev sinkReady (n : Nat) (s : State) : Prop :=
  s.env.sinkScript.take n = List.replicate n .ok

/-- An answer of the source that is a success. -/
def delivers : Config.SourceAnswer → Bool
  | .deliver _ => true
  | .fail _ => false

/-- The environment's next `n` answers of the source are successes, each with a count of its own. -/
abbrev sourceReady (n : Nat) (s : State) : Prop :=
  n ≤ s.env.sourceScript.length ∧ (s.env.sourceScript.take n).all delivers = true

/-! ### Invariants -/

/-- 10 R14 for a writer with no I/O fault, with W_BUF of its size: (a) the position, (b) the bits not yet written are 0,
(c) the count is the bits sent and held, modulo the width of W_COUNT, (d) what holds once closed. -/
abbrev WriterOk (s : State) : Prop :=
  s.writer.buf.length = s.cfg.wBufsz ∧ s.writer.pos < s.cfg.wBufsz ∧
  (∀ k < 8, k ≤ s.writer.bit.toNat → (s.writer.buf.getD s.writer.pos 0).getLsbD k = false) ∧
  (∀ i < s.cfg.wBufsz, s.writer.pos < i → s.writer.buf.getD i 0 = 0) ∧
  s.writer.count =
    BitVec.ofNat 64 (8 * (s.sink.bytes.length + s.writer.pos) + (7 - s.writer.bit.toNat)) ∧
  (s.writer.closed = true →
    s.writer.pos = 0 ∧ s.writer.bit = 7 ∧ (∀ i < s.cfg.wBufsz, s.writer.buf.getD i 0 = 0) ∧
      s.writer.count.toNat % 64 = 0)

/-- 10 R14: true of every state whose writer has no I/O fault. -/
abbrev WriterInv (s : State) : Prop := s.writer.ioFault = false → WriterOk s

/-- 10 R16 for a reader with no sticky fault, with R_BUF of its size and holding the bytes the source delivered last. -/
abbrev ReaderOk (s : State) : Prop :=
  s.reader.buf.length = s.cfg.rBufsz ∧ s.reader.pos ≤ s.reader.fill ∧ s.reader.fill ≤ s.cfg.rBufsz ∧
  (s.reader.bit ≠ 7 → s.reader.pos < s.reader.fill) ∧
  s.reader.fill ≤ s.source.next ∧ s.source.next ≤ s.source.bytes.length ∧
  s.reader.buf.take s.reader.fill =
    (s.source.bytes.drop (s.source.next - s.reader.fill)).take s.reader.fill ∧
  s.reader.count =
    BitVec.ofNat 64
      (8 * (s.source.next - s.reader.fill + s.reader.pos) + (7 - s.reader.bit.toNat)) ∧
  (s.sourceStarted = false → s.source.next = 0)

/-- 10 R16: true of every state whose reader has no sticky fault. -/
abbrev ReaderInv (s : State) : Prop :=
  s.reader.ioFault = false → s.reader.eos = false → ReaderOk s

/-- 10 R20, R25: the views lie in their memories, the cursors in their views, and no byte is listed outside a memory. -/
abbrev ViewsOk (s : State) : Prop :=
  s.srcPos.toNat ≤ s.srcLen.toNat ∧ s.srcLen.toNat ≤ s.cfg.srcMemBytes ∧
  s.dstPos.toNat ≤ s.dstLen.toNat ∧ s.dstLen.toNat ≤ s.cfg.dstMemBytes ∧
  (∀ e ∈ s.src, e.1 < s.cfg.srcMemBytes) ∧ (∀ e ∈ s.dst, e.1 < s.cfg.dstMemBytes)

/-- Between commands: LZINV is not at work (30 R60). -/
abbrev Between (s : State) : Prop := s.lzi = .idle

/-- The memories and the hash table are in canonical form, and the table has 8192 slots (10 R18). -/
abbrev Canonical (s : State) : Prop :=
  Memory.wf s.src = true ∧ Memory.wf s.dst = true ∧ HashTable.wf s.ht = true ∧ (∀ e ∈ s.ht, e.1 < 8192)

/-- No response of the run carries a value with a status other than OK (30 R65). -/
abbrev ResponsesOk (s : State) : Prop := ∀ r ∈ s.responses, r.status ≠ .ok → r.val = 0

/-- A state of a run that has not gone wrong (70 R263): no fault bit of STATUS is set. (UNINIT ends a run: it is a fault of
the model and has no next state.) -/
abbrev GoodSoFar (s : State) : Prop := faultRecorded s = false

/-! ### Frames -/

/-- The state of the LZ units and the two memories is the same (00 R3), byte by byte too. -/
abbrev SameLz (s t : State) : Prop :=
  t.ht = s.ht ∧ t.srcPos = s.srcPos ∧ t.srcLen = s.srcLen ∧ t.dstPos = s.dstPos ∧ t.dstLen = s.dstLen ∧
  t.src = s.src ∧ t.dst = s.dst ∧ t.lzi = s.lzi ∧
  (∀ a, hostReadSrc t a = hostReadSrc s a) ∧ (∀ a, hostReadDst t a = hostReadDst s a)

/-- The state of the bit-stream and exp-Golomb units, of the sink and of the source is the same (00 R3). -/
abbrev SameStreams (s t : State) : Prop :=
  t.writer = s.writer ∧ t.reader = s.reader ∧ t.egRangeSeen = s.egRangeSeen ∧ t.sink = s.sink ∧
  t.source = s.source ∧ t.sourceStarted = s.sourceStarted ∧ t.env = s.env

/-- The writer's side is the same. -/
abbrev SameWriter (s t : State) : Prop := t.writer = s.writer ∧ t.sink = s.sink

/-- The reader's side is the same. -/
abbrev SameReader (s t : State) : Prop :=
  t.reader = s.reader ∧ t.source = s.source ∧ t.sourceStarted = s.sourceStarted

/-- All but DST, its cursor, LZINV's place and the responses is the same (44 R197). -/
abbrev SameButOutput (s t : State) : Prop :=
  t.cfg = s.cfg ∧ t.src = s.src ∧ t.srcPos = s.srcPos ∧ t.srcLen = s.srcLen ∧ t.dstLen = s.dstLen ∧ t.ht = s.ht ∧
  t.inbox = s.inbox ∧ SameStreams s t

/-- What a match of `m` bytes at distance `dist` leaves (44 R196, R193): each byte of the run is the byte `dist` before it,
every other byte of DST is as before, the cursor stands behind the run; the command ends with the span, or a token comes
next. -/
abbrev MatchCopied (sEnd d0 dist m : Nat) (s t : State) : Prop :=
  t.dstPos.toNat = s.dstPos.toNat + m ∧
  (∀ i < m, hostReadDst t (s.dstPos.toNat + i) = hostReadDst t (s.dstPos.toNat + i - dist)) ∧
  (∀ a, a < s.dstPos.toNat ∨ s.dstPos.toNat + m ≤ a → hostReadDst t a = hostReadDst s a) ∧ SameButOutput s t ∧
  t.lzi = (if s.srcPos.toNat = sEnd then .idle else .active sEnd d0 .token) ∧
  t.responses = s.responses ++
    (if s.srcPos.toNat = sEnd then [{ status := .ok, val := BitVec.ofNat 64 (s.dstPos.toNat + m - d0) }] else [])

/-! ### Failures of the streams -/

/-- The command has ended at a failed request to the sink (40 R109, 60 R222). -/
abbrev WriteFailed (s t : State) : Prop :=
  t.writer.ioFault = true ∧ t.responses = s.responses ++ [{ status := .ioFailure, val := 0 }] ∧ SameReader s t ∧ SameLz s t

/-- The command has ended at a failed request to the source (41 R128, 60 R222). -/
abbrev ReadFailed (s t : State) : Prop :=
  t.reader.ioFault = true ∧ t.responses = s.responses ++ [{ status := .ioFailure, val := 0 }] ∧ SameWriter s t ∧ SameLz s t

/-- The command has ended where the source had no bit left (41 R127, 60 R227); R_CLOSED as it was (log entry 4). -/
abbrev RanOffTheEnd (s t : State) : Prop :=
  t.reader.eos = true ∧ t.reader.closed = s.reader.closed ∧ t.reader.ioFault = false ∧ SameWriter s t ∧ SameLz s t ∧
  t.responses = s.responses ++ [{ status := .endOfStream, val := 0 }]

/-- How many bits complete the last byte of W_BUF (40 R100). -/
def bitsToFill (s : State) : Nat := 8 * (s.cfg.wBufsz - s.writer.pos) - (7 - s.writer.bit.toNat)

/-! ### Commands -/

/-- Commands run one after another, up to the first that stops. -/
def execAll : List Instr → State → Host.Outcome State Fault Refusal
  | [], s => .next s
  | i :: rest, s =>
    match exec i s with
    | .next t => execAll rest t
    | .fault r => .fault r
    | .refused r => .refused r

/-- The commands of the writer's side (40, 42). -/
def writerCommand : Instr → Bool
  | .wbit _ | .wbits _ _ | .wflush | .wclose | .wcount | .egenc _ => true
  | _ => false

/-- The write commands the admission test of 40 R102 is shared by. -/
def writeCommand : Instr → Bool
  | .wbit _ | .wbits _ _ | .wflush | .egenc _ => true
  | _ => false

/-- The commands of the reader's side (41, 42). -/
def readerCommand : Instr → Bool
  | .rbit | .rbits _ | .rclose | .rcount | .egdec => true
  | _ => false

/-- The commands of the LZ units (43, 44). -/
def lzCommand : Instr → Bool
  | .lzfwd _ | .lzinv _ | .lzmax _ => true
  | _ => false

/-- The read commands the admission test of 41 R122 is shared by. -/
def readCommand : Instr → Bool
  | .rbit | .rbits _ | .egdec => true
  | _ => false

end Sys2Proof.Machine
end

