-- ==== Sys2Proof/Certificates/Slice0/Obligations.lean ====
section
/-! DEFINITION. What is claimed of KZC. Each statement's docstring names the rules of spec/ it rests on. -/

open Sys2Proof Sys2Proof.Machine

/-! ### The port, decoding, responses -/

/-- 30 R60, R62: between commands, when the host's next move is a command word that decodes to an instruction, the step is
that instruction's run, the word taken off the host's queue. Inside LZINV the step runs the element fetched from the
block: that the machine can stand inside LZINV and be stepped there is the model's choice (log entry 11), which R60 and R83
do not say. -/
def Obligations.StepRunsDecodedInstruction : Prop :=
  (∀ (s : State) (w : CommandWord) (rest : List HostMove) (i : Instr),
    s.lzi = .idle → s.inbox = .command w :: rest → decodeCommand w = .ok i →
      step s = exec i { s with inbox := rest }) ∧
  (∀ (s : State) (sEnd d0 : Nat) (phase : LziPhase) (i : Instr) (s1 : State),
    s.lzi = .active sEnd d0 phase → lziFetch phase s = some (i, s1) → step s = exec i s1)

/-- 30 R63, 60 R226: a word whose op is none of the sixteen is answered ILLEGAL_COMMAND with value 0, and nothing but the
host's queue and the responses changes. -/
def Obligations.ReservedOpIsIllegal : Prop :=
  ∀ (s : State) (w : CommandWord) (rest : List HostMove),
    s.lzi = .idle → s.inbox = .command w :: rest →
    (w.toNat / 2 ^ 72) ∉ [0x01, 0x02, 0x03, 0x04, 0x05, 0x11, 0x12, 0x14, 0x15, 0x21, 0x22, 0x31, 0x32, 0x33, 0x41, 0x42] →
      step s = .next { s with
        inbox := rest
        responses := s.responses ++ [{ status := .illegalCommand, val := 0 }] }

/-- 95 Part 2 and 3, 30 R61, R73, R75: words written out from the encodings decode to what they stand for. -/
def Obligations.SampleWordsDecode : Prop :=
  decodeCommand 0x0210000000000000ABCD = .ok (.wbits 16 0xABCD) ∧
  decodeCommand 0x12240000000000000000 = .ok (.rbits 36) ∧
  decodeCommand 0x2100FFFFFFFFFFFFFF01 = .ok (.egenc 0xFFFFFFFFFFFFFF01) ∧
  decodeCommand 0x3100000000000000000D = .ok (.lzfwd 13) ∧
  decodeCommand 0x41010000000000000014 = .ok (.crw 1 20) ∧
  decodeCommand 0x13000000000000000000 = .error (.reservedOp 0x13) ∧
  decode .lzToken [false, true, false, false, false, true, true, true] = .ok (.lzToken 4 7, []) ∧
  decode (.egCode false) [false, false, true, true, false] = .ok (.eguN2 2, []) ∧
  decode (.egCode true) [false, true, false, true] = .ok (.egsN1 0 true, [])

/-- 30 R61, R62, R67, R72, R75 to R79: every well-formed instruction, command or wire element, is read back from its
encoding with every operand, whatever follows it. -/
def Obligations.EncodedInstructionsDecode : Prop :=
  ∀ (i : Instr) (rest : List Bool), i.wellFormed = true →
    decode (slotOf i) (encode i ++ rest) = .ok (i, rest)

/-- 30 R60, R65, 10 R10: every command that runs to a next state returns exactly one response, and the response and what the
command leaves in KZC, the sink and the source are the same whatever the model's own fields hold: they depend on R10's state,
the parameters and the environment's answers. That the answers are fields of State is the model's choice (log entry 2). -/
def Obligations.EveryCommandRespondsOnce : Prop :=
  ∀ (i : Instr) (s t : State), slotOf i = .command → exec i s = .next t →
    ∃ r : Response, t.responses = s.responses ++ [r] ∧
      ∀ s' : State, s'.toKzc = s.toKzc → s'.cfg = s.cfg → s'.env = s.env →
        ∃ t', exec i s' = .next t' ∧ t'.toKzc = t.toKzc ∧ t'.cfg = t.cfg ∧ t'.env = t.env ∧
          t'.responses = s'.responses ++ [r]

/-- 30 R65, 60 R220: no step adds a response that carries a value with a status other than OK. -/
def Obligations.RefusedCommandsReturnZero : Prop :=
  ∀ s t : State, ResponsesOk s → step s = .next t → ResponsesOk t

/-! ### Reset and the host -/

/-- 10 R28, 70 R251: the values the spec gives, for every configuration and every source (R_BUF and HT are unspecified and
not claimed). -/
def Obligations.ResetLeavesListedValues : Prop :=
  ∀ (p : Config.Params) (source : List Byte),
    let s := State.resetWith p source
    (s.writer.buf.length = p.wBufsz ∧ (∀ b ∈ s.writer.buf, b = 0)) ∧ s.writer.pos = 0 ∧ s.writer.bit = 7 ∧
    s.writer.closed = false ∧ s.writer.count = 0 ∧ s.writer.ioFault = false ∧
    s.reader.fill = 0 ∧ s.reader.pos = 0 ∧ s.reader.bit = 7 ∧ s.reader.closed = false ∧ s.reader.count = 0 ∧
    s.reader.ioFault = false ∧ s.reader.eos = false ∧ s.egRangeSeen = false ∧
    s.srcPos = 0 ∧ s.srcLen = 0 ∧ s.dstPos = 0 ∧ s.dstLen = 0 ∧
    (∀ a, hostReadSrc s a = none) ∧ (∀ a, hostReadDst s a = none) ∧
    s.cfg = p ∧ s.sink.bytes = [] ∧ s.sink.flushes = 0 ∧ s.sink.closed = false ∧
    s.source.bytes = source ∧ s.source.next = 0 ∧ s.source.closed = false ∧ statusBits s = 0

/-- 70 R250 to R252: reset from any state between commands, with the straps sampled and a fresh source: the
whole state is the one State.resetWith gives. Of that the model's choices, not the spec's, are: R_BUF all zero (log entry 5;
R28 and R251 leave it unspecified), HT all zero (log entry 6; the same), and that the list of responses is emptied while the
host's coming moves and the environment's answers stay (log entry 10). -/
def Obligations.ResetStartsAfresh : Prop :=
  ∀ (s : State) (e d : Bool) (source : List Byte) (rest : List HostMove),
    s.lzi = .idle → s.inbox = .reset e d source :: rest →
      step s = .next { State.resetWith { s.cfg with egeSigned := e, egdSigned := d } source with
        inbox := rest, env := s.env }

/-- 20 R45, R55 (a), R25, 70 R255, R262, 60 R238: what the host's moves between commands do. A byte the host writes to SRC or
DST is the byte read there, every other byte of both memories is as before, and nothing else changes; attaching the source
fixes SOURCE.bytes and changes nothing else; with no move waiting KZC keeps its state. That an address outside the memory
faults and that a change of SOURCE.bytes after the first read is refused is the model's choice (log entry 9), and that a step
is taken with no move waiting (log entry 8). -/
def Obligations.HostMovesDoWhatTheySay : Prop :=
  (∀ (s : State) (a : Nat) (b : Byte) (rest : List HostMove), s.lzi = .idle → s.inbox = .writeSrc a b :: rest →
    (a < s.cfg.srcMemBytes →
      ∃ t, step s = .next t ∧ hostReadSrc t a = some b ∧ (∀ x, x ≠ a → hostReadSrc t x = hostReadSrc s x) ∧
        t = { s with inbox := rest, src := t.src }) ∧
    (s.cfg.srcMemBytes ≤ a → step s = .fault .noSuchAddress)) ∧
  (∀ (s : State) (a : Nat) (b : Byte) (rest : List HostMove), s.lzi = .idle → s.inbox = .writeDst a b :: rest →
    (a < s.cfg.dstMemBytes →
      ∃ t, step s = .next t ∧ hostReadDst t a = some b ∧ (∀ x, x ≠ a → hostReadDst t x = hostReadDst s x) ∧
        t = { s with inbox := rest, dst := t.dst }) ∧
    (s.cfg.dstMemBytes ≤ a → step s = .fault .noSuchAddress)) ∧
  (∀ (s : State) (bytes : List Byte) (rest : List HostMove), s.lzi = .idle → s.inbox = .attachSource bytes :: rest →
    (s.sourceStarted = false →
      step s = .next { s with inbox := rest, source := { s.source with bytes := bytes } }) ∧
    (s.sourceStarted = true → step s = .refused .sourceAlreadyRead)) ∧
  (∀ (s : State), s.lzi = .idle → s.inbox = [] → step s = .next s)

/-! ### The bit-stream writer -/

/-- 40 R102, 60 R230: WBIT, WBITS, WFLUSH and EGENC on a faulted writer are IO_FAILURE, on a closed one STREAM_CLOSED, the
first test first, and nothing changes; after close WCLOSE is a no-op that succeeds and WCOUNT still answers. -/
def Obligations.WritersAreAdmitted : Prop :=
  ∀ (i : Instr) (s : State), writeCommand i = true →
    (s.writer.ioFault = true →
      exec i s = .next { s with responses := s.responses ++ [{ status := .ioFailure, val := 0 }] }) ∧
    (s.writer.ioFault = false → s.writer.closed = true →
      exec i s = .next { s with responses := s.responses ++ [{ status := .streamClosed, val := 0 }] } ∧
      exec .wclose s = .next { s with responses := s.responses ++ [{ status := .ok, val := 0 }] } ∧
      exec .wcount s = .next { s with responses := s.responses ++ [{ status := .ok, val := s.writer.count }] })

/-- 40 R100, R101, R103: WBIT on an open writer. The bit goes to bit W_BIT of W_BUF[W_POS], W_COUNT counts it, W_BIT counts
down and at a byte boundary W_POS moves on. The bit that completes the last byte of the buffer pushes the whole buffer to the
sink in the same command and asks the sink to flush; the buffer is then empty. -/
def Obligations.WbitPacksOneBit : Prop :=
  ∀ (b : Bool) (s : State), WriterOk s → s.writer.ioFault = false → s.writer.closed = false →
    let buf := s.writer.buf.set s.writer.pos
      (s.writer.buf.getD s.writer.pos 0 ||| (if b then 1 else 0) <<< s.writer.bit.toNat)
    (¬ (s.writer.bit = 0 ∧ s.writer.pos + 1 = s.cfg.wBufsz) →
      exec (.wbit b) s = .next { s with
        writer := { s.writer with
          buf := buf
          count := s.writer.count + 1
          bit := if s.writer.bit = 0 then 7 else s.writer.bit - 1
          pos := if s.writer.bit = 0 then s.writer.pos + 1 else s.writer.pos }
        responses := s.responses ++ [{ status := .ok, val := 0 }] }) ∧
    (s.writer.bit = 0 → s.writer.pos + 1 = s.cfg.wBufsz → sinkReady 2 s →
      exec (.wbit b) s = .next { s with
        writer := { s.writer with
          buf := List.replicate s.cfg.wBufsz 0, pos := 0, bit := 7, count := s.writer.count + 1 }
        sink := { s.sink with bytes := s.sink.bytes ++ buf, flushes := s.sink.flushes + 1 }
        env := { s.env with sinkScript := s.env.sinkScript.drop 2 }
        responses := s.responses ++ [{ status := .ok, val := 0 }] })

/-- 40 R104, R110 (a): WBITS on an open writer, the sink answering, adds the `a` low bits of `v` to the stream, most
significant first, through any number of bytes and flushes, and returns `a`. -/
def Obligations.WbitsAppendsTheLowBits : Prop :=
  ∀ (a : BitVec 8) (v : Word64) (s : State), WriterOk s → s.writer.ioFault = false → s.writer.closed = false →
    1 ≤ a.toNat → a.toNat ≤ 64 → sinkReady 16 s →
      ∃ t, exec (.wbits a v) s = .next t ∧
        writtenBits t = writtenBits s ++ (List.range a.toNat).reverse.map (fun i => v.getLsbD i) ∧
        t.writer.count = s.writer.count + BitVec.ofNat 64 a.toNat ∧ WriterOk t ∧
        t.writer.ioFault = false ∧ t.writer.closed = false ∧
        t.responses = s.responses ++ [{ status := .ok, val := BitVec.ofNat 64 a.toNat }]

/-- 40 R101, R106: WFLUSH on an open writer, the sink answering: the complete bytes go to the sink, the partial byte comes
to the start of the buffer, zeroes in the rest, W_BIT and W_COUNT unchanged, the sink asked to flush once. -/
def Obligations.WflushPushesCompleteBytes : Prop :=
  ∀ (s : State), WriterOk s → s.writer.ioFault = false → s.writer.closed = false → sinkReady 2 s →
    exec .wflush s = .next { s with
      writer := { s.writer with
        buf := (if s.writer.bit = 7 then 0 else s.writer.buf.getD s.writer.pos 0) ::
          List.replicate (s.cfg.wBufsz - 1) 0
        pos := 0 }
      sink := { s.sink with
        bytes := s.sink.bytes ++ s.writer.buf.take s.writer.pos, flushes := s.sink.flushes + 1 }
      env := { s.env with
        sinkScript := s.env.sinkScript.drop (if s.writer.pos = 0 then 1 else 2) }
      responses := s.responses ++ [{ status := .ok, val := 0 }] }

/-- 40 R107, R110 (c), 30 R71: WCLOSE of an open writer, the sink answering: the stream is padded with 1-bits to the next
multiple of 64, all of it is in the sink, the sink and the writer are closed. -/
def Obligations.WclosePadsAndCloses : Prop :=
  ∀ (s : State), WriterOk s → s.writer.ioFault = false → s.writer.closed = false → sinkReady 20 s →
    let pad := (64 - s.writer.count.toNat % 64) % 64
    ∃ t, exec .wclose s = .next t ∧
      t.sink.bytes.flatMap byteBits = writtenBits s ++ List.replicate pad true ∧
      t.writer.count = s.writer.count + BitVec.ofNat 64 pad ∧ t.writer.count.toNat % 64 = 0 ∧
      t.writer.buf = List.replicate s.cfg.wBufsz 0 ∧ t.writer.pos = 0 ∧ t.writer.bit = 7 ∧
      t.writer.closed = true ∧ t.writer.ioFault = false ∧ t.sink.closed = true ∧
      s.sink.flushes < t.sink.flushes ∧
      t.responses = s.responses ++ [{ status := .ok, val := 0 }]

/-- 40 R107, 41 R125, 60 R230: WCLOSE of a faulted writer and RCLOSE of a reader with an I/O fault are IO_FAILURE, and the
second WCLOSE or RCLOSE is a no-op that succeeds. -/
def Obligations.ClosesAreIdempotent : Prop :=
  ∀ (s : State),
    (s.writer.ioFault = true →
      exec .wclose s = .next { s with responses := s.responses ++ [{ status := .ioFailure, val := 0 }] }) ∧
    (s.writer.ioFault = false → s.writer.closed = true →
      exec .wclose s = .next { s with responses := s.responses ++ [{ status := .ok, val := 0 }] }) ∧
    (s.reader.ioFault = true →
      exec .rclose s = .next { s with responses := s.responses ++ [{ status := .ioFailure, val := 0 }] }) ∧
    (s.reader.ioFault = false → s.reader.closed = true →
      exec .rclose s = .next { s with responses := s.responses ++ [{ status := .ok, val := 0 }] })

/-- 40 R112: after a WCLOSE that answered OK the count is a multiple of 64 and no smaller than before (the count not
wrapping, 92 D12), and every write then fails with STREAM_CLOSED and changes nothing. -/
def Obligations.AfterCloseWritesFail : Prop :=
  ∀ (s t : State), WriterInv s → s.writer.count.toNat + 64 ≤ 2 ^ 64 → exec .wclose s = .next t →
    t.responses = s.responses ++ [{ status := .ok, val := 0 }] →
      t.writer.count.toNat % 64 = 0 ∧ s.writer.count.toNat ≤ t.writer.count.toNat ∧
      ∀ i, writeCommand i = true →
        exec i t = .next { t with responses := t.responses ++ [{ status := .streamClosed, val := 0 }] }

/-- 40 R108: WCOUNT answers W_COUNT, and after a sink failure OK with a value nothing is said of; it changes nothing (but
the counter the free value is drawn at, which is the model's own). -/
def Obligations.WcountReturnsTheCount : Prop :=
  ∀ (s : State),
    (s.writer.ioFault = false →
      exec .wcount s = .next { s with responses := s.responses ++ [{ status := .ok, val := s.writer.count }] }) ∧
    (s.writer.ioFault = true →
      ∃ (v : Word64) (n : Nat), exec .wcount s = .next { s with
        env := { s.env with draws := n }
        responses := s.responses ++ [{ status := .ok, val := v }] })

/-- 40 R109, 60 R222, 20 R46, R53: a command of the writer's side on a writer with no fault ends with W_IOFAULT set exactly
when it answers IO_FAILURE, and the bytes the sink had stay the beginning of what it has. A command that meets a failing
answer of the sink ends there, with IO_FAILURE and no retry: in WFLUSH a failing push (the sink keeps a prefix of it) or a
failing flush; in WBIT, WBITS and EGENC the push or the flush of the buffer they fill; in WCLOSE its first request or, of a
writer with nothing to write, its SinkClose. That the answers are a list in State is the model's choice (log entry 2). -/
def Obligations.SinkFailureIsRecorded : Prop :=
  (∀ (i : Instr) (s t : State), writerCommand i = true → s.writer.ioFault = false → exec i s = .next t →
    (t.writer.ioFault = true ↔ t.responses = s.responses ++ [{ status := .ioFailure, val := 0 }]) ∧
    s.sink.bytes <+: t.sink.bytes) ∧
  (∀ (i : Instr) (s t : State) (used : List Config.SinkAnswer), writerCommand i = true → s.writer.ioFault = false →
    exec i s = .next t → s.env.sinkScript = used ++ t.env.sinkScript → (∃ k, .fail k ∈ used) →
      WriteFailed s t ∧ ∃ n k, used = List.replicate n .ok ++ [.fail k]) ∧
  (∀ (s : State) (k : Nat) (rest : List Config.SinkAnswer), s.writer.ioFault = false → s.writer.closed = false →
    (0 < s.writer.pos → s.env.sinkScript = .fail k :: rest →
      ∃ t, exec .wflush s = .next t ∧ WriteFailed s t ∧
        t.sink.bytes = s.sink.bytes ++ (s.writer.buf.take s.writer.pos).take k) ∧
    (s.env.sinkScript = (if 0 < s.writer.pos then [.ok] else []) ++ .fail k :: rest →
      ∃ t, exec .wflush s = .next t ∧ WriteFailed s t ∧
        t.sink.bytes = s.sink.bytes ++ s.writer.buf.take s.writer.pos) ∧
    (s.env.sinkScript = .fail k :: rest ∨ s.env.sinkScript = .ok :: .fail k :: rest → WriterOk s →
      (∀ b, bitsToFill s ≤ 1 → ∃ t, exec (.wbit b) s = .next t ∧ WriteFailed s t) ∧
      (∀ a v, a.toNat ≤ 64 → 1 ≤ a.toNat → bitsToFill s ≤ a.toNat →
        ∃ t, exec (.wbits a v) s = .next t ∧ WriteFailed s t) ∧
      (∀ v, symbolOk s.cfg.egeSigned v = true → bitsToFill s ≤ (symbolBits s.cfg.egeSigned v).length →
        ∃ t, exec (.egenc v) s = .next t ∧ WriteFailed s t)) ∧
    (s.env.sinkScript = .fail k :: rest → ∃ t, exec .wclose s = .next t ∧ WriteFailed s t) ∧
    (s.env.sinkScript = .ok :: .fail k :: rest → s.writer.pos = 0 → s.writer.bit = 7 → s.writer.count.toNat % 64 = 0 →
      ∃ t, exec .wclose s = .next t ∧ WriteFailed s t ∧ t.sink.bytes = s.sink.bytes))

/-- 10 R14: from every state that has it, a step leaves the writer's invariant true. -/
def Obligations.StepsKeepTheWriterInvariant : Prop :=
  ∀ s t : State, WriterInv s → step s = .next t → WriterInv t

/-! ### The bit-stream reader -/

/-- 41 R122, 60 R230: RBIT, RBITS and EGDEC on a reader with an I/O fault are IO_FAILURE, past the end END_OF_STREAM, closed
STREAM_CLOSED, tested in this order, and nothing changes. -/
def Obligations.ReadersAreAdmitted : Prop :=
  ∀ (i : Instr) (s : State), readCommand i = true →
    (s.reader.ioFault = true →
      exec i s = .next { s with responses := s.responses ++ [{ status := .ioFailure, val := 0 }] }) ∧
    (s.reader.ioFault = false → s.reader.eos = true →
      exec i s = .next { s with responses := s.responses ++ [{ status := .endOfStream, val := 0 }] }) ∧
    (s.reader.ioFault = false → s.reader.eos = false → s.reader.closed = true →
      exec i s = .next { s with responses := s.responses ++ [{ status := .streamClosed, val := 0 }] })

/-- 41 R120, R123: RBIT on an open reader returns the next bit of the stream, whatever R_BUFSZ is and whatever the source
chooses to deliver. -/
def Obligations.RbitReturnsTheNextBit : Prop :=
  ∀ (s : State) (b : Bool) (more : List Bool), ReaderOk s → s.reader.ioFault = false → s.reader.eos = false →
    s.reader.closed = false → sourceReady 1 s → pendingBits s = b :: more →
      ∃ t, exec .rbit s = .next t ∧ pendingBits t = more ∧ t.reader.count = s.reader.count + 1 ∧
        ReaderOk t ∧ t.reader.ioFault = false ∧ t.reader.eos = false ∧ t.reader.closed = false ∧
        t.responses = s.responses ++ [{ status := .ok, val := if b then 1 else 0 }]

/-- 41 R124, R129: RBITS on an open reader returns the next `a` bits as a number, the first bit most significant,
zero-extended, whatever R_BUFSZ is and whatever counts the source delivers. -/
def Obligations.RbitsReturnsTheNextBits : Prop :=
  ∀ (a : BitVec 8) (s : State), ReaderOk s → s.reader.ioFault = false → s.reader.eos = false →
    s.reader.closed = false → 1 ≤ a.toNat → a.toNat ≤ 64 → sourceReady 8 s → a.toNat ≤ (pendingBits s).length →
      ∃ t, exec (.rbits a) s = .next t ∧ pendingBits t = (pendingBits s).drop a.toNat ∧
        t.reader.count = s.reader.count + BitVec.ofNat 64 a.toNat ∧ ReaderOk t ∧
        t.reader.ioFault = false ∧ t.reader.eos = false ∧ t.reader.closed = false ∧
        t.responses = s.responses ++
          [{ status := .ok, val := BitVec.ofNat 64 (ofBits ((pendingBits s).take a.toNat)) }]

/-- 41 R127, R123, 42 R143, 60 R227: RBIT, RBITS and EGDEC that need more bits than are left, the source answering, are
END_OF_STREAM with value 0; R_EOS is set, the writer and LZ units stay as they are. EGDEC runs off the end inside its zeros,
inside its remainder, or before the sign of a magnitude that is neither 0 nor out of range. That R_CLOSED stays as it is is
the model's reading (log entry 4). -/
def Obligations.ReadingPastTheEndIsCaught : Prop :=
  ∀ (s : State), ReaderOk s → s.reader.ioFault = false → s.reader.eos = false → s.reader.closed = false →
    (pendingBits s = [] → sourceReady 1 s → ∃ t, exec .rbit s = .next t ∧ RanOffTheEnd s t) ∧
    (∀ a : BitVec 8, a.toNat ≤ 64 → sourceReady 9 s → (pendingBits s).length < a.toNat →
      ∃ t, exec (.rbits a) s = .next t ∧ RanOffTheEnd s t) ∧
    (∀ (n : Nat) (r : List Bool), n ≤ 8 → sourceReady 3 s →
      (pendingBits s = List.replicate n false ∨
        pendingBits s = List.replicate n false ++ [true] ++ r ∧
          (r.length < n ∨ s.cfg.egdSigned = true ∧ 1 ≤ n ∧ r.length = n ∧ (n = 8 → true ∉ r))) →
        ∃ t, exec .egdec s = .next t ∧ RanOffTheEnd s t)

/-- 41 R125: RCLOSE of an open reader, the source answering, also after R_EOS: the source is closed, R_CLOSED is set, the
rest of the reader is as before. -/
def Obligations.RcloseClosesTheSource : Prop :=
  ∀ (s : State), s.reader.ioFault = false → s.reader.closed = false → sourceReady 1 s →
    exec .rclose s = .next { s with
      reader := { s.reader with closed := true }
      source := { s.source with closed := true }
      env := { s.env with sourceScript := s.env.sourceScript.drop 1 }
      responses := s.responses ++ [{ status := .ok, val := 0 }] }

/-- 41 R121, R128, 60 R222, 10 R26: a command of the reader's side on a reader with no I/O fault ends with R_IOFAULT set
exactly when it answers IO_FAILURE; the source's bytes stay as they are and none is handed out twice. A command that meets a
failing answer of the source ends there, with IO_FAILURE and no retry, the writer and the LZ units as they are: RCLOSE at its
SourceClose, RBIT, RBITS and EGDEC of an empty buffer at their first SourceRead, RBITS of more bits than the buffer holds at
the SourceRead it needs. That the answers are a list in State is the model's choice (log entry 2). -/
def Obligations.SourceFailureIsRecorded : Prop :=
  (∀ (i : Instr) (s t : State), readerCommand i = true → s.reader.ioFault = false → exec i s = .next t →
    (t.reader.ioFault = true ↔ t.responses = s.responses ++ [{ status := .ioFailure, val := 0 }]) ∧
    t.source.bytes = s.source.bytes ∧ s.source.next ≤ t.source.next) ∧
  (∀ (i : Instr) (s t : State) (used : List Config.SourceAnswer), readerCommand i = true → s.reader.ioFault = false →
    exec i s = .next t → s.env.sourceScript = used ++ t.env.sourceScript → (∃ k, .fail k ∈ used) →
      ReadFailed s t ∧ ∃ before k, used = before ++ [.fail k] ∧ before.all delivers = true) ∧
  (∀ (s : State) (k : Nat) (rest : List Config.SourceAnswer), s.reader.ioFault = false → s.reader.closed = false →
    s.env.sourceScript = .fail k :: rest →
      (∃ t, exec .rclose s = .next t ∧ ReadFailed s t) ∧
      (s.reader.eos = false → s.reader.pos = s.reader.fill → ∀ i, readCommand i = true →
        (∀ a, i = .rbits a → 1 ≤ a.toNat ∧ a.toNat ≤ 64) → ∃ t, exec i s = .next t ∧ ReadFailed s t) ∧
      (s.reader.eos = false → ReaderOk s → ∀ a : BitVec 8, a.toNat ≤ 64 →
        8 * (s.reader.fill - s.reader.pos) < a.toNat + (7 - s.reader.bit.toNat) →
          ∃ t, exec (.rbits a) s = .next t ∧ ReadFailed s t))

/-- 41 R126: RCOUNT answers R_COUNT, and after a reader fault OK with a value nothing is said of; it changes nothing (but
the counter the free value is drawn at, which is the model's own). -/
def Obligations.RcountReturnsTheCount : Prop :=
  ∀ (s : State),
    (s.reader.ioFault = false → s.reader.eos = false →
      exec .rcount s = .next { s with responses := s.responses ++ [{ status := .ok, val := s.reader.count }] }) ∧
    ((s.reader.ioFault = true ∨ s.reader.eos = true) →
      ∃ (v : Word64) (n : Nat), exec .rcount s = .next { s with
        env := { s.env with draws := n }
        responses := s.responses ++ [{ status := .ok, val := v }] })

/-- 10 R16, 41 R129: from every state that has it, a step leaves the reader's invariant true. -/
def Obligations.StepsKeepTheReaderInvariant : Prop :=
  ∀ s t : State, ReaderInv s → step s = .next t → ReaderInv t

/-- 40 R111: the fields WBITS writes, up to WCLOSE, are what RBITS of the same lengths reads from a source that delivers the
sink's bytes: each value masked to its length, in order. -/
def Obligations.WrittenFieldsAreReadBack : Prop :=
  ∀ (fields : List (BitVec 8 × Word64)) (s t u : State), (∀ f ∈ fields, 1 ≤ f.1.toNat ∧ f.1.toNat ≤ 64) →
    WriterOk s → s.writer.ioFault = false → s.writer.closed = false → writtenBits s = [] →
    sinkReady (16 * fields.length + 20) s →
    execAll (fields.map (fun f => .wbits f.1 f.2) ++ [.wclose]) s = .next t →
    ReaderOk u → u.reader.ioFault = false → u.reader.eos = false → u.reader.closed = false →
    pendingBits u = t.sink.bytes.flatMap byteBits → sourceReady (8 * fields.length) u →
      ∃ w, execAll (fields.map (fun f => .rbits f.1)) u = .next w ∧
        w.responses = u.responses ++ fields.map (fun f =>
          { status := .ok, val := BitVec.ofNat 64 (f.2.toNat % 2 ^ f.1.toNat) })

/-! ### Exp-Golomb -/

/-- 42 R142, 30 R72: EGENC of a symbol of the mode's domain, the sink answering, adds its code to the stream: N zeros, a
one, the N bits of the remainder, and in signed mode a sign bit unless the magnitude is 0. -/
def Obligations.EgencAppendsTheCode : Prop :=
  ∀ (v : Word64) (n : Nat) (s : State), WriterOk s → s.writer.ioFault = false → s.writer.closed = false →
    v.toInt.natAbs ≤ 255 → (s.cfg.egeSigned = false → 0 ≤ v.toInt) → sinkReady 6 s →
    2 ^ n - 1 ≤ v.toInt.natAbs → v.toInt.natAbs ≤ 2 ^ (n + 1) - 2 →
      ∃ t, exec (.egenc v) s = .next t ∧
        writtenBits t = writtenBits s ++ List.replicate n false ++ [true] ++
          (List.range n).reverse.map (fun i => (v.toInt.natAbs - (2 ^ n - 1)).testBit i) ++
          (if s.cfg.egeSigned = true ∧ v.toInt ≠ 0 then [decide (v.toInt < 0)] else []) ∧
        WriterOk t ∧ t.writer.ioFault = false ∧ t.writer.closed = false ∧
        t.responses = s.responses ++ [{ status := .ok, val := 0 }]

/-- 42 R143, R145, R147: EGDEC on a stream that goes on with the code of a symbol returns the symbol in two's complement and
consumes exactly the code. -/
def Obligations.EgdecReturnsTheSymbol : Prop :=
  ∀ (v : Word64) (n : Nat) (more : List Bool) (s : State), ReaderOk s → s.reader.ioFault = false →
    s.reader.eos = false → s.reader.closed = false → sourceReady 3 s →
    v.toInt.natAbs ≤ 255 → (s.cfg.egdSigned = false → 0 ≤ v.toInt) →
    2 ^ n - 1 ≤ v.toInt.natAbs → v.toInt.natAbs ≤ 2 ^ (n + 1) - 2 →
    pendingBits s = List.replicate n false ++ [true] ++
        (List.range n).reverse.map (fun i => (v.toInt.natAbs - (2 ^ n - 1)).testBit i) ++
        (if s.cfg.egdSigned = true ∧ v.toInt ≠ 0 then [decide (v.toInt < 0)] else []) ++ more →
      ∃ t, exec .egdec s = .next t ∧ pendingBits t = more ∧ ReaderOk t ∧ t.egRangeSeen = s.egRangeSeen ∧
        t.reader.ioFault = false ∧ t.reader.eos = false ∧ t.reader.closed = false ∧
        t.responses = s.responses ++ [{ status := .ok, val := v }]

/-- 42 R144, 60 R228: nine zeros, or a code of magnitude above 255, are EG_RANGE with value 0; nine bits are consumed in the
first case and seventeen in the second; EG_RANGE_SEEN is set and the reader is not faulted. -/
def Obligations.EgdecStopsOutOfRange : Prop :=
  ∀ (s : State) (more : List Bool), ReaderOk s → s.reader.ioFault = false → s.reader.eos = false →
    s.reader.closed = false → sourceReady 3 s →
      (pendingBits s = List.replicate 9 false ++ more ∨
        ∃ r : List Bool, r.length = 8 ∧ true ∈ r ∧
          pendingBits s = List.replicate 8 false ++ [true] ++ r ++ more) →
        ∃ t, exec .egdec s = .next t ∧ pendingBits t = more ∧ t.egRangeSeen = true ∧ ReaderOk t ∧
          t.reader.ioFault = false ∧ t.reader.eos = false ∧ t.reader.closed = false ∧
          t.responses = s.responses ++ [{ status := .egRange, val := 0 }]

/-- 30 R72, R73, 42 R143: what the decoder does with each of the eighteen codes once it is read: it answers the symbol of
the code, magnitude 2^N - 1 plus the remainder, negative where the sign bit is 1, and nothing else changes. That a code is
run as an instruction of its own is the model's choice (log entry 12). -/
def Obligations.CodesReturnTheirSymbols : Prop :=
  ∀ (s : State),
    let answer (v : Word64) : Host.Outcome State Fault Refusal :=
      .next { s with responses := s.responses ++ [{ status := .ok, val := v }] }
    let signed (neg : Bool) (m : Word64) : Word64 := if neg then -m else m
    exec .eguN0 s = answer 0 ∧
    (∀ x, exec (.eguN1 x) s = answer (1 + x.setWidth 64)) ∧
    (∀ x, exec (.eguN2 x) s = answer (3 + x.setWidth 64)) ∧
    (∀ x, exec (.eguN3 x) s = answer (7 + x.setWidth 64)) ∧
    (∀ x, exec (.eguN4 x) s = answer (15 + x.setWidth 64)) ∧
    (∀ x, exec (.eguN5 x) s = answer (31 + x.setWidth 64)) ∧
    (∀ x, exec (.eguN6 x) s = answer (63 + x.setWidth 64)) ∧
    (∀ x, exec (.eguN7 x) s = answer (127 + x.setWidth 64)) ∧
    exec .eguN8 s = answer 255 ∧
    exec .egsN0 s = answer 0 ∧
    (∀ x neg, exec (.egsN1 x neg) s = answer (signed neg (1 + x.setWidth 64))) ∧
    (∀ x neg, exec (.egsN2 x neg) s = answer (signed neg (3 + x.setWidth 64))) ∧
    (∀ x neg, exec (.egsN3 x neg) s = answer (signed neg (7 + x.setWidth 64))) ∧
    (∀ x neg, exec (.egsN4 x neg) s = answer (signed neg (15 + x.setWidth 64))) ∧
    (∀ x neg, exec (.egsN5 x neg) s = answer (signed neg (31 + x.setWidth 64))) ∧
    (∀ x neg, exec (.egsN6 x neg) s = answer (signed neg (63 + x.setWidth 64))) ∧
    (∀ x neg, exec (.egsN7 x neg) s = answer (signed neg (127 + x.setWidth 64))) ∧
    (∀ neg, exec (.egsN8 neg) s = answer (signed neg 255))

/-- 42 R146: no code is a prefix of another, in either mode: of two symbols of the domain, one's code begins the other's
only if they are the same symbol. -/
def Obligations.CodesArePrefixFree : Prop :=
  ∀ (signed : Bool) (v w : Word64), symbolOk signed v = true → symbolOk signed w = true →
    symbolBits signed v <+: symbolBits signed w → v = w

/-! ### LZ77 forward -/

/-- 43 R160: LZMAX. -/
def Obligations.LzmaxReturnsTheBound : Prop :=
  ∀ (v : Word64) (s : State),
    (v.toNat ≤ 2 ^ 31 - 1 →
      exec (.lzmax v) s = .next { s with
        responses := s.responses ++ [{ status := .ok, val := v + v / 255 + 16 }] }) ∧
    (2 ^ 31 - 1 < v.toNat →
      exec (.lzmax v) s = .next { s with
        responses := s.responses ++ [{ status := .invalidArgument, val := 0 }] })

/-- 43 R161, R162, 44 R190, 60 R230: LZFWD and LZINV of a span above MAX_SPAN or outside the source view are INVALID_ARGUMENT
whatever the room; LZFWD of a legal span with less room than the bound is INSUFFICIENT_CAPACITY. Nothing changes. -/
def Obligations.LzOperandsAreChecked : Prop :=
  ∀ (v : Word64) (s : State),
    (2 ^ 31 - 1 < v.toNat ∨ s.srcLen.toNat < s.srcPos.toNat + v.toNat →
      exec (.lzfwd v) s = .next { s with
        responses := s.responses ++ [{ status := .invalidArgument, val := 0 }] } ∧
      exec (.lzinv v) s = .next { s with
        responses := s.responses ++ [{ status := .invalidArgument, val := 0 }] }) ∧
    (v.toNat ≤ 2 ^ 31 - 1 → s.srcPos.toNat + v.toNat ≤ s.srcLen.toNat →
      s.dstLen.toNat - s.dstPos.toNat < v.toNat + v.toNat / 255 + 16 →
        exec (.lzfwd v) s = .next { s with
          responses := s.responses ++ [{ status := .insufficientCapacity, val := 0 }] })

/-- 43 R163, R179: a span of at most 13 bytes is one literal run: the token n << 4 and the n bytes; HT is neither cleared
nor read. -/
def Obligations.LzfwdEmitsAShortInputAsLiterals : Prop :=
  ∀ (v : Word64) (span : List Byte) (s : State), v.toNat ≤ 13 → s.srcPos.toNat + v.toNat ≤ s.srcLen.toNat →
    v.toNat + 16 ≤ s.dstLen.toNat - s.dstPos.toNat →
    memReadBytes s.src s.srcPos.toNat v.toNat = some span →
      ∃ t, exec (.lzfwd v) s = .next t ∧
        memReadBytes t.dst s.dstPos.toNat (v.toNat + 1) = some (BitVec.ofNat 8 (v.toNat * 16) :: span) ∧
        t.ht = s.ht ∧ t.srcPos.toNat = s.srcPos.toNat + v.toNat ∧
        t.dstPos.toNat = s.dstPos.toNat + v.toNat + 1 ∧
        t.responses = s.responses ++ [{ status := .ok, val := v + 1 }]

/-- 43 R178, R179: LZFWD of a written span with the room of the bound completes: DST from DST_POS holds the block, every
other byte of DST, all of SRC, the lengths and the bit-stream units are as before, the cursors advance, the response is
the block's length. -/
def Obligations.LzfwdWritesTheBlock : Prop :=
  ∀ (v : Word64) (span : List Byte) (s : State), v.toNat ≤ 2 ^ 31 - 1 →
    s.srcPos.toNat + v.toNat ≤ s.srcLen.toNat →
    v.toNat + v.toNat / 255 + 16 ≤ s.dstLen.toNat - s.dstPos.toNat →
    memReadBytes s.src s.srcPos.toNat v.toNat = some span →
      let block := (encodeBlock span s.ht).1
      ∃ t, exec (.lzfwd v) s = .next t ∧
        memReadBytes t.dst s.dstPos.toNat block.length = some block ∧
        (∀ a, a < s.dstPos.toNat ∨ s.dstPos.toNat + block.length ≤ a → hostReadDst t a = hostReadDst s a) ∧
        t.srcPos.toNat = s.srcPos.toNat + v.toNat ∧ t.dstPos.toNat = s.dstPos.toNat + block.length ∧
        (∀ a, hostReadSrc t a = hostReadSrc s a) ∧ t.srcLen = s.srcLen ∧ t.dstLen = s.dstLen ∧
        t.cfg = s.cfg ∧ t.lzi = s.lzi ∧ t.inbox = s.inbox ∧ SameStreams s t ∧
        t.responses = s.responses ++ [{ status := .ok, val := BitVec.ofNat 64 block.length }]

/-- 43 R180 (b), 30 R84: a block is never longer than the bound, whatever the hash table held. -/
def Obligations.BlocksKeepTheSizeBound : Prop :=
  ∀ (span : List Byte) (t : HashTable),
    (encodeBlock span t).1.length ≤ span.length + span.length / 255 + 16

/-- 43 R180 (c), 10 R27 (a): LZFWD's block is a function of the span's bytes alone: two machines whose spans hold the same
bytes answer the same value and write the same block, whatever their hash tables, memories and streams hold. -/
def Obligations.LzfwdDependsOnTheSpanOnly : Prop :=
  ∀ (v : Word64) (s s' t t' : State),
    memReadBytes s.src s.srcPos.toNat v.toNat = memReadBytes s'.src s'.srcPos.toNat v.toNat →
    v.toNat ≤ 2 ^ 31 - 1 →
    s.srcPos.toNat + v.toNat ≤ s.srcLen.toNat → s'.srcPos.toNat + v.toNat ≤ s'.srcLen.toNat →
    v.toNat + v.toNat / 255 + 16 ≤ s.dstLen.toNat - s.dstPos.toNat →
    v.toNat + v.toNat / 255 + 16 ≤ s'.dstLen.toNat - s'.dstPos.toNat →
    exec (.lzfwd v) s = .next t → exec (.lzfwd v) s' = .next t' →
      ∃ k : Nat, t.dstPos.toNat = s.dstPos.toNat + k ∧ t'.dstPos.toNat = s'.dstPos.toNat + k ∧
        memReadBytes t.dst s.dstPos.toNat k = memReadBytes t'.dst s'.dstPos.toNat k ∧
        t.responses = s.responses ++ [{ status := .ok, val := BitVec.ofNat 64 k }] ∧
        t'.responses = s'.responses ++ [{ status := .ok, val := BitVec.ofNat 64 k }]

/-- 20 R57, 60 R229, 43 R178, 44 R197: an LZ command that reads a byte of its span that nothing has written stops with
UNINIT. LZFWD with legal operands and room stops so exactly when some byte of the span was never written (that it reads the
whole span: log entry 18). LZINV of a legal span stops so at an unwritten first byte, and at any element a byte of which is
unwritten; it stops so only where some byte of the span is unwritten, and ends with a status only if every byte it took
was written. That the fault leaves no state is the model's choice (log entry 7), and the steps inside LZINV (log entry 11). -/
def Obligations.LzCommandsFaultOnUnwrittenBytes : Prop :=
  (∀ (v : Word64) (s : State), v.toNat ≤ 2 ^ 31 - 1 → s.srcPos.toNat + v.toNat ≤ s.srcLen.toNat →
    v.toNat + v.toNat / 255 + 16 ≤ s.dstLen.toNat - s.dstPos.toNat →
      (exec (.lzfwd v) s = .fault .uninit ↔
        ∃ i < v.toNat, hostReadSrc s (s.srcPos.toNat + i) = none)) ∧
  (∀ (v : Word64) (s : State), v.toNat ≤ 2 ^ 31 - 1 → s.srcPos.toNat + v.toNat ≤ s.srcLen.toNat →
    (1 ≤ v.toNat → hostReadSrc s s.srcPos.toNat = none → exec (.lzinv v) s = .fault .uninit) ∧
    (exec (.lzinv v) s = .fault .uninit → ∃ i < v.toNat, hostReadSrc s (s.srcPos.toNat + i) = none) ∧
    (∀ t, exec (.lzinv v) s = .next t →
      ∀ i < t.srcPos.toNat - s.srcPos.toNat, hostReadSrc s (s.srcPos.toNat + i) ≠ none)) ∧
  (∀ (sEnd d0 : Nat) (phase : LziPhase) (s : State), s.lzi = .active sEnd d0 phase →
    (hostReadSrc s s.srcPos.toNat = none ∨
      (∃ mat, phase = .dist mat) ∧ hostReadSrc s (s.srcPos + 1).toNat = none) →
      step s = .fault .uninit)

/-! ### LZ77 inverse -/

/-- 44 R197, R192, R193, 30 R76, R77, R81: LZINV of a block that is one literal-only sequence, of any length, writes the
literals and returns their number. -/
def Obligations.LzinvExpandsALiteralRun : Prop :=
  ∀ (v : Word64) (lits : List Byte) (s : State), v.toNat ≤ 2 ^ 31 - 1 →
    s.srcPos.toNat + v.toNat ≤ s.srcLen.toNat → s.dstPos.toNat + lits.length ≤ s.dstLen.toNat →
    memReadBytes s.src s.srcPos.toNat v.toNat = some (lastSequenceBytes lits) →
      ∃ t, exec (.lzinv v) s = .next t ∧
        memReadBytes t.dst s.dstPos.toNat lits.length = some lits ∧
        t.srcPos.toNat = s.srcPos.toNat + v.toNat ∧ t.dstPos.toNat = s.dstPos.toNat + lits.length ∧
        t.lzi = .idle ∧
        t.responses = s.responses ++ [{ status := .ok, val := BitVec.ofNat 64 lits.length }]

/-- 44 R196, R194, R197, 30 R79, R80: LZINV of a block that is one sequence with a match (it may end there, R193) writes the
literals and then each byte of the match as the byte `dist` before it, also where the copy overlaps itself. -/
def Obligations.LzinvRepeatsTheMatch : Prop :=
  ∀ (v : Word64) (lits : List Byte) (dist x : Nat) (s : State), v.toNat ≤ 2 ^ 31 - 1 →
    s.srcPos.toNat + v.toNat ≤ s.srcLen.toNat → 1 ≤ dist → dist ≤ 65535 → dist ≤ lits.length →
    s.dstPos.toNat + lits.length + (x + 4) ≤ s.dstLen.toNat →
    memReadBytes s.src s.srcPos.toNat v.toNat = some (sequenceBytes lits dist x) →
      ∃ t, exec (.lzinv v) s = .next t ∧
        memReadBytes t.dst s.dstPos.toNat lits.length = some lits ∧
        (∀ i < x + 4, hostReadDst t (s.dstPos.toNat + lits.length + i) =
          hostReadDst t (s.dstPos.toNat + lits.length + i - dist)) ∧
        t.dstPos.toNat = s.dstPos.toNat + lits.length + (x + 4) ∧ t.lzi = .idle ∧
        t.responses = s.responses ++
          [{ status := .ok, val := BitVec.ofNat 64 (lits.length + (x + 4)) }]

/-- 44 R199 (b), R198, 60 R233: LZINV of a written span always ends, with OK and the span consumed or with CORRUPT_INPUT, and
leaves no decoding behind; the write cursor only moves forward and not beyond the view. -/
def Obligations.LzinvAlwaysEnds : Prop :=
  ∀ (v : Word64) (span : List Byte) (s : State), v.toNat ≤ 2 ^ 31 - 1 →
    s.srcPos.toNat + v.toNat ≤ s.srcLen.toNat →
    memReadBytes s.src s.srcPos.toNat v.toNat = some span →
      ∃ t, exec (.lzinv v) s = .next t ∧ t.lzi = .idle ∧
        s.dstPos.toNat ≤ t.dstPos.toNat ∧ (t.dstPos = s.dstPos ∨ t.dstPos.toNat ≤ s.dstLen.toNat) ∧
        s.srcPos.toNat ≤ t.srcPos.toNat ∧ t.srcPos.toNat ≤ s.srcPos.toNat + v.toNat ∧
        ((t.responses = s.responses ++
              [{ status := .ok, val := BitVec.ofNat 64 (t.dstPos.toNat - s.dstPos.toNat) }] ∧
            t.srcPos.toNat = s.srcPos.toNat + v.toNat) ∨
          t.responses = s.responses ++ [{ status := .corruptInput, val := 0 }])

/-- 44 R199 (c), (d), R198, 20 R42: what LZINV leaves unchanged whenever it gives a next state: DST outside the bytes from
the old DST_POS to the new, all of SRC, the lengths, HT, the bit-stream units, the sink and the source. -/
def Obligations.LzinvChangesOnlyItsOutput : Prop :=
  ∀ (v : Word64) (s t : State), exec (.lzinv v) s = .next t →
    (∀ a, a < s.dstPos.toNat ∨ t.dstPos.toNat ≤ a → hostReadDst t a = hostReadDst s a) ∧
    (∀ a, hostReadSrc t a = hostReadSrc s a) ∧ t.srcLen = s.srcLen ∧ t.dstLen = s.dstLen ∧ t.ht = s.ht ∧
    t.cfg = s.cfg ∧ t.inbox = s.inbox ∧ SameStreams s t

/-- 43 R180 (a), 44 R199 (a): expanding the block LZFWD made, on any machine that holds it in its source span and has room
for the original, answers OK with the original length and writes the original bytes. -/
def Obligations.ExpandingABlockGivesTheInputBack : Prop :=
  ∀ (v k : Word64) (span block : List Byte) (s t u : State),
    memReadBytes s.src s.srcPos.toNat v.toNat = some span →
    exec (.lzfwd v) s = .next t → t.responses = s.responses ++ [{ status := .ok, val := k }] →
    memReadBytes t.dst s.dstPos.toNat k.toNat = some block →
    k.toNat ≤ 2 ^ 31 - 1 → u.srcPos.toNat + k.toNat ≤ u.srcLen.toNat →
    memReadBytes u.src u.srcPos.toNat k.toNat = some block →
    u.dstPos.toNat + span.length ≤ u.dstLen.toNat →
      ∃ w, exec (.lzinv k) u = .next w ∧
        memReadBytes w.dst u.dstPos.toNat span.length = some span ∧
        w.responses = u.responses ++ [{ status := .ok, val := BitVec.ofNat 64 span.length }]

/-- 44 R197, 30 R83: LZINV is its elements run one after another: started at the span and stepped, the machine comes in at
most as many steps as the span has bytes to what LZINV comes to at once. That the machine can stand inside LZINV is the
model's own (log entry 11). -/
def Obligations.LzinvIsItsElements : Prop :=
  ∀ (v : Word64) (s : State), 1 ≤ v.toNat → v.toNat ≤ 2 ^ 31 - 1 →
    s.srcPos.toNat + v.toNat ≤ s.srcLen.toNat →
      ∃ k ≤ v.toNat, exec (.lzinv v) s =
        core.run k { s with lzi := .active (s.srcPos.toNat + v.toNat) s.dstPos.toNat .token }

/-! ### The elements of a block, where LZINV stands before them (log entry 11) -/

/-- 30 R75, 44 R192, R193, R195: a token at its place, LZINV's cursors past it. High nibble 15: the extension comes next, if the
span goes on. A lower one: literals that do not fit the span or the view are CORRUPT_INPUT; else they come next; with none,
the command ends where the span does, one byte left is CORRUPT_INPUT, and with two or more the distance comes next. -/
def Obligations.TokensOpenASequence : Prop :=
  ∀ (lit mat : BitVec 4) (sEnd d0 : Nat) (s : State), s.lzi = .active sEnd d0 .token →
    let corrupt : Host.Outcome State Fault Refusal := .next { s with
      lzi := .idle, responses := s.responses ++ [{ status := .corruptInput, val := 0 }] }
    (lit = 15 → s.srcPos.toNat < sEnd →
      exec (.lzToken lit mat) s = .next { s with lzi := .active sEnd d0 (.litExt 15 mat.toNat) }) ∧
    (lit = 15 → sEnd ≤ s.srcPos.toNat → exec (.lzToken lit mat) s = corrupt) ∧
    (lit ≠ 15 → (sEnd < s.srcPos.toNat + lit.toNat ∨ s.dstLen.toNat < s.dstPos.toNat + lit.toNat) →
      exec (.lzToken lit mat) s = corrupt) ∧
    (lit ≠ 15 → lit ≠ 0 → s.srcPos.toNat + lit.toNat ≤ sEnd → s.dstPos.toNat + lit.toNat ≤ s.dstLen.toNat →
      exec (.lzToken lit mat) s =
        .next { s with lzi := .active sEnd d0 (.literals lit.toNat mat.toNat) }) ∧
    (lit = 0 → s.srcPos.toNat = sEnd → s.dstPos.toNat ≤ s.dstLen.toNat →
      exec (.lzToken lit mat) s = .next { s with
        lzi := .idle
        responses := s.responses ++ [{ status := .ok, val := BitVec.ofNat 64 (s.dstPos.toNat - d0) }] }) ∧
    (lit = 0 → s.srcPos.toNat + 1 = sEnd → exec (.lzToken lit mat) s = corrupt) ∧
    (lit = 0 → s.srcPos.toNat + 2 ≤ sEnd → s.dstPos.toNat ≤ s.dstLen.toNat →
      exec (.lzToken lit mat) s = .next { s with lzi := .active sEnd d0 (.dist mat.toNat) })

/-- 30 R77, 44 R191, R194, R196: a byte of a length extension at its place is added to the length; 0xFF says that another
follows, and then the span must go on; any other byte ends the extension. After the literals' extension the literals come
next, if they fit; after the match's the match of that length plus 4 is copied, if it fits. -/
def Obligations.ExtensionBytesAddUp : Prop :=
  ∀ (e : Byte) (sEnd d0 : Nat) (s : State),
    let corrupt : Host.Outcome State Fault Refusal := .next { s with
      lzi := .idle, responses := s.responses ++ [{ status := .corruptInput, val := 0 }] }
    (∀ len mat, s.lzi = .active sEnd d0 (.litExt len mat) →
      (e = 0xFF → s.srcPos.toNat < sEnd →
        exec (.lzLenExt e) s = .next { s with lzi := .active sEnd d0 (.litExt (len + 255) mat) }) ∧
      (e = 0xFF → sEnd ≤ s.srcPos.toNat → exec (.lzLenExt e) s = corrupt) ∧
      (e ≠ 0xFF → 0 < len + e.toNat → s.srcPos.toNat + (len + e.toNat) ≤ sEnd →
        s.dstPos.toNat + (len + e.toNat) ≤ s.dstLen.toNat →
          exec (.lzLenExt e) s =
            .next { s with lzi := .active sEnd d0 (.literals (len + e.toNat) mat) }) ∧
      (e ≠ 0xFF → (sEnd < s.srcPos.toNat + (len + e.toNat) ∨
          s.dstLen.toNat < s.dstPos.toNat + (len + e.toNat)) →
        exec (.lzLenExt e) s = corrupt)) ∧
    (∀ dist len, s.lzi = .active sEnd d0 (.matchExt dist len) →
      (e = 0xFF → s.srcPos.toNat < sEnd →
        exec (.lzLenExt e) s = .next { s with lzi := .active sEnd d0 (.matchExt dist (len + 255)) }) ∧
      (e = 0xFF → sEnd ≤ s.srcPos.toNat → exec (.lzLenExt e) s = corrupt) ∧
      (e ≠ 0xFF → (dist = 0 ∨ s.dstPos.toNat - d0 < dist ∨
          s.dstLen.toNat < s.dstPos.toNat + (len + e.toNat + 4)) →
        exec (.lzLenExt e) s = corrupt) ∧
      (e ≠ 0xFF → dist ≠ 0 → dist ≤ s.dstPos.toNat - d0 →
        s.dstPos.toNat + (len + e.toNat + 4) ≤ s.dstLen.toNat →
        (∀ a, d0 ≤ a → a < s.dstPos.toNat → hostReadDst s a ≠ none) → s.srcPos.toNat ≤ sEnd →
          ∃ t, exec (.lzLenExt e) s = .next t ∧ MatchCopied sEnd d0 dist (len + e.toNat + 4) s t))

/-- 30 R78, 44 R192, R193, R195 (d): a literal at its place is copied verbatim to DST at the write cursor, which moves on by
one; every other byte of DST is as before. After the last literal the command ends where the span does, one byte left is
CORRUPT_INPUT, and with two or more the distance comes next. -/
def Obligations.LiteralsAreCopied : Prop :=
  ∀ (b : Byte) (sEnd d0 left mat : Nat) (s : State), s.lzi = .active sEnd d0 (.literals left mat) →
    s.dstPos.toNat < s.dstLen.toNat → s.srcPos.toNat ≤ sEnd → 1 ≤ left →
      ∃ t, exec (.lzLiteral b) s = .next t ∧ t.dstPos.toNat = s.dstPos.toNat + 1 ∧
        hostReadDst t s.dstPos.toNat = some b ∧
        (∀ a, a ≠ s.dstPos.toNat → hostReadDst t a = hostReadDst s a) ∧ SameButOutput s t ∧
        t.lzi =
          (if 2 ≤ left then .active sEnd d0 (.literals (left - 1) mat)
            else if s.srcPos.toNat + 2 ≤ sEnd then .active sEnd d0 (.dist mat) else .idle) ∧
        t.responses = s.responses ++
          (if 2 ≤ left ∨ s.srcPos.toNat + 2 ≤ sEnd then []
            else if s.srcPos.toNat = sEnd then
              [{ status := .ok, val := BitVec.ofNat 64 (s.dstPos.toNat + 1 - d0) }]
            else [{ status := .corruptInput, val := 0 }])

/-- 30 R79, R80, 44 R194, R195 (a), (e) to (g), R196: a distance at its place. Low nibble of the token 15: the extension comes
next, if the span goes on. A lower one: distance 0, a distance reaching before the command's first byte, or a match that does
not fit is CORRUPT_INPUT; else the match of nibble plus 4 bytes is copied. -/
def Obligations.DistancesCopyTheMatch : Prop :=
  ∀ (d : BitVec 16) (sEnd d0 mat : Nat) (s : State), s.lzi = .active sEnd d0 (.dist mat) →
    let corrupt : Host.Outcome State Fault Refusal := .next { s with
      lzi := .idle, responses := s.responses ++ [{ status := .corruptInput, val := 0 }] }
    (mat = 15 → s.srcPos.toNat < sEnd →
      exec (.lzDist16 d) s = .next { s with lzi := .active sEnd d0 (.matchExt d.toNat 15) }) ∧
    (mat = 15 → sEnd ≤ s.srcPos.toNat → exec (.lzDist16 d) s = corrupt) ∧
    (mat < 15 → (d = 0 ∨ s.dstPos.toNat - d0 < d.toNat ∨ s.dstLen.toNat < s.dstPos.toNat + (mat + 4)) →
      exec (.lzDist16 d) s = corrupt) ∧
    (mat < 15 → d ≠ 0 → d.toNat ≤ s.dstPos.toNat - d0 → s.dstPos.toNat + (mat + 4) ≤ s.dstLen.toNat →
      (∀ a, d0 ≤ a → a < s.dstPos.toNat → hostReadDst s a ≠ none) → s.srcPos.toNat ≤ sEnd →
        ∃ t, exec (.lzDist16 d) s = .next t ∧ MatchCopied sEnd d0 d.toNat (mat + 4) s t)

/-- 30 R83: where an element stops, all of it the model's choice. Run at a place at which LZINV does not stand before such an
element it is refused by name (log entry 11: R83 gives an element its meaning by its place). A match whose first byte of DST
nothing has written is the model fault UNINIT (log entry 7: a byte nothing has written has no value; 20 R57 says that LZINV
never reads such a byte, and in a command it does not). -/
def Obligations.ElementsStopOutOfPlace : Prop :=
  (∀ (s : State) (lit mat : BitVec 4), (∀ sEnd d0, s.lzi ≠ .active sEnd d0 .token) →
    exec (.lzToken lit mat) s = .refused .wireOutOfPlace) ∧
  (∀ (s : State) (e : Byte), (∀ sEnd d0 len mat, s.lzi ≠ .active sEnd d0 (.litExt len mat)) →
    (∀ sEnd d0 dist len, s.lzi ≠ .active sEnd d0 (.matchExt dist len)) →
      exec (.lzLenExt e) s = .refused .wireOutOfPlace) ∧
  (∀ (s : State) (b : Byte), (∀ sEnd d0 left mat, s.lzi ≠ .active sEnd d0 (.literals left mat)) →
    exec (.lzLiteral b) s = .refused .wireOutOfPlace) ∧
  (∀ (s : State) (d : BitVec 16), (∀ sEnd d0 mat, s.lzi ≠ .active sEnd d0 (.dist mat)) →
    exec (.lzDist16 d) s = .refused .wireOutOfPlace) ∧
  (∀ (s : State) (d : BitVec 16) (sEnd d0 mat : Nat), s.lzi = .active sEnd d0 (.dist mat) → mat < 15 →
    d ≠ 0 → d.toNat ≤ s.dstPos.toNat - d0 → s.dstPos.toNat + (mat + 4) ≤ s.dstLen.toNat →
    hostReadDst s (s.dstPos.toNat - d.toNat) = none → exec (.lzDist16 d) s = .fault .uninit)

/-! ### Control registers -/

/-- 45 R210, R212: CRW writes SRC_POS, SRC_LEN, DST_POS or DST_LEN when all 64 bits of the value keep the cursor in its view
and the view in its memory, and nothing else changes; every other index or value is INVALID_ARGUMENT and changes nothing. -/
def Obligations.CrwWritesLegalValuesOnly : Prop :=
  ∀ (a : BitVec 8) (v : Word64) (s : State),
    let ok (t : State) : State := { t with responses := s.responses ++ [{ status := .ok, val := 0 }] }
    let w : Word32 := v.setWidth 32
    (a = 0 → v.toNat ≤ s.srcLen.toNat → exec (.crw a v) s = .next (ok { s with srcPos := w })) ∧
    (a = 1 → s.srcPos.toNat ≤ v.toNat → v.toNat ≤ s.cfg.srcMemBytes →
      exec (.crw a v) s = .next (ok { s with srcLen := w })) ∧
    (a = 2 → v.toNat ≤ s.dstLen.toNat → exec (.crw a v) s = .next (ok { s with dstPos := w })) ∧
    (a = 3 → s.dstPos.toNat ≤ v.toNat → v.toNat ≤ s.cfg.dstMemBytes →
      exec (.crw a v) s = .next (ok { s with dstLen := w })) ∧
    ((a = 0 ∧ s.srcLen.toNat < v.toNat) ∨ (a = 1 ∧ (v.toNat < s.srcPos.toNat ∨ s.cfg.srcMemBytes < v.toNat)) ∨
      (a = 2 ∧ s.dstLen.toNat < v.toNat) ∨ (a = 3 ∧ (v.toNat < s.dstPos.toNat ∨ s.cfg.dstMemBytes < v.toNat)) ∨
      4 ≤ a.toNat →
        exec (.crw a v) s = .next { s with
          responses := s.responses ++ [{ status := .invalidArgument, val := 0 }] })

/-- 45 R211, R212, R213, 10 R21 to R24: CRR answers the register's value, zero-extended, whatever the streams' state, and
changes nothing; an index above 7 is INVALID_ARGUMENT. (A buffer size of 2^32 or more reads as its low 32 bits: log entry
16, the model's reading of R21.) -/
def Obligations.CrrReadsEveryRegister : Prop :=
  ∀ (a : BitVec 8) (s : State),
    let answer (n : Nat) : Host.Outcome State Fault Refusal :=
      .next { s with responses := s.responses ++ [{ status := .ok, val := BitVec.ofNat 64 n }] }
    (a = 0 → exec (.crr a) s = answer s.srcPos.toNat) ∧ (a = 1 → exec (.crr a) s = answer s.srcLen.toNat) ∧
    (a = 2 → exec (.crr a) s = answer s.dstPos.toNat) ∧ (a = 3 → exec (.crr a) s = answer s.dstLen.toNat) ∧
    (a = 4 → exec (.crr a) s = answer
      (s.writer.closed.toNat + 2 * s.reader.closed.toNat + 4 * s.writer.ioFault.toNat +
        8 * s.reader.ioFault.toNat + 16 * s.reader.eos.toNat + 32 * s.egRangeSeen.toNat)) ∧
    (a = 5 → exec (.crr a) s = answer (s.cfg.egeSigned.toNat + 2 * s.cfg.egdSigned.toNat + 4)) ∧
    (a = 6 → exec (.crr a) s = answer (s.cfg.wBufsz % 2 ^ 32)) ∧
    (a = 7 → exec (.crr a) s = answer (s.cfg.rBufsz % 2 ^ 32)) ∧
    (8 ≤ a.toNat → exec (.crr a) s = .next { s with
      responses := s.responses ++ [{ status := .invalidArgument, val := 0 }] })

/-! ### Operands refused -/

/-- 40 R104, 41 R124, 42 R142, 60 R225: a bit length outside 1 .. 64 and a symbol outside the mode's domain are
INVALID_ARGUMENT once the unit admits the command, and nothing changes. -/
def Obligations.BadOperandsChangeNothing : Prop :=
  (∀ (a : BitVec 8) (v : Word64) (s : State), s.writer.ioFault = false → s.writer.closed = false →
    (a.toNat < 1 ∨ 64 < a.toNat) → exec (.wbits a v) s = .next { s with
      responses := s.responses ++ [{ status := .invalidArgument, val := 0 }] }) ∧
  (∀ (a : BitVec 8) (s : State), s.reader.ioFault = false → s.reader.eos = false → s.reader.closed = false →
    (a.toNat < 1 ∨ 64 < a.toNat) → exec (.rbits a) s = .next { s with
      responses := s.responses ++ [{ status := .invalidArgument, val := 0 }] }) ∧
  (∀ (v : Word64) (s : State), s.writer.ioFault = false → s.writer.closed = false →
    (255 < v.toInt ∨ v.toInt < (if s.cfg.egeSigned then -255 else 0)) → exec (.egenc v) s = .next { s with
      responses := s.responses ++ [{ status := .invalidArgument, val := 0 }] })

/-! ### Whole-machine rules -/

/-- 00 R3: the two pipelines do not touch each other: a command of the writer's side leaves the reader's side, the source,
EG_RANGE_SEEN and everything of the LZ units as it was, a command of the reader's side leaves the writer's side, the sink and
everything of the LZ units, and an LZ command leaves everything of the bit streams; none changes the configuration or the
host's queue. -/
def Obligations.PipelinesAreIndependent : Prop :=
  ∀ (i : Instr) (s t : State), exec i s = .next t →
    (writerCommand i = true →
      SameReader s t ∧ t.egRangeSeen = s.egRangeSeen ∧ SameLz s t ∧ t.cfg = s.cfg ∧ t.inbox = s.inbox ∧
        t.env.sourceScript = s.env.sourceScript) ∧
    (readerCommand i = true →
      SameWriter s t ∧ SameLz s t ∧ t.cfg = s.cfg ∧ t.inbox = s.inbox ∧
        t.env.sinkScript = s.env.sinkScript ∧ (i ≠ .egdec → t.egRangeSeen = s.egRangeSeen)) ∧
    (lzCommand i = true → SameStreams s t ∧ t.cfg = s.cfg ∧ t.inbox = s.inbox)

/-- 10 R22, 60 R232: every bit of STATUS is one-way: no step but a reset clears one. -/
def Obligations.StatusBitsAreOneWay : Prop :=
  ∀ (s t : State), (∀ e d source, s.inbox.head? ≠ some (.reset e d source)) → step s = .next t →
    ∀ k < 6, (statusBits s).getLsbD k = true → (statusBits t).getLsbD k = true

/-- 10 R23, R24: the straps change at reset only, and the sizes never. -/
def Obligations.ConfigurationIsConstant : Prop :=
  ∀ (s t : State), step s = .next t →
    (t.cfg.wBufsz = s.cfg.wBufsz ∧ t.cfg.rBufsz = s.cfg.rBufsz ∧
      t.cfg.srcMemBytes = s.cfg.srcMemBytes ∧ t.cfg.dstMemBytes = s.cfg.dstMemBytes) ∧
    ((∀ e d source, s.inbox.head? ≠ some (.reset e d source)) → t.cfg = s.cfg)

/-- 10 R20, R25: from every state between commands that has them, a step leaves the view invariants true and stands between
commands again. -/
def Obligations.StepsKeepTheViews : Prop :=
  ∀ s t : State, Between s → ViewsOk s → step s = .next t → Between t ∧ ViewsOk t

/-- Log entries 6 and 7, 20 R55: every step, inside LZINV too, leaves the memories and the hash table in canonical form. -/
def Obligations.StepsKeepTheCanonicalForm : Prop :=
  ∀ s t : State, Canonical s → step s = .next t → Canonical t

/-- 10 R14, R16, R20, R28: every invariant holds right after reset, in every configuration. -/
def Obligations.ResetMeetsTheInvariants : Prop :=
  ∀ (p : Config.Params) (source : List Byte),
    let s := State.resetWith p source
    WriterOk s ∧ ReaderOk s ∧ ViewsOk s ∧ Between s ∧ Canonical s ∧ ResponsesOk s ∧ GoodSoFar s
end

