-- ==== Sys2Proof/Laws/Memory.lean ====
section
/-! SUPPORT. What the operations over memories and the hash table do: a read after a write, and that every operation keeps
the canonical form. -/

namespace Sys2Proof.Machine

variable {α : Type}

/-! ### Reading after writing -/

theorem storeGet_storePut (l : List (Nat × α)) (a b : Nat) (x : α) :
    storeGet (storePut l a x) b = if a = b then some x else storeGet l b := by
  induction l with
  | nil => simp [storePut, storeGet]
  | cons e l ih =>
    obtain ⟨k, y⟩ := e
    unfold storePut
    split
    · simp [storeGet]
    · split
      · subst_vars; simp only [storeGet]; split <;> simp_all
      · simp only [storeGet, ih]; split <;> split <;> simp_all

theorem memRead_memWrite (m : Memory) (a b : Nat) (x : Byte) :
    memRead (memWrite m a x) b = if a = b then some x else memRead m b := storeGet_storePut m a b x

@[simp] theorem memRead_memWrite_same (m : Memory) (a : Nat) (x : Byte) : memRead (memWrite m a x) a = some x := by
  simp [memRead_memWrite]

theorem memRead_memWrite_other (m : Memory) {a b : Nat} (x : Byte) (h : a ≠ b) :
    memRead (memWrite m a x) b = memRead m b := by simp [memRead_memWrite, h]

/-- A byte after a run of bytes is written: the written one inside the run, the old one outside. -/
theorem memRead_memWriteBytes (m : Memory) (a b : Nat) (bs : List Byte) :
    memRead (memWriteBytes m a bs) b =
      if a ≤ b ∧ b < a + bs.length then bs[b - a]? else memRead m b := by
  induction bs generalizing m a with
  | nil =>
    have : ¬ (a ≤ b ∧ b < a) := by omega
    simp [memWriteBytes, this]
  | cons x bs ih =>
    simp only [memWriteBytes, ih, memRead_memWrite, List.length_cons]
    by_cases h : a = b
    · subst h; simp
    · by_cases h1 : a + 1 ≤ b ∧ b < a + 1 + bs.length
      · have h2 : a ≤ b ∧ b < a + (bs.length + 1) := by omega
        have h3 : b - a = (b - (a + 1)) + 1 := by omega
        rw [if_pos h1, if_pos h2, h3, List.getElem?_cons_succ]
      · have h2 : ¬ (a ≤ b ∧ b < a + (bs.length + 1)) := by omega
        rw [if_neg h1, if_neg h2, if_neg h]

/-- Reading a run of bytes gives them exactly when each is there. -/
theorem memReadBytes_eq_some (m : Memory) (a n : Nat) (bs : List Byte) :
    memReadBytes m a n = some bs ↔ bs.length = n ∧ ∀ i < n, memRead m (a + i) = bs[i]? := by
  induction n generalizing a bs with
  | zero => cases bs <;> simp [memReadBytes]
  | succ n ih =>
    constructor
    · intro h
      unfold memReadBytes at h
      split at h
      · simp at h
      · rename_i b hb
        obtain ⟨t, ht, rfl⟩ := Option.map_eq_some_iff.mp h
        obtain ⟨hl, hr⟩ := (ih (a + 1) t).mp ht
        refine ⟨by simp [hl], fun i hi => ?_⟩
        cases i with
        | zero => simpa using hb
        | succ i =>
          have := hr i (by omega)
          rw [List.getElem?_cons_succ, ← this]; congr 1; omega
    · rintro ⟨hl, hr⟩
      cases bs with
      | nil => simp at hl
      | cons b t =>
        have hb : memRead m a = some b := by simpa using hr 0 (by omega)
        have ht : memReadBytes m (a + 1) n = some t := by
          refine (ih (a + 1) t).mpr ⟨by simpa using hl, fun i hi => ?_⟩
          have := hr (i + 1) (by omega)
          rw [List.getElem?_cons_succ] at this
          rw [← this]; congr 1; omega
        simp [memReadBytes, hb, ht]

theorem length_of_memReadBytes {m : Memory} {a n : Nat} {bs : List Byte} (h : memReadBytes m a n = some bs) :
    bs.length = n := ((memReadBytes_eq_some m a n bs).mp h).1

/-- A run of bytes just written is read back. -/
theorem memReadBytes_memWriteBytes (m : Memory) (a : Nat) (bs : List Byte) :
    memReadBytes (memWriteBytes m a bs) a bs.length = some bs := by
  refine (memReadBytes_eq_some _ _ _ _).mpr ⟨rfl, fun i hi => ?_⟩
  rw [memRead_memWriteBytes, if_pos (by omega)]
  congr 1; omega

/-- A run of bytes is missing exactly when one of them was never written (20 R57). -/
theorem memReadBytes_eq_none (m : Memory) (a n : Nat) :
    memReadBytes m a n = none ↔ ∃ i < n, memRead m (a + i) = none := by
  induction n generalizing a with
  | zero => simp [memReadBytes]
  | succ n ih =>
    unfold memReadBytes
    split
    · rename_i h; simpa using ⟨0, by omega, by simpa using h⟩
    · rename_i b hb
      simp only [Option.map_eq_none_iff, ih]
      constructor
      · rintro ⟨i, hi, h⟩; exact ⟨i + 1, by omega, by rw [← h]; congr 1; omega⟩
      · rintro ⟨i, hi, h⟩
        cases i with
        | zero => simp [hb] at h
        | succ i => exact ⟨i, by omega, by rw [← h]; congr 1; omega⟩

/-! ### The canonical form -/

theorem risingKeys_cons (a : Nat) (x : α) (l : List (Nat × α)) :
    risingKeys ((a, x) :: l) = true ↔ (∀ e ∈ l, a < e.1) ∧ risingKeys l = true := by
  induction l generalizing a x with
  | nil => simp [risingKeys]
  | cons e l ih =>
    obtain ⟨b, y⟩ := e
    simp only [risingKeys, Bool.and_eq_true, decide_eq_true_eq, List.mem_cons, forall_eq_or_imp]
    constructor
    · rintro ⟨h, hr⟩
      exact ⟨⟨h, fun e he => lt_trans h (((ih b y).mp hr).1 e he)⟩, hr⟩
    · rintro ⟨⟨h, -⟩, hr⟩; exact ⟨h, hr⟩

theorem mem_storePut {l : List (Nat × α)} {a : Nat} {x : α} {e : Nat × α} (h : e ∈ storePut l a x) :
    e = (a, x) ∨ e ∈ l := by
  induction l with
  | nil => simpa [storePut] using h
  | cons f l ih =>
    obtain ⟨k, y⟩ := f
    unfold storePut at h
    split at h
    · simpa using h
    · split at h
      · rcases List.mem_cons.mp h with h | h
        · exact .inl h
        · exact .inr (List.mem_cons_of_mem _ h)
      · rcases List.mem_cons.mp h with h | h
        · exact .inr (by simp [h])
        · rcases ih h with h | h
          · exact .inl h
          · exact .inr (List.mem_cons_of_mem _ h)

theorem mem_storeErase {l : List (Nat × α)} {a : Nat} {e : Nat × α} (h : e ∈ storeErase l a) : e ∈ l := by
  induction l with
  | nil => simp [storeErase] at h
  | cons f l ih =>
    obtain ⟨k, y⟩ := f
    unfold storeErase at h
    split at h
    · exact List.mem_cons_of_mem _ h
    · rcases List.mem_cons.mp h with h | h
      · simp [h]
      · exact List.mem_cons_of_mem _ (ih h)

theorem risingKeys_storePut {l : List (Nat × α)} (a : Nat) (x : α) (h : risingKeys l = true) :
    risingKeys (storePut l a x) = true := by
  induction l with
  | nil => rfl
  | cons f l ih =>
    obtain ⟨k, y⟩ := f
    obtain ⟨hk, hl⟩ := (risingKeys_cons k y l).mp h
    unfold storePut
    split
    · rename_i hlt
      refine (risingKeys_cons _ _ _).mpr ⟨?_, h⟩
      simp only [List.mem_cons, forall_eq_or_imp]
      exact ⟨hlt, fun e he => lt_trans hlt (hk e he)⟩
    · split
      · subst_vars; exact (risingKeys_cons _ _ _).mpr ⟨hk, hl⟩
      · refine (risingKeys_cons _ _ _).mpr ⟨fun e he => ?_, ih hl⟩
        rcases mem_storePut he with rfl | he
        · simp; omega
        · exact hk e he

theorem risingKeys_storeErase {l : List (Nat × α)} (a : Nat) (h : risingKeys l = true) :
    risingKeys (storeErase l a) = true := by
  induction l with
  | nil => rfl
  | cons f l ih =>
    obtain ⟨k, y⟩ := f
    obtain ⟨hk, hl⟩ := (risingKeys_cons k y l).mp h
    unfold storeErase
    split
    · exact hl
    · exact (risingKeys_cons _ _ _).mpr ⟨fun e he => hk e (mem_storeErase he), ih hl⟩

/-- A write keeps a memory's canonical form. -/
theorem memWrite_wf {m : Memory} (a : Nat) (b : Byte) (h : Memory.wf m = true) : Memory.wf (memWrite m a b) = true :=
  risingKeys_storePut a b h

theorem memWriteBytes_wf {m : Memory} (a : Nat) (bs : List Byte) (h : Memory.wf m = true) :
    Memory.wf (memWriteBytes m a bs) = true := by
  induction bs generalizing m a with
  | nil => exact h
  | cons b bs ih => exact ih (a + 1) (memWrite_wf a b h)

/-- A write of a slot keeps the hash table's canonical form. -/
theorem htWrite_wf {t : HashTable} (h p : Nat) (ht : HashTable.wf t = true) : HashTable.wf (htWrite t h p) = true := by
  unfold HashTable.wf at *
  simp only [Bool.and_eq_true, List.all_eq_true] at *
  unfold htWrite
  split
  · exact ⟨risingKeys_storeErase h ht.1, fun e he => ht.2 e (mem_storeErase he)⟩
  · rename_i hz
    refine ⟨risingKeys_storePut h _ ht.1, fun e he => ?_⟩
    rcases mem_storePut he with rfl | he
    · simpa using hz
    · exact ht.2 e he

/-- A write of a slot lists no slot but that one and those listed before. -/
theorem mem_htWrite {t : HashTable} {h p : Nat} {e : Nat × Word32} (he : e ∈ htWrite t h p) : e.1 = h ∨ e ∈ t := by
  unfold htWrite at he
  split at he
  · exact .inr (mem_storeErase he)
  · rcases mem_storePut he with rfl | he
    · exact .inl rfl
    · exact .inr he

/-- The bytes a run of writes lists: those of the run and those listed before. -/
theorem mem_memWriteBytes {m : Memory} {a : Nat} {bs : List Byte} {e : Host.Cell} (h : e ∈ memWriteBytes m a bs) :
    (a ≤ e.1 ∧ e.1 < a + bs.length) ∨ e ∈ m := by
  induction bs generalizing m a with
  | nil => exact .inr h
  | cons b bs ih =>
    rcases ih h with h | h
    · exact .inl ⟨by omega, by simp; omega⟩
    · rcases mem_storePut h with rfl | h
      · exact .inl ⟨le_refl _, by simp⟩
      · exact .inr h

/-! ### The match copy (44 R196) -/

/-- The match copy from inside what is written: every byte of the run is the byte `dist` before it, all else is as before,
and the canonical form is kept. -/
theorem copyMatch_spec (m : Memory) (d dist n : Nat) (hd : 1 ≤ dist) (hle : dist ≤ d)
    (hw : ∀ a, d - dist ≤ a → a < d → memRead m a ≠ none) :
    ∃ m', copyMatch m d dist n = some m' ∧
      (∀ i < n, memRead m' (d + i) = memRead m' (d + i - dist)) ∧
      (∀ a, a < d ∨ d + n ≤ a → memRead m' a = memRead m a) ∧
      (∀ a, d ≤ a → a < d + n → memRead m' a ≠ none) ∧
      (Memory.wf m = true → Memory.wf m' = true) := by
  induction n generalizing m d with
  | zero =>
    exact ⟨m, rfl, fun i hi => absurd hi (Nat.not_lt_zero i), fun _ _ => rfl, fun a h1 h2 => by omega, id⟩
  | succ n ih =>
    obtain ⟨b, hb⟩ := Option.ne_none_iff_exists'.mp (hw (d - dist) le_rfl (by omega))
    obtain ⟨m', h1, h2, h3, h4, h5⟩ := ih (memWrite m d b) (d + 1) (by omega) (fun a ha hlt => by
      rw [memRead_memWrite]
      split
      · simp
      · exact hw a (by omega) (by omega))
    have hread : memRead m' d = some b := by
      rw [h3 d (.inl (Nat.lt_succ_self d)), memRead_memWrite, if_pos rfl]
    refine ⟨m', by simp [copyMatch, hb, h1], fun i hi => ?_, fun a ha => ?_, fun a ha hlt => ?_,
      fun hwf => h5 (memWrite_wf d b hwf)⟩
    · cases i with
      | zero =>
        rw [Nat.add_zero, hread, h3 (d - dist) (.inl (by omega)), memRead_memWrite, if_neg (by omega), hb]
      | succ i =>
        have := h2 i (by omega)
        rw [show d + (i + 1) = d + 1 + i by omega, this]
    · rw [h3 a (by omega), memRead_memWrite, if_neg (by omega)]
    · rcases Nat.eq_or_lt_of_le ha with h | h
      · subst h; simp [hread]
      · exact h4 a (by omega) (by omega)

/-- Whatever is copied, the canonical form is kept, and no byte outside the run is touched. -/
theorem copyMatch_frame {m m' : Memory} {d dist n : Nat} (h : copyMatch m d dist n = some m') :
    (∀ a, a < d ∨ d + n ≤ a → memRead m' a = memRead m a) ∧ (Memory.wf m = true → Memory.wf m' = true) ∧
      (∀ e ∈ m', (d ≤ e.1 ∧ e.1 < d + n) ∨ e ∈ m) := by
  induction n generalizing m d with
  | zero => simp only [copyMatch, Option.some.injEq] at h; subst h; exact ⟨fun _ _ => rfl, id, fun _ h => .inr h⟩
  | succ n ih =>
    unfold copyMatch at h
    split at h
    · simp at h
    · rename_i b hb
      obtain ⟨h1, h2, h3⟩ := ih h
      refine ⟨fun a ha => ?_, fun hwf => h2 (memWrite_wf d b hwf), fun e he => ?_⟩
      · rw [h1 a (by omega), memRead_memWrite, if_neg (by omega)]
      · rcases h3 e he with h | h
        · exact .inl ⟨by omega, by omega⟩
        · rcases mem_storePut h with rfl | h
          · exact .inl ⟨le_refl _, by simp⟩
          · exact .inr h

end Sys2Proof.Machine
end

