-- ==== Sys2Proof/Laws/State.lean ====
section
/-! SUPPORT. What each field of the state is after the state updates of Machine/Ops.lean. -/

namespace Sys2Proof.Machine

variable (s : State) (st : Status) (v : Word64)

@[simp] theorem respond_cfg : (respond s st v).cfg = s.cfg := rfl
@[simp] theorem respond_writer : (respond s st v).writer = s.writer := rfl
@[simp] theorem respond_reader : (respond s st v).reader = s.reader := rfl
@[simp] theorem respond_egRangeSeen : (respond s st v).egRangeSeen = s.egRangeSeen := rfl
@[simp] theorem respond_ht : (respond s st v).ht = s.ht := rfl
@[simp] theorem respond_srcPos : (respond s st v).srcPos = s.srcPos := rfl
@[simp] theorem respond_srcLen : (respond s st v).srcLen = s.srcLen := rfl
@[simp] theorem respond_dstPos : (respond s st v).dstPos = s.dstPos := rfl
@[simp] theorem respond_dstLen : (respond s st v).dstLen = s.dstLen := rfl
@[simp] theorem respond_src : (respond s st v).src = s.src := rfl
@[simp] theorem respond_dst : (respond s st v).dst = s.dst := rfl
@[simp] theorem respond_sink : (respond s st v).sink = s.sink := rfl
@[simp] theorem respond_source : (respond s st v).source = s.source := rfl
@[simp] theorem respond_lzi : (respond s st v).lzi = s.lzi := rfl
@[simp] theorem respond_env : (respond s st v).env = s.env := rfl
@[simp] theorem respond_inbox : (respond s st v).inbox = s.inbox := rfl
@[simp] theorem respond_responses : (respond s st v).responses = s.responses ++ [{ status := st, val := v }] := rfl

@[simp] theorem nextDraw_cfg : (nextDraw s).cfg = s.cfg := rfl
@[simp] theorem nextDraw_writer : (nextDraw s).writer = s.writer := rfl
@[simp] theorem nextDraw_reader : (nextDraw s).reader = s.reader := rfl
@[simp] theorem nextDraw_egRangeSeen : (nextDraw s).egRangeSeen = s.egRangeSeen := rfl
@[simp] theorem nextDraw_ht : (nextDraw s).ht = s.ht := rfl
@[simp] theorem nextDraw_srcPos : (nextDraw s).srcPos = s.srcPos := rfl
@[simp] theorem nextDraw_srcLen : (nextDraw s).srcLen = s.srcLen := rfl
@[simp] theorem nextDraw_dstPos : (nextDraw s).dstPos = s.dstPos := rfl
@[simp] theorem nextDraw_dstLen : (nextDraw s).dstLen = s.dstLen := rfl
@[simp] theorem nextDraw_src : (nextDraw s).src = s.src := rfl
@[simp] theorem nextDraw_dst : (nextDraw s).dst = s.dst := rfl
@[simp] theorem nextDraw_sink : (nextDraw s).sink = s.sink := rfl
@[simp] theorem nextDraw_source : (nextDraw s).source = s.source := rfl
@[simp] theorem nextDraw_lzi : (nextDraw s).lzi = s.lzi := rfl
@[simp] theorem nextDraw_inbox : (nextDraw s).inbox = s.inbox := rfl
@[simp] theorem nextDraw_responses : (nextDraw s).responses = s.responses := rfl
@[simp] theorem nextDraw_sinkScript : (nextDraw s).env.sinkScript = s.env.sinkScript := rfl
@[simp] theorem nextDraw_sourceScript : (nextDraw s).env.sourceScript = s.env.sourceScript := rfl

@[simp] theorem drawSink_cfg : (drawSink s).2.cfg = s.cfg := by unfold drawSink; split <;> rfl
@[simp] theorem drawSink_writer : (drawSink s).2.writer = s.writer := by unfold drawSink; split <;> rfl
@[simp] theorem drawSink_reader : (drawSink s).2.reader = s.reader := by unfold drawSink; split <;> rfl
@[simp] theorem drawSink_egRangeSeen : (drawSink s).2.egRangeSeen = s.egRangeSeen := by unfold drawSink; split <;> rfl
@[simp] theorem drawSink_ht : (drawSink s).2.ht = s.ht := by unfold drawSink; split <;> rfl
@[simp] theorem drawSink_srcPos : (drawSink s).2.srcPos = s.srcPos := by unfold drawSink; split <;> rfl
@[simp] theorem drawSink_srcLen : (drawSink s).2.srcLen = s.srcLen := by unfold drawSink; split <;> rfl
@[simp] theorem drawSink_dstPos : (drawSink s).2.dstPos = s.dstPos := by unfold drawSink; split <;> rfl
@[simp] theorem drawSink_dstLen : (drawSink s).2.dstLen = s.dstLen := by unfold drawSink; split <;> rfl
@[simp] theorem drawSink_src : (drawSink s).2.src = s.src := by unfold drawSink; split <;> rfl
@[simp] theorem drawSink_dst : (drawSink s).2.dst = s.dst := by unfold drawSink; split <;> rfl
@[simp] theorem drawSink_sink : (drawSink s).2.sink = s.sink := by unfold drawSink; split <;> rfl
@[simp] theorem drawSink_source : (drawSink s).2.source = s.source := by unfold drawSink; split <;> rfl
@[simp] theorem drawSink_lzi : (drawSink s).2.lzi = s.lzi := by unfold drawSink; split <;> rfl
@[simp] theorem drawSink_inbox : (drawSink s).2.inbox = s.inbox := by unfold drawSink; split <;> rfl
@[simp] theorem drawSink_responses : (drawSink s).2.responses = s.responses := by unfold drawSink; split <;> rfl
@[simp] theorem drawSink_sourceScript : (drawSink s).2.env.sourceScript = s.env.sourceScript := by unfold drawSink; split <;> rfl

@[simp] theorem drawSource_cfg : (drawSource s).2.cfg = s.cfg := by unfold drawSource; split <;> rfl
@[simp] theorem drawSource_writer : (drawSource s).2.writer = s.writer := by unfold drawSource; split <;> rfl
@[simp] theorem drawSource_reader : (drawSource s).2.reader = s.reader := by unfold drawSource; split <;> rfl
@[simp] theorem drawSource_egRangeSeen : (drawSource s).2.egRangeSeen = s.egRangeSeen := by unfold drawSource; split <;> rfl
@[simp] theorem drawSource_ht : (drawSource s).2.ht = s.ht := by unfold drawSource; split <;> rfl
@[simp] theorem drawSource_srcPos : (drawSource s).2.srcPos = s.srcPos := by unfold drawSource; split <;> rfl
@[simp] theorem drawSource_srcLen : (drawSource s).2.srcLen = s.srcLen := by unfold drawSource; split <;> rfl
@[simp] theorem drawSource_dstPos : (drawSource s).2.dstPos = s.dstPos := by unfold drawSource; split <;> rfl
@[simp] theorem drawSource_dstLen : (drawSource s).2.dstLen = s.dstLen := by unfold drawSource; split <;> rfl
@[simp] theorem drawSource_src : (drawSource s).2.src = s.src := by unfold drawSource; split <;> rfl
@[simp] theorem drawSource_dst : (drawSource s).2.dst = s.dst := by unfold drawSource; split <;> rfl
@[simp] theorem drawSource_sink : (drawSource s).2.sink = s.sink := by unfold drawSource; split <;> rfl
@[simp] theorem drawSource_source : (drawSource s).2.source = s.source := by unfold drawSource; split <;> rfl
@[simp] theorem drawSource_lzi : (drawSource s).2.lzi = s.lzi := by unfold drawSource; split <;> rfl
@[simp] theorem drawSource_inbox : (drawSource s).2.inbox = s.inbox := by unfold drawSource; split <;> rfl
@[simp] theorem drawSource_responses : (drawSource s).2.responses = s.responses := by unfold drawSource; split <;> rfl
@[simp] theorem drawSource_sinkScript : (drawSource s).2.env.sinkScript = s.env.sinkScript := by unfold drawSource; split <;> rfl

/-- A scripted answer of the sink is the one drawn. -/
theorem drawSink_script {a : Config.SinkAnswer} {rest : List Config.SinkAnswer} (h : s.env.sinkScript = a :: rest) :
    drawSink s = (a, { s with env := { s.env with sinkScript := rest } }) := by simp [drawSink, h]

/-- A scripted answer of the source is the one drawn. -/
theorem drawSource_script {a : Config.SourceAnswer} {rest : List Config.SourceAnswer}
    (h : s.env.sourceScript = a :: rest) :
    drawSource s = (a, { s with env := { s.env with sourceScript := rest } }) := by simp [drawSource, h]

/-! ### Running on -/

@[simp] theorem andThen_done {α β : Type} (a : α) (s : State) (f : α → State → Run β) :
    andThen (.done a s) f = f a s := rfl

@[simp] theorem andThen_raised {α β : Type} (s : State) (f : α → State → Run β) :
    andThen (.raised st s : Run α) f = .raised st s := rfl

@[simp] theorem conclude_done : conclude (.done v s) = .next (respond s .ok v) := rfl

@[simp] theorem conclude_raised : conclude (.raised st s) = .next (respond s st 0) := rfl

/-- A command's pseudocode always comes to a next state. -/
theorem conclude_next (r : Run Word64) : ∃ t, conclude r = .next t := by cases r <;> exact ⟨_, rfl⟩

end Sys2Proof.Machine
end

