-- ==== Sys2Proof/Laws/Lzi.lean ====
section
/-! SUPPORT. What LZINV's operations do, one lemma for each: what they leave alone, where LZINV stands after them, how the
command can end (44 R191 to R199). -/

namespace Sys2Proof.Machine

/-! ### What LZINV's operations leave alone -/

/-- Only DST from the write cursor up to where it is then, the two cursors, LZINV's place and the responses may differ. -/
def LziFrame (s t : State) : Prop :=
  t = { s with
    dst := t.dst, srcPos := t.srcPos, dstPos := t.dstPos, lzi := t.lzi, responses := t.responses } ∧
  s.dstPos.toNat ≤ t.dstPos.toNat ∧ (t.dstPos = s.dstPos ∨ t.dstPos.toNat ≤ s.dstLen.toNat) ∧
  (∀ a, a < s.dstPos.toNat ∨ t.dstPos.toNat ≤ a → memRead t.dst a = memRead s.dst a) ∧
  (∀ a, s.dstPos.toNat ≤ a → a < t.dstPos.toNat → memRead t.dst a ≠ none) ∧
  (Memory.wf s.dst = true → Memory.wf t.dst = true) ∧
  (∀ e ∈ t.dst, e.1 < s.dstLen.toNat ∨ e ∈ s.dst)

theorem LziFrame.refl (s : State) : LziFrame s s :=
  ⟨rfl, le_rfl, .inl rfl, fun _ _ => rfl, fun a h1 h2 => by omega, id, fun _ h => .inr h⟩

theorem LziFrame.trans {s t u : State} (h : LziFrame s t) (h' : LziFrame t u) : LziFrame s u := by
  obtain ⟨h1, h2, h3, h4, h5, h6, h7⟩ := h
  obtain ⟨g1, g2, g3, g4, g5, g6, g7⟩ := h'
  have hlen : t.dstLen = s.dstLen := by rw [h1]
  rw [hlen] at g3 g7
  refine ⟨by rw [g1, h1], h2.trans g2, ?_, fun a ha => ?_, fun a h8 h9 => ?_, fun h => g6 (h6 h), fun e he => ?_⟩
  · rcases g3 with g3 | g3
    · rw [g3]; exact h3
    · exact .inr g3
  · rw [g4 a (by omega), h4 a (by omega)]
  · by_cases hlt : a < t.dstPos.toNat
    · rw [g4 a (.inl hlt)]; exact h5 a h8 hlt
    · exact g5 a (by omega) h9
  · rcases g7 e he with h | h
    · exact .inl h
    · exact h7 e h

/-- A change of LZINV's place, of the read cursor and of the responses alone. -/
theorem lziFrame_of_eq {s t : State} (h : t = { s with srcPos := t.srcPos, lzi := t.lzi, responses := t.responses }) :
    LziFrame s t := by
  have h1 : t.dst = s.dst := by rw [h]
  have h2 : t.dstPos = s.dstPos := by rw [h]
  refine ⟨by rw [h], by rw [h2], .inl h2, fun a _ => by rw [h1], fun a h3 h4 => ?_, fun hw => by rw [h1]; exact hw,
    fun e he => .inr (h1 ▸ he)⟩
  rw [h2] at h4; omega

/-! ### Where LZINV can stand -/

/-- What LZINV's place promises of its cursors (44 R195): no later read or write leaves the span or the view. -/
def PhaseOk (sEnd : Nat) (phase : LziPhase) (s : State) : Prop :=
  match phase with
  | .token | .litExt _ _ | .matchExt _ _ => s.srcPos.toNat < sEnd
  | .literals left _ => 1 ≤ left ∧ s.srcPos.toNat + left ≤ sEnd ∧ s.dstPos.toNat + left ≤ s.dstLen.toNat
  | .dist _ => s.srcPos.toNat + 2 ≤ sEnd

/-- Of what the command has written so far, every byte is there; the read cursor lies in the span, the span in 32 bits. -/
abbrev LziOk (sEnd d0 : Nat) (s : State) : Prop :=
  d0 ≤ s.dstPos.toNat ∧ s.srcPos.toNat ≤ sEnd ∧ sEnd < 2 ^ 32 ∧
  (∀ a, d0 ≤ a → a < s.dstPos.toNat → memRead s.dst a ≠ none)

theorem LziOk.of_frame {sEnd d0 : Nat} {s t : State} (h : LziOk sEnd d0 s) (hf : LziFrame s t)
    (hs : t.srcPos.toNat ≤ sEnd) : LziOk sEnd d0 t := by
  obtain ⟨h1, h2, h3, h4⟩ := h
  obtain ⟨g1, g2, g3, g4, g5, g6⟩ := hf
  refine ⟨h1.trans g2, hs, h3, fun a ha hlt => ?_⟩
  by_cases hb : a < s.dstPos.toNat
  · rw [g4 a (.inl hb)]; exact h4 a ha hb
  · exact g5 a (by omega) hlt

/-- What an operation of LZINV comes to: a next state in which LZINV stands at a later place, or one in which the command has
ended, with OK at the end of the span or with CORRUPT_INPUT. The read cursor is where the fetch left it. -/
def LziGoes (sEnd d0 : Nat) (s : State) (o : Host.Outcome State Fault Refusal) : Prop :=
  ∃ t, o = .next t ∧ LziFrame s t ∧ t.srcPos = s.srcPos ∧
    ((t.responses = s.responses ∧ ∃ phase, t.lzi = .active sEnd d0 phase ∧ PhaseOk sEnd phase t) ∨
      (t.lzi = .idle ∧
        ((t.srcPos.toNat = sEnd ∧
            t.responses = s.responses ++ [{ status := .ok, val := BitVec.ofNat 64 (t.dstPos.toNat - d0) }]) ∨
          t.responses = s.responses ++ [{ status := .corruptInput, val := 0 }])))

theorem lziCorrupt_goes (sEnd d0 : Nat) (s : State) : LziGoes sEnd d0 s (lziCorrupt s) :=
  ⟨_, rfl, lziFrame_of_eq rfl, rfl, .inr ⟨rfl, .inr rfl⟩⟩

theorem lziAt_goes {sEnd d0 : Nat} {phase : LziPhase} {s : State} (h : PhaseOk sEnd phase s) :
    LziGoes sEnd d0 s (lziAt sEnd d0 phase s) :=
  ⟨_, rfl, lziFrame_of_eq rfl, rfl, .inl ⟨rfl, phase, rfl, by cases phase <;> exact h⟩⟩

theorem lziFinish_goes (sEnd d0 : Nat) (s : State) : LziGoes sEnd d0 s (lziFinish sEnd d0 s) := by
  unfold lziFinish
  split
  · exact lziCorrupt_goes _ _ s
  · rename_i h
    exact ⟨_, rfl, lziFrame_of_eq rfl, rfl, .inr ⟨rfl, .inl ⟨not_not.mp h, rfl⟩⟩⟩

theorem lziExtension_goes {sEnd d0 : Nat} {phase : LziPhase} {s : State}
    (h : s.srcPos.toNat < sEnd → PhaseOk sEnd phase s) : LziGoes sEnd d0 s (lziExtension sEnd d0 phase s) := by
  unfold lziExtension
  split
  · exact lziCorrupt_goes _ _ s
  · exact lziAt_goes (h (by omega))

theorem lziAfterLiterals_goes (sEnd d0 mat : Nat) (s : State) : LziGoes sEnd d0 s (lziAfterLiterals sEnd d0 mat s) := by
  unfold lziAfterLiterals
  split
  · exact lziFinish_goes _ _ s
  · split
    · exact lziCorrupt_goes _ _ s
    · exact lziAt_goes (show s.srcPos.toNat + 2 ≤ sEnd by omega)

theorem lziLiterals_goes (sEnd d0 len mat : Nat) (s : State) : LziGoes sEnd d0 s (lziLiterals sEnd d0 len mat s) := by
  unfold lziLiterals
  split
  · exact lziCorrupt_goes _ _ s
  · split
    · exact lziAfterLiterals_goes _ _ _ s
    · exact lziAt_goes (show 1 ≤ len ∧ s.srcPos.toNat + len ≤ sEnd ∧ s.dstPos.toNat + len ≤ s.dstLen.toNat by omega)

theorem LziGoes.of_frame {sEnd d0 : Nat} {s t : State} {o : Host.Outcome State Fault Refusal} (h : LziGoes sEnd d0 t o)
    (hf : LziFrame s t) (hs : t.srcPos = s.srcPos) (hr : t.responses = s.responses) : LziGoes sEnd d0 s o := by
  obtain ⟨u, h1, h2, h3, h4⟩ := h
  exact ⟨u, h1, hf.trans h2, h3.trans hs, by rw [← hr]; exact h4⟩

/-- The match (44 R194 to R196). -/
theorem lziMatch_goes {sEnd d0 : Nat} (dist len : Nat) {s : State} (h : LziOk sEnd d0 s) :
    LziGoes sEnd d0 s (lziMatch sEnd d0 dist len s) := by
  obtain ⟨h1, h2, h3, h4⟩ := h
  unfold lziMatch
  dsimp only
  split
  · exact lziCorrupt_goes _ _ s
  · rename_i hok
    simp only [not_or, not_lt, gt_iff_lt] at hok
    obtain ⟨k1, k2, k3⟩ := hok
    obtain ⟨m', c1, c2, c3, c4, c5⟩ := copyMatch_spec s.dst s.dstPos.toNat dist (len + Config.minMatch) (by omega) (by omega)
      (fun a ha hlt => h4 a (by omega) hlt)
    obtain ⟨-, -, c6⟩ := copyMatch_frame c1
    have hpos : (BitVec.ofNat 32 (s.dstPos.toNat + (len + Config.minMatch))).toNat =
        s.dstPos.toNat + (len + Config.minMatch) := by
      rw [BitVec.toNat_ofNat, Nat.mod_eq_of_lt (Nat.lt_of_le_of_lt k3 s.dstLen.isLt)]
    rw [c1]
    dsimp only
    have hf : LziFrame s { s with
        dst := m', dstPos := BitVec.ofNat 32 (s.dstPos.toNat + (len + Config.minMatch)) } := by
      refine ⟨rfl, by simp only [hpos]; omega, .inr (by simpa only [hpos] using k3), fun a ha => c3 a (by simpa only [hpos] using ha),
        fun a ha hlt => c4 a ha (by simpa only [hpos] using hlt), c5, fun e he => ?_⟩
      rcases c6 e he with h | h
      · exact .inl (by omega)
      · exact .inr h
    split
    · exact (lziFinish_goes _ _ _).of_frame hf rfl rfl
    · rename_i hlt
      exact (lziAt_goes (phase := .token) (by simp only [PhaseOk] at hlt ⊢; omega)).of_frame hf rfl rfl

/-- A literal (44 R192). -/
theorem lziLiteral_goes {sEnd d0 left mat : Nat} (b : Byte) {s : State} (h : s.lzi = .active sEnd d0 (.literals left mat))
    (h1 : 1 ≤ left) (h2 : s.srcPos.toNat + (left - 1) ≤ sEnd) (h3 : s.dstPos.toNat + left ≤ s.dstLen.toNat) :
    LziGoes sEnd d0 s (lziLiteral b s) := by
  have hlt := s.dstLen.isLt
  have hpos : (s.dstPos + 1).toNat = s.dstPos.toNat + 1 := by
    rw [BitVec.toNat_add]; simp; omega
  unfold lziLiteral
  rw [h]
  dsimp only
  have hf : LziFrame s { s with
      dst := memWrite s.dst s.dstPos.toNat b, dstPos := s.dstPos + 1
      lzi := .active sEnd d0 (.literals left mat) } := by
    refine ⟨rfl, by simp only [hpos]; omega, .inr (by simp only [hpos]; omega), fun a ha => ?_, fun a ha hb => ?_,
      fun hw => memWrite_wf _ _ hw, fun e he => ?_⟩
    · simp only [hpos] at ha
      exact memRead_memWrite_other _ _ (by omega)
    · simp only [hpos] at hb
      have : a = s.dstPos.toNat := by omega
      subst this; simp
    · rcases mem_storePut he with rfl | h
      · exact .inl (by simp only; omega)
      · exact .inr h
  split
  · exact (lziAfterLiterals_goes _ _ _ _).of_frame hf rfl rfl
  · refine (lziAt_goes (phase := .literals (left - 1) mat) ?_).of_frame hf rfl rfl
    simp only [PhaseOk, hpos]
    omega

/-! ### Fetching and running -/

/-- The read cursor `k` bytes on. -/
def stepOver (k : Nat) (s : State) : State := { s with srcPos := s.srcPos + BitVec.ofNat 32 k }

theorem stepOver_srcPos {k : Nat} {s : State} (h : s.srcPos.toNat + k < 2 ^ 32) :
    (stepOver k s).srcPos.toNat = s.srcPos.toNat + k := by
  simp only [stepOver, BitVec.toNat_add, BitVec.toNat_ofNat]
  omega

theorem stepOver_frame (k : Nat) (s : State) : LziFrame s (stepOver k s) := lziFrame_of_eq rfl

theorem stepOver_ok {sEnd d0 k : Nat} {s : State} (h : LziOk sEnd d0 s) (hk : s.srcPos.toNat + k ≤ sEnd) :
    LziOk sEnd d0 (stepOver k s) :=
  h.of_frame (stepOver_frame k s) (by rw [stepOver_srcPos (by have := h.2.2.1; omega)]; exact hk)

/-- One element at its place: a byte of the span that nothing has written stops the machine (20 R57); else one or two written
bytes are fetched and the element's operation goes its way. -/
theorem lziStep_goes {sEnd d0 : Nat} {phase : LziPhase} {s : State} (h : LziOk sEnd d0 s) (hp : PhaseOk sEnd phase s)
    (hl : s.lzi = .active sEnd d0 phase) :
    (lziStep phase s = .fault .uninit ∧ ∃ a, s.srcPos.toNat ≤ a ∧ a < sEnd ∧ memRead s.src a = none) ∨
      ∃ k, 1 ≤ k ∧ s.srcPos.toNat + k ≤ sEnd ∧
        (∀ a, s.srcPos.toNat ≤ a → a < s.srcPos.toNat + k → memRead s.src a ≠ none) ∧
        LziGoes sEnd d0 (stepOver k s) (lziStep phase s) := by
  have h32 := h.2.2.1
  have hlt : s.srcPos.toNat < sEnd := by
    cases phase <;> simp only [PhaseOk] at hp <;> omega
  have hl1 : (stepOver 1 s).lzi = .active sEnd d0 phase := hl
  have hp1 := stepOver_srcPos (s := s) (k := 1) (by omega)
  have ho1 := stepOver_ok (k := 1) h (by omega)
  unfold lziStep lziFetch lziByte
  cases hb : memRead s.src s.srcPos.toNat with
  | none => exact .inl ⟨rfl, _, le_rfl, hlt, hb⟩
  | some b =>
    have hr : ∀ a, s.srcPos.toNat ≤ a → a < s.srcPos.toNat + 1 → memRead s.src a ≠ none := fun a h1 h2 => by
      rw [show a = s.srcPos.toNat by omega, hb]; simp
    dsimp only [Option.map_some]
    cases phase with
    | token =>
      refine .inr ⟨1, le_rfl, by omega, hr, ?_⟩
      simp only [decodeToken]
      change LziGoes _ _ _ (lziToken _ _ (stepOver 1 s))
      unfold lziToken
      rw [hl1]
      dsimp only
      split
      · exact lziExtension_goes fun h => h
      · exact lziLiterals_goes _ _ _ _ _
    | litExt len mat =>
      refine .inr ⟨1, le_rfl, by omega, hr, ?_⟩
      change LziGoes _ _ _ (lziLenExt _ (stepOver 1 s))
      unfold lziLenExt
      rw [hl1]
      dsimp only
      split
      · exact lziExtension_goes fun h => h
      · exact lziLiterals_goes _ _ _ _ _
    | matchExt dist len =>
      refine .inr ⟨1, le_rfl, by omega, hr, ?_⟩
      change LziGoes _ _ _ (lziLenExt _ (stepOver 1 s))
      unfold lziLenExt
      rw [hl1]
      dsimp only
      split
      · exact lziExtension_goes fun h => h
      · exact lziMatch_goes _ _ ho1
    | literals left mat =>
      obtain ⟨q1, q2, q3⟩ := hp
      refine .inr ⟨1, le_rfl, by omega, hr, ?_⟩
      change LziGoes _ _ _ (lziLiteral _ (stepOver 1 s))
      exact lziLiteral_goes b hl1 q1 (by omega) q3
    | dist mat =>
      simp only [PhaseOk] at hp
      have hp1' : (s.srcPos + 1).toNat = s.srcPos.toNat + 1 := hp1
      dsimp only
      rw [hp1']
      cases hb2 : memRead s.src (s.srcPos.toNat + 1) with
      | none => exact .inl ⟨rfl, _, Nat.le_succ _, by omega, hb2⟩
      | some hi =>
        refine .inr ⟨2, by omega, by omega, fun a h1 h2 => ?_, ?_⟩
        · by_cases ha : a = s.srcPos.toNat + 1
          · rw [ha, hb2]; simp
          · exact hr a h1 (by omega)
        have e : { s with srcPos := s.srcPos + 1 + 1 } = stepOver 2 s := by
          simp only [stepOver, BitVec.add_assoc]; rfl
        simp only [Option.map_some, decodeDist, e]
        have hl2 : (stepOver 2 s).lzi = .active sEnd d0 (.dist mat) := hl
        unfold lziDist
        rw [hl2]
        dsimp only
        split
        · exact lziExtension_goes fun h => h
        · exact lziMatch_goes _ _ (stepOver_ok h hp)

/-- How LZINV's elements end, given a step for each byte left of the span. -/
theorem lziRun_goes {sEnd d0 : Nat} (fuel : Nat) {phase : LziPhase} {s : State} (h : LziOk sEnd d0 s)
    (hp : PhaseOk sEnd phase s) (hl : s.lzi = .active sEnd d0 phase) (hf : sEnd ≤ s.srcPos.toNat + fuel) :
    (lziRun fuel s = .fault .uninit ∧ ∃ a, s.srcPos.toNat ≤ a ∧ a < sEnd ∧ memRead s.src a = none) ∨
      ∃ t, lziRun fuel s = .next t ∧ LziFrame s t ∧ t.lzi = .idle ∧ s.srcPos.toNat ≤ t.srcPos.toNat ∧
        t.srcPos.toNat ≤ sEnd ∧
        (∀ a, s.srcPos.toNat ≤ a → a < t.srcPos.toNat → memRead s.src a ≠ none) ∧
        ((t.srcPos.toNat = sEnd ∧
            t.responses = s.responses ++ [{ status := .ok, val := BitVec.ofNat 64 (t.dstPos.toNat - d0) }]) ∨
          t.responses = s.responses ++ [{ status := .corruptInput, val := 0 }]) := by
  induction fuel generalizing phase s with
  | zero =>
    exfalso
    cases phase <;> simp only [PhaseOk] at hp <;> omega
  | succ fuel ih =>
    have h32 := h.2.2.1
    simp only [lziRun, hl]
    rcases lziStep_goes h hp hl with ⟨h1, h2⟩ | ⟨k, h1, h2, hr, t, h3, h4, h5, h6⟩
    · exact .inl ⟨by rw [h1], h2⟩
    · have hk := stepOver_srcPos (s := s) (k := k) (by omega)
      have hfr := (stepOver_frame k s).trans h4
      rw [h3]
      dsimp only
      rcases h6 with ⟨h6, phase', h7, h8⟩ | ⟨h6, h7⟩
      · rcases ih (h.of_frame hfr (by rw [h5, hk]; exact h2)) h8 h7 (by rw [h5, hk]; omega) with
          ⟨g1, a, g2, g3, g4⟩ | ⟨u, g1, g2, g3, g4, g5, g7, g6⟩
        · refine .inl ⟨g1, a, ?_, g3, ?_⟩
          · rw [h5, hk] at g2; omega
          · rw [← g4, hfr.1]
        · refine .inr ⟨u, g1, hfr.trans g2, g3, ?_, g5, fun a h9 h10 => ?_, ?_⟩
          · rw [h5, hk] at g4; omega
          · by_cases ha : a < s.srcPos.toNat + k
            · exact hr a h9 ha
            · have := g7 a (by rw [h5, hk]; omega) h10
              rwa [hfr.1] at this
          · rw [h6] at g6; exact g6
      · have : lziRun fuel t = .next t := by
          cases fuel with
          | zero => rfl
          | succ n => simp [lziRun, h6]
        refine .inr ⟨t, this, hfr, h6, ?_, ?_, fun a h9 h10 => hr a h9 ?_, h7⟩
        · rw [h5, hk]; omega
        · rw [h5, hk]; exact h2
        · rwa [h5, hk] at h10

end Sys2Proof.Machine
end

