-- ==== Sys2Proof/Laws/Own.lean ====
section
/-! SUPPORT. The model's own fields carry no state of KZC (10 R10; log entry 23): an operation comes to the same on two states
that agree in KZC, the parameters and the environment's answers, whatever the other fields hold. -/

namespace Sys2Proof.Machine

/-- The two states agree in KZC's state, the parameters and the environment's answers. -/
abbrev Alike (s t : State) : Prop := t.toKzc = s.toKzc ∧ t.cfg = s.cfg ∧ t.env = s.env

/-- Two runs come to the same: the same value or status, in states that agree, no response added yet. -/
def RunsAlike {α : Type} (s t : State) (r r' : Run α) : Prop :=
  match r, r' with
  | .done a u, .done b w => b = a ∧ Alike u w ∧ u.responses = s.responses ∧ w.responses = t.responses
  | .raised st u, .raised st' w => st' = st ∧ Alike u w ∧ u.responses = s.responses ∧ w.responses = t.responses
  | _, _ => False

/-- Two outcomes are the same: the same stop, or next states that agree, with the same responses added. -/
def EndsAlike (s t : State) (o o' : Host.Outcome State Fault Refusal) : Prop :=
  match o, o' with
  | .next u, .next w =>
    Alike u w ∧ ∃ l, u.responses = s.responses ++ l ∧ w.responses = t.responses ++ l
  | .fault a, .fault b => b = a
  | .refused a, .refused b => b = a
  | _, _ => False

theorem alike_andThen {α β : Type} {s t : State} {r r' : Run α} {f : α → State → Run β} (h : RunsAlike s t r r')
    (hf : ∀ a u w, Alike u w → RunsAlike u w (f a u) (f a w)) : RunsAlike s t (andThen r f) (andThen r' f) := by
  cases r with
  | done a u =>
    cases r' with
    | done b w =>
      obtain ⟨rfl, h1, h2, h3⟩ := h
      simpa only [andThen_done, RunsAlike, h2, h3] using hf b u w h1
    | raised => exact h.elim
  | raised st u =>
    cases r' with
    | done => exact h.elim
    | raised st' w => exact h

theorem alike_done {α : Type} (a : α) {s t : State} (h : Alike s t) : RunsAlike s t (.done a s) (.done a t) :=
  ⟨rfl, h, rfl, rfl⟩

/-- An operation on two states that hold the responses of two others. -/
theorem alike_from {α : Type} {s t u w : State} {r r' : Run α} (h : RunsAlike u w r r') (h1 : u.responses = s.responses)
    (h2 : w.responses = t.responses) : RunsAlike s t r r' := by
  unfold RunsAlike at h ⊢
  rwa [h1, h2] at h

/-! ### The sink, the source -/

theorem sinkPush_alike (bytes : List Byte) {s t : State} (h : Alike s t) : RunsAlike s t (sinkPush bytes s) (sinkPush bytes t) := by
  obtain ⟨⟩ := s
  obtain ⟨_, _, _, _, env, _, _⟩ := t
  obtain ⟨rfl, rfl, rfl⟩ := h
  obtain ⟨sink, source, n⟩ := env
  unfold sinkPush drawSink
  rcases sink with _ | ⟨_ | _, _⟩
  · dsimp only [nextDraw]
    cases Config.sinkAnswer n <;> exact ⟨rfl, ⟨rfl, rfl, rfl⟩, rfl, rfl⟩
  · exact ⟨rfl, ⟨rfl, rfl, rfl⟩, rfl, rfl⟩
  · exact ⟨rfl, ⟨rfl, rfl, rfl⟩, rfl, rfl⟩

theorem sinkFlush_alike {s t : State} (h : Alike s t) : RunsAlike s t (sinkFlush s) (sinkFlush t) := by
  obtain ⟨⟩ := s
  obtain ⟨_, _, _, _, env, _, _⟩ := t
  obtain ⟨rfl, rfl, rfl⟩ := h
  obtain ⟨sink, source, n⟩ := env
  unfold sinkFlush drawSink
  rcases sink with _ | ⟨_ | _, _⟩
  · dsimp only [nextDraw]
    cases Config.sinkAnswer n <;> exact ⟨rfl, ⟨rfl, rfl, rfl⟩, rfl, rfl⟩
  · exact ⟨rfl, ⟨rfl, rfl, rfl⟩, rfl, rfl⟩
  · exact ⟨rfl, ⟨rfl, rfl, rfl⟩, rfl, rfl⟩

theorem sinkClose_alike {s t : State} (h : Alike s t) : RunsAlike s t (sinkClose s) (sinkClose t) := by
  obtain ⟨⟩ := s
  obtain ⟨_, _, _, _, env, _, _⟩ := t
  obtain ⟨rfl, rfl, rfl⟩ := h
  obtain ⟨sink, source, n⟩ := env
  unfold sinkClose drawSink
  rcases sink with _ | ⟨_ | _, _⟩
  · dsimp only [nextDraw]
    cases Config.sinkAnswer n <;> exact ⟨rfl, ⟨rfl, rfl, rfl⟩, rfl, rfl⟩
  · exact ⟨rfl, ⟨rfl, rfl, rfl⟩, rfl, rfl⟩
  · exact ⟨rfl, ⟨rfl, rfl, rfl⟩, rfl, rfl⟩

theorem sourceRead_alike (max : Nat) {s t : State} (h : Alike s t) : RunsAlike s t (sourceRead max s) (sourceRead max t) := by
  obtain ⟨⟩ := s
  obtain ⟨_, _, _, _, env, _, _⟩ := t
  obtain ⟨rfl, rfl, rfl⟩ := h
  obtain ⟨sink, source, n⟩ := env
  unfold sourceRead drawSource
  rcases source with _ | ⟨_ | _, _⟩
  · dsimp only [nextDraw]
    cases Config.sourceAnswer n <;> exact ⟨rfl, ⟨rfl, rfl, rfl⟩, rfl, rfl⟩
  · exact ⟨rfl, ⟨rfl, rfl, rfl⟩, rfl, rfl⟩
  · exact ⟨rfl, ⟨rfl, rfl, rfl⟩, rfl, rfl⟩

theorem sourceClose_alike {s t : State} (h : Alike s t) : RunsAlike s t (sourceClose s) (sourceClose t) := by
  obtain ⟨⟩ := s
  obtain ⟨_, _, _, _, env, _, _⟩ := t
  obtain ⟨rfl, rfl, rfl⟩ := h
  obtain ⟨sink, source, n⟩ := env
  unfold sourceClose drawSource
  rcases source with _ | ⟨_ | _, _⟩
  · dsimp only [nextDraw]
    cases Config.sourceAnswer n <;> exact ⟨rfl, ⟨rfl, rfl, rfl⟩, rfl, rfl⟩
  · exact ⟨rfl, ⟨rfl, rfl, rfl⟩, rfl, rfl⟩
  · exact ⟨rfl, ⟨rfl, rfl, rfl⟩, rfl, rfl⟩

/-! ### The streams -/

theorem flushBuffer_alike {s t : State} (h : Alike s t) : RunsAlike s t (flushBuffer s) (flushBuffer t) := by
  unfold flushBuffer
  refine alike_andThen ?_ fun _ u w g => ?_
  · rw [h.1]
    split
    · exact sinkPush_alike _ h
    · exact alike_done _ h
  · exact alike_from (sinkFlush_alike (s := { u with writer := compacted u.writer })
      (t := { w with writer := compacted w.writer }) ⟨by rw [g.1], g.2.1, g.2.2⟩) rfl rfl

theorem putBit_alike (b : Bool) {s t : State} (h : Alike s t) : RunsAlike s t (putBit b s) (putBit b t) := by
  obtain ⟨⟩ := s
  obtain ⟨⟩ := t
  obtain ⟨rfl, rfl, rfl⟩ := h
  unfold putBit
  dsimp only
  split
  · exact alike_from (flushBuffer_alike ⟨rfl, rfl, rfl⟩) rfl rfl
  · exact ⟨rfl, ⟨rfl, rfl, rfl⟩, rfl, rfl⟩

theorem putBits_alike (bs : List Bool) {s t : State} (h : Alike s t) :
    RunsAlike s t (putBits bs s) (putBits bs t) := by
  induction bs generalizing s t with
  | nil => exact alike_done _ h
  | cons b bs ih => exact alike_andThen (putBit_alike b h) fun _ u w g => ih g

theorem refill_alike {s t : State} (h : Alike s t) : RunsAlike s t (refill s) (refill t) := by
  unfold refill
  rw [h.2.1]
  refine alike_andThen (sourceRead_alike _ h) fun bs u w g => ?_
  obtain ⟨g1, g2, g3⟩ := g
  split
  · exact ⟨rfl, ⟨by simp only [nextDraw, g1, g2, g3], g2, by simp only [nextDraw, g3]⟩, rfl, rfl⟩
  · exact ⟨rfl, ⟨by rw [g1], g2, g3⟩, rfl, rfl⟩

theorem getBit_alike {s t : State} (h : Alike s t) : RunsAlike s t (getBit s) (getBit t) := by
  unfold getBit
  rw [show t.reader = s.reader by rw [h.1]]
  refine alike_andThen ?_ fun _ u w g => ?_
  · split
    · exact refill_alike h
    · exact alike_done _ h
  · exact ⟨by rw [g.1], ⟨by rw [g.1], g.2.1, g.2.2⟩, rfl, rfl⟩

theorem getBits_alike (n x : Nat) {s t : State} (h : Alike s t) :
    RunsAlike s t (getBits n x s) (getBits n x t) := by
  induction n generalizing x s t with
  | zero => exact alike_done _ h
  | succ n ih => exact alike_andThen (getBit_alike h) fun b u w g => ih _ g

/-! ### Ending a command -/

theorem conclude_alike {s t : State} {r r' : Run Word64} (h : RunsAlike s t r r') :
    EndsAlike s t (conclude r) (conclude r') := by
  cases r with
  | done a u =>
    cases r' with
    | done b w =>
      obtain ⟨rfl, ⟨h1, h2, h3⟩, h4, h5⟩ := h
      exact ⟨⟨h1, h2, h3⟩, [_], congrArg (· ++ _) h4, congrArg (· ++ _) h5⟩
    | raised => exact h.elim
  | raised st u =>
    cases r' with
    | done => exact h.elim
    | raised st' w =>
      obtain ⟨rfl, ⟨h1, h2, h3⟩, h4, h5⟩ := h
      exact ⟨⟨h1, h2, h3⟩, [_], congrArg (· ++ _) h4, congrArg (· ++ _) h5⟩

/-! ### LZINV -/

/-- As EndsAlike, LZINV at the same place. -/
def StepsAlike (s t : State) (o o' : Host.Outcome State Fault Refusal) : Prop :=
  match o, o' with
  | .next u, .next w =>
    Alike u w ∧ w.lzi = u.lzi ∧ ∃ l, u.responses = s.responses ++ l ∧ w.responses = t.responses ++ l
  | .fault a, .fault b => b = a
  | .refused a, .refused b => b = a
  | _, _ => False

/-- An operation of LZINV on states that agree, LZINV at the same place, ends alike. -/
def StepAlike (f : State → Host.Outcome State Fault Refusal) : Prop :=
  ∀ s t, Alike s t → t.lzi = s.lzi → StepsAlike s t (f s) (f t)

theorem lziCorrupt_alike : StepAlike lziCorrupt := fun _ _ h _ => ⟨h, rfl, [_], rfl, rfl⟩

theorem lziAt_alike (sEnd d0 : Nat) (phase : LziPhase) : StepAlike (lziAt sEnd d0 phase) :=
  fun _ _ h _ => ⟨h, rfl, [], by simp, by simp⟩

theorem lziFinish_alike (sEnd d0 : Nat) : StepAlike (lziFinish sEnd d0) := fun s t h hl => by
  unfold lziFinish
  rw [h.1]
  split
  · exact lziCorrupt_alike s t h hl
  · exact ⟨⟨rfl, h.2⟩, rfl, [_], rfl, rfl⟩

theorem lziExtension_alike (sEnd d0 : Nat) (phase : LziPhase) : StepAlike (lziExtension sEnd d0 phase) := fun s t h hl => by
  unfold lziExtension
  rw [h.1]
  split
  · exact lziCorrupt_alike s t h hl
  · exact lziAt_alike _ _ _ s t h hl

theorem lziAfterLiterals_alike (sEnd d0 mat : Nat) : StepAlike (lziAfterLiterals sEnd d0 mat) := fun s t h hl => by
  unfold lziAfterLiterals
  rw [h.1]
  split
  · exact lziFinish_alike _ _ s t h hl
  · split
    · exact lziCorrupt_alike s t h hl
    · exact lziAt_alike _ _ _ s t h hl

theorem lziLiterals_alike (sEnd d0 len mat : Nat) : StepAlike (lziLiterals sEnd d0 len mat) := fun s t h hl => by
  unfold lziLiterals
  rw [h.1]
  split
  · exact lziCorrupt_alike s t h hl
  · split
    · exact lziAfterLiterals_alike _ _ _ s t h hl
    · exact lziAt_alike _ _ _ s t h hl

/-- An operation of LZINV on two states that hold the responses of two others. -/
theorem steps_from {s t u w : State} {o o' : Host.Outcome State Fault Refusal} (h : StepsAlike u w o o')
    (h1 : u.responses = s.responses) (h2 : w.responses = t.responses) : StepsAlike s t o o' := by
  unfold StepsAlike at h ⊢
  rwa [h1, h2] at h

theorem lziMatch_alike (sEnd d0 dist len : Nat) : StepAlike (lziMatch sEnd d0 dist len) := fun s t h hl => by
  obtain ⟨⟩ := s
  obtain ⟨⟩ := t
  obtain ⟨rfl, rfl, rfl⟩ := h
  unfold lziMatch
  dsimp only
  split
  · exact lziCorrupt_alike _ _ ⟨rfl, rfl, rfl⟩ hl
  · split
    · rfl
    · split
      · exact steps_from (lziFinish_alike _ _ _ _ ⟨rfl, rfl, rfl⟩ hl) rfl rfl
      · exact steps_from (lziAt_alike _ _ _ _ _ ⟨rfl, rfl, rfl⟩ hl) rfl rfl

theorem lziToken_alike (lit mat : BitVec 4) : StepAlike (lziToken lit mat) := fun s t h hl => by
  unfold lziToken
  rw [hl]
  split
  · split
    · exact lziExtension_alike _ _ _ s t h hl
    · exact lziLiterals_alike _ _ _ _ s t h hl
  · rfl

theorem lziLenExt_alike (e : Byte) : StepAlike (lziLenExt e) := fun s t h hl => by
  unfold lziLenExt
  rw [hl]
  split
  · split
    · exact lziExtension_alike _ _ _ s t h hl
    · exact lziLiterals_alike _ _ _ _ s t h hl
  · split
    · exact lziExtension_alike _ _ _ s t h hl
    · exact lziMatch_alike _ _ _ _ s t h hl
  · rfl

theorem lziLiteral_alike (b : Byte) : StepAlike (lziLiteral b) := fun s t h hl => by
  obtain ⟨⟩ := s
  obtain ⟨⟩ := t
  obtain ⟨rfl, rfl, rfl⟩ := h
  dsimp only at hl
  subst hl
  unfold lziLiteral
  dsimp only
  split
  · split
    · exact steps_from (lziAfterLiterals_alike _ _ _ _ _ ⟨rfl, rfl, rfl⟩ rfl) rfl rfl
    · exact steps_from (lziAt_alike _ _ _ _ _ ⟨rfl, rfl, rfl⟩ rfl) rfl rfl
  · rfl

theorem lziDist_alike (d : BitVec 16) : StepAlike (lziDist d) := fun s t h hl => by
  unfold lziDist
  rw [hl]
  split
  · split
    · exact lziExtension_alike _ _ _ s t h hl
    · exact lziMatch_alike _ _ _ _ s t h hl
  · rfl

/-- One element, fetched and run (44 R197). -/
theorem lziStep_alike (phase : LziPhase) : StepAlike (lziStep phase) := fun s t h hl => by
  have g : ∀ f : State → Host.Outcome State Fault Refusal, StepAlike f → ∀ p : Word32,
      StepsAlike s t (f { s with srcPos := p }) (f { t with srcPos := p }) := fun f hf p =>
    steps_from (hf { s with srcPos := p } { t with srcPos := p } ⟨by rw [h.1], h.2⟩ hl) rfl rfl
  obtain ⟨⟩ := s
  obtain ⟨k, _, _, _, _, _, _⟩ := t
  obtain ⟨rfl, rfl, rfl⟩ := h
  unfold lziStep lziFetch lziByte
  dsimp only at g ⊢
  cases memRead k.src k.srcPos.toNat with
  | none => rfl
  | some b =>
    cases phase with
    | token =>
      simp only [Option.map_some, decodeToken]
      exact g _ (lziToken_alike _ _) _
    | litExt len mat => exact g (lziLenExt b) (lziLenExt_alike b) (k.srcPos + 1)
    | matchExt dist len => exact g (lziLenExt b) (lziLenExt_alike b) (k.srcPos + 1)
    | literals left mat => exact g (lziLiteral b) (lziLiteral_alike b) (k.srcPos + 1)
    | dist mat =>
      dsimp only [Option.map_some]
      cases memRead k.src (k.srcPos + 1).toNat with
      | none => rfl
      | some hi =>
        simp only [Option.map_some, decodeDist]
        exact g _ (lziDist_alike _) _

theorem lziRun_alike (fuel : Nat) : StepAlike (lziRun fuel) := by
  induction fuel with
  | zero => exact fun s t h hl => ⟨h, hl, [], by simp, by simp⟩
  | succ n ih =>
    intro s t h hl
    unfold lziRun
    rw [hl]
    split
    · exact ⟨h, hl, [], by simp, by simp⟩
    · rename_i phase _
      have hs := lziStep_alike phase s t h hl
      revert hs
      cases lziStep phase s <;> cases lziStep phase t <;> intro hs <;> try exact hs.elim
      · rename_i u w
        obtain ⟨h1, h2, l, h3, h4⟩ := hs
        have hr := ih u w h1 h2
        revert hr
        dsimp only
        cases lziRun n u <;> cases lziRun n w <;> intro hr <;> try exact hr
        obtain ⟨g1, g2, m, g3, g4⟩ := hr
        exact ⟨g1, g2, l ++ m, by rw [g3, h3, List.append_assoc], by rw [g4, h4, List.append_assoc]⟩
      · exact hs
      · exact hs

end Sys2Proof.Machine
end

