-- ==== Sys2Proof/Laws/PerInstr.lean ====
section
/-! SUPPORT. The family EncodeLength: an instruction's encoding has the bits the table gives its row. -/

namespace Sys2Proof

@[simp] theorem length_bitsOf (n v : Nat) : (bitsOf n v).length = n := by
  induction n with
  | zero => rfl
  | succ n ih => simp [bitsOf, ih]

@[simp] theorem length_commandBits (op a : BitVec 8) (v : Word64) : (commandBits op a v).length = 80 :=
  length_bitsOf _ _

theorem length_egCodeBits (signed : Bool) (n r : Nat) (neg : Bool) :
    (egCodeBits signed n r neg).length = 2 * n + 1 + (if signed && n != 0 then 1 else 0) := by
  unfold egCodeBits
  split <;> simp <;> omega

end Sys2Proof

namespace Sys2Proof.Laws.EncodeLength

open Sys2Proof

/-- The encoding of the instruction has as many bits as its row in spec/opcode_table.json. -/
def Statement (i : Instr) : Prop := (encode i).length = nbitsOf i

theorem wbit (b : Bool) : Statement (.wbit b) := length_commandBits _ _ _

theorem wbits (a : BitVec 8) (v : Word64) : Statement (.wbits a v) := length_commandBits _ _ _

theorem wflush : Statement (.wflush) := length_commandBits _ _ _

theorem wclose : Statement (.wclose) := length_commandBits _ _ _

theorem wcount : Statement (.wcount) := length_commandBits _ _ _

theorem rbit : Statement (.rbit) := length_commandBits _ _ _

theorem rbits (a : BitVec 8) : Statement (.rbits a) := length_commandBits _ _ _

theorem rclose : Statement (.rclose) := length_commandBits _ _ _

theorem rcount : Statement (.rcount) := length_commandBits _ _ _

theorem egenc (v : Word64) : Statement (.egenc v) := length_commandBits _ _ _

theorem egdec : Statement (.egdec) := length_commandBits _ _ _

theorem lzfwd (v : Word64) : Statement (.lzfwd v) := length_commandBits _ _ _

theorem lzinv (v : Word64) : Statement (.lzinv v) := length_commandBits _ _ _

theorem lzmax (v : Word64) : Statement (.lzmax v) := length_commandBits _ _ _

theorem crw (a : BitVec 8) (v : Word64) : Statement (.crw a v) := length_commandBits _ _ _

theorem crr (a : BitVec 8) : Statement (.crr a) := length_commandBits _ _ _

theorem lzToken (lit mat : BitVec 4) : Statement (.lzToken lit mat) := length_bitsOf _ _

theorem lzLenExt (e : Byte) : Statement (.lzLenExt e) := length_bitsOf _ _

theorem lzLiteral (b : Byte) : Statement (.lzLiteral b) := length_bitsOf _ _

theorem lzDist16 (d : BitVec 16) : Statement (.lzDist16 d) := by simp [Statement, encode, distBytes, nbitsOf]

theorem eguN0 : Statement (.eguN0) := length_egCodeBits _ _ _ _

theorem eguN1 (x : BitVec 1) : Statement (.eguN1 x) := length_egCodeBits _ _ _ _

theorem eguN2 (x : BitVec 2) : Statement (.eguN2 x) := length_egCodeBits _ _ _ _

theorem eguN3 (x : BitVec 3) : Statement (.eguN3 x) := length_egCodeBits _ _ _ _

theorem eguN4 (x : BitVec 4) : Statement (.eguN4 x) := length_egCodeBits _ _ _ _

theorem eguN5 (x : BitVec 5) : Statement (.eguN5 x) := length_egCodeBits _ _ _ _

theorem eguN6 (x : BitVec 6) : Statement (.eguN6 x) := length_egCodeBits _ _ _ _

theorem eguN7 (x : BitVec 7) : Statement (.eguN7 x) := length_egCodeBits _ _ _ _

theorem eguN8 : Statement (.eguN8) := length_egCodeBits _ _ _ _

theorem egsN0 : Statement (.egsN0) := length_egCodeBits _ _ _ _

theorem egsN1 (x : BitVec 1) (neg : Bool) : Statement (.egsN1 x neg) := length_egCodeBits _ _ _ _

theorem egsN2 (x : BitVec 2) (neg : Bool) : Statement (.egsN2 x neg) := length_egCodeBits _ _ _ _

theorem egsN3 (x : BitVec 3) (neg : Bool) : Statement (.egsN3 x neg) := length_egCodeBits _ _ _ _

theorem egsN4 (x : BitVec 4) (neg : Bool) : Statement (.egsN4 x neg) := length_egCodeBits _ _ _ _

theorem egsN5 (x : BitVec 5) (neg : Bool) : Statement (.egsN5 x neg) := length_egCodeBits _ _ _ _

theorem egsN6 (x : BitVec 6) (neg : Bool) : Statement (.egsN6 x neg) := length_egCodeBits _ _ _ _

theorem egsN7 (x : BitVec 7) (neg : Bool) : Statement (.egsN7 x neg) := length_egCodeBits _ _ _ _

theorem egsN8 (neg : Bool) : Statement (.egsN8 neg) := length_egCodeBits _ _ _ _

end Sys2Proof.Laws.EncodeLength
end

