-- ==== Sys2Proof/Laws/Writer.lean ====
section
/-! SUPPORT. What the writer's operations do: which state a request, a flush and a packed bit can reach, and what they come to
when the sink answers. -/

namespace Sys2Proof.Machine

/-! ### Bit indices and counters -/

theorem bit_pred {x : BitVec 3} (h : x ≠ 0) : (x - 1).toNat = x.toNat - 1 ∧ 1 ≤ x.toNat := by
  revert x; decide

theorem count_step {c : Word64} {n : Nat} (h : c = BitVec.ofNat 64 n) : c + 1 = BitVec.ofNat 64 (n + 1) := by
  subst h; rw [BitVec.ofNat_add]; rfl

/-! ### Runs -/

/-- A run that goes on meets `P`, a run that has ended its command meets `Q`. -/
def Run.Meets {α : Type} (r : Run α) (P : α → State → Prop) (Q : Status → State → Prop) : Prop :=
  match r with
  | .done a s => P a s
  | .raised st s => Q st s

theorem Run.Meets.andThen {α β : Type} {r : Run α} {f : α → State → Run β} {P : α → State → Prop}
    {P' : β → State → Prop} {Q : Status → State → Prop} (h : r.Meets P Q)
    (hf : ∀ a s, P a s → (f a s).Meets P' Q) : (andThen r f).Meets P' Q := by
  cases r with
  | done a s => exact hf a s h
  | raised st s => exact h

theorem Run.Meets.imp {α : Type} {r : Run α} {P P' : α → State → Prop} {Q Q' : Status → State → Prop}
    (h : r.Meets P Q) (hp : ∀ a s, P a s → P' a s) (hq : ∀ st s, Q st s → Q' st s) : r.Meets P' Q' := by
  cases r with
  | done a s => exact hp a s h
  | raised st s => exact hq st s h

/-- A command whose run meets `P` or `Q` answers accordingly. -/
theorem conclude_of_meets {r : Run Word64} {P : Word64 → State → Prop} {Q : Status → State → Prop} (h : r.Meets P Q) :
    (∃ v t, conclude r = .next (respond t .ok v) ∧ P v t) ∨
      ∃ st t, conclude r = .next (respond t st 0) ∧ Q st t := by
  cases r with
  | done v t => exact .inl ⟨v, t, rfl, h⟩
  | raised st t => exact .inr ⟨st, t, rfl, h⟩

/-! ### What the writer's operations leave alone -/

/-- Only the writer, the sink, the sink's coming answers and the counter of free values may differ, and what the sink had it
still has (20 R53). -/
def WriteFrame (s t : State) : Prop :=
  t = { s with
    writer := t.writer, sink := t.sink
    env := { s.env with sinkScript := t.env.sinkScript, draws := t.env.draws } } ∧
  s.sink.bytes <+: t.sink.bytes

theorem WriteFrame.refl (s : State) : WriteFrame s s := ⟨rfl, List.prefix_rfl⟩

theorem WriteFrame.trans {s t u : State} (h : WriteFrame s t) (h' : WriteFrame t u) : WriteFrame s u := by
  obtain ⟨h1, h2⟩ := h
  obtain ⟨h3, h4⟩ := h'
  refine ⟨?_, h2.trans h4⟩
  rw [h3, h1]

/-- From `s` to `t` the sink answered, each time with success; of the answers `s` had, `t` has the rest. -/
abbrev Answered (s t : State) : Prop :=
  ∃ n, s.env.sinkScript = List.replicate n .ok ++ t.env.sinkScript

/-- From `s` to `t` the sink answered with success up to a failure, the last answer taken: one of those `s` had, or a free
one after them. -/
abbrev Failed (s t : State) : Prop :=
  ∃ n, (∃ k, s.env.sinkScript = List.replicate n .ok ++ .fail k :: t.env.sinkScript) ∨
    (s.env.sinkScript = List.replicate n .ok ∧ t.env.sinkScript = [])

theorem Answered.refl (s : State) : Answered s s := ⟨0, rfl⟩

theorem Answered.trans {s t u : State} : Answered s t → Answered t u → Answered s u :=
  fun ⟨m, h⟩ ⟨n, g⟩ => ⟨m + n, by rw [h, g, ← List.append_assoc, ← List.replicate_add]⟩

theorem Answered.failed {s t u : State} : Answered s t → Failed t u → Failed s u := by
  rintro ⟨m, h⟩ ⟨n, ⟨k, g⟩ | ⟨g, g'⟩⟩
  · exact ⟨m + n, .inl ⟨k, by rw [h, g, ← List.append_assoc, ← List.replicate_add]⟩⟩
  · exact ⟨m + n, .inr ⟨by rw [h, g, ← List.replicate_add], g'⟩⟩

/-- A writer's operation: it keeps the sticky bits of the writer and meets no failing answer, or meets one and ends the
command with a recorded I/O failure. -/
abbrev Writes {α : Type} (s : State) (r : Run α) : Prop :=
  r.Meets
    (fun _ t => WriteFrame s t ∧ t.writer.ioFault = s.writer.ioFault ∧ t.writer.closed = s.writer.closed ∧ Answered s t)
    (fun st t => st = .ioFailure ∧ WriteFrame s t ∧ t.writer.ioFault = true ∧
      (s.writer.closed = true → t.writer.closed = true) ∧ Failed s t)

theorem writes_done {α : Type} {s t : State} (a : α) (h : WriteFrame s t) (h1 : t.writer.ioFault = s.writer.ioFault)
    (h2 : t.writer.closed = s.writer.closed) (h3 : Answered s t) : Writes s (.done a t : Run α) := ⟨h, h1, h2, h3⟩

theorem writes_andThen {α β : Type} {s : State} {r : Run α} {f : α → State → Run β} (h : Writes s r)
    (hf : ∀ a t, Writes t (f a t)) : Writes s (andThen r f) := by
  refine h.andThen fun a t ⟨h1, h2, h3, h8⟩ =>
    (hf a t).imp (fun _ u ⟨h4, h5, h6, h9⟩ => ?_) (fun st u ⟨h4, h5, h6, h7, h9⟩ => ?_)
  · exact ⟨h1.trans h4, h5.trans h2, h6.trans h3, h8.trans h9⟩
  · exact ⟨h4, h1.trans h5, h6, fun hc => h7 (h3.trans hc), h8.failed h9⟩

theorem drawSink_frame (s : State) : WriteFrame s (drawSink s).2 := by
  unfold drawSink
  split
  · exact ⟨rfl, List.prefix_rfl⟩
  · exact ⟨rfl, List.prefix_rfl⟩

/-- The answer drawn is the next one `s` had, or a free one. -/
theorem drawSink_answers (s : State) :
    match drawSink s with
    | (.ok, t) => Answered s t
    | (.fail _, t) => Failed s t := by
  unfold drawSink
  cases hs : s.env.sinkScript with
  | nil =>
    dsimp only
    cases Config.sinkAnswer s.env.draws with
    | ok => exact ⟨0, rfl⟩
    | fail k => exact ⟨0, .inr ⟨hs, hs⟩⟩
  | cons a rest =>
    cases a with
    | ok => exact ⟨1, hs⟩
    | fail k => exact ⟨0, .inl ⟨k, hs⟩⟩

theorem writes_ioFail {α : Type} {s t : State} (h : WriteFrame s t) (hc : t.writer.closed = s.writer.closed)
    (ha : Failed s t) : Writes s (ioFail t : Run α) := by
  refine ⟨rfl, h.trans ⟨rfl, List.prefix_rfl⟩, rfl, fun h1 => ?_, ha⟩
  simp [nextDraw, faultedWriter, hc, h1]

theorem sinkPush_writes (bytes : List Byte) (s : State) : Writes s (sinkPush bytes s) := by
  have h := drawSink_frame s
  have hw := drawSink_writer s
  have ha := drawSink_answers s
  unfold sinkPush
  split
  · rename_i u hu
    rw [hu] at h hw ha
    exact writes_done _ (h.trans ⟨rfl, List.prefix_append ..⟩) (congrArg Writer.ioFault hw) (congrArg Writer.closed hw) ha
  · rename_i k u hu
    rw [hu] at h hw ha
    exact writes_ioFail (h.trans ⟨rfl, List.prefix_append ..⟩) (congrArg Writer.closed hw) ha

theorem sinkFlush_writes (s : State) : Writes s (sinkFlush s) := by
  have h := drawSink_frame s
  have hw := drawSink_writer s
  have ha := drawSink_answers s
  unfold sinkFlush
  split
  · rename_i u hu
    rw [hu] at h hw ha
    exact writes_done _ (h.trans ⟨rfl, List.prefix_rfl⟩) (congrArg Writer.ioFault hw) (congrArg Writer.closed hw) ha
  · rename_i k u hu
    rw [hu] at h hw ha
    exact writes_ioFail (h.trans ⟨rfl, List.prefix_rfl⟩) (congrArg Writer.closed hw) ha

theorem sinkClose_writes (s : State) : Writes s (sinkClose s) := by
  have h := drawSink_frame s
  have hw := drawSink_writer s
  have ha := drawSink_answers s
  unfold sinkClose
  split
  · rename_i u hu
    rw [hu] at h hw ha
    exact writes_done _ (h.trans ⟨rfl, List.prefix_rfl⟩) (congrArg Writer.ioFault hw) (congrArg Writer.closed hw) ha
  · rename_i k u hu
    rw [hu] at h hw ha
    exact writes_ioFail (h.trans ⟨rfl, List.prefix_rfl⟩) (congrArg Writer.closed hw) ha

/-- An operation on a state that differs in the writer only, its sticky bits the same. -/
theorem writes_of_writer {α : Type} {s t : State} {r : Run α} (h : Writes t r) (hf : WriteFrame s t)
    (h1 : t.writer.ioFault = s.writer.ioFault) (h2 : t.writer.closed = s.writer.closed) (ha : Answered s t) :
    Writes s r :=
  h.imp (fun _ _ ⟨h3, h4, h5, h7⟩ => ⟨hf.trans h3, h4.trans h1, h5.trans h2, ha.trans h7⟩)
    (fun _ _ ⟨h3, h4, h5, h6, h7⟩ => ⟨h3, hf.trans h4, h5, fun hc => h6 (h2.trans hc), ha.failed h7⟩)

theorem flushBuffer_writes (s : State) : Writes s (flushBuffer s) := by
  unfold flushBuffer
  refine writes_andThen ?_ fun _ t =>
    writes_of_writer (sinkFlush_writes _) (t := { t with writer := compacted t.writer }) ⟨rfl, List.prefix_rfl⟩ rfl rfl
      (Answered.refl t)
  split
  · exact sinkPush_writes _ s
  · exact writes_done _ (WriteFrame.refl s) rfl rfl (Answered.refl s)

theorem packed_ioFault (b : Bool) (w : Writer) : (packed b w).ioFault = w.ioFault := by
  unfold packed; dsimp only; split <;> rfl

theorem packed_closed (b : Bool) (w : Writer) : (packed b w).closed = w.closed := by
  unfold packed; dsimp only; split <;> rfl

theorem putBit_writes (b : Bool) (s : State) : Writes s (putBit b s) := by
  have hf : WriteFrame s { s with writer := packed b s.writer } := ⟨rfl, List.prefix_rfl⟩
  unfold putBit
  dsimp only
  split
  · exact writes_of_writer (flushBuffer_writes _) hf (packed_ioFault b _) (packed_closed b _) (Answered.refl s)
  · exact writes_done _ hf (packed_ioFault b _) (packed_closed b _) (Answered.refl s)

/-- Everything PutBit of any number of bits can do to the rest of the machine and to the sticky bits. -/
theorem putBits_writes (bs : List Bool) (s : State) : Writes s (putBits bs s) := by
  induction bs generalizing s with
  | nil => exact writes_done _ (WriteFrame.refl s) rfl rfl (Answered.refl s)
  | cons b bs ih => exact writes_andThen (putBit_writes b s) fun _ t => ih t

end Sys2Proof.Machine
end

