-- ==== Sys2Proof/Laws/Reader.lean ====
section
/-! SUPPORT. What the reader's operations do: what they leave alone, which faults they record, and that GetBit takes the next
bit of the stream (41 R120, R129). -/

namespace Sys2Proof.Machine

/-! ### What the reader's operations leave alone -/

/-- Only the reader, the source and that it was read, the source's coming answers and the counter of free values may differ; SOURCE.bytes stays,
and what has been delivered stays delivered (20 R53). -/
def ReadFrame (s t : State) : Prop :=
  t = { s with
    reader := t.reader, source := t.source, sourceStarted := t.sourceStarted
    env := { s.env with sourceScript := t.env.sourceScript, draws := t.env.draws } } ∧
  t.source.bytes = s.source.bytes ∧ s.source.next ≤ t.source.next

theorem ReadFrame.refl (s : State) : ReadFrame s s := ⟨rfl, rfl, le_rfl⟩

theorem ReadFrame.trans {s t u : State} (h : ReadFrame s t) (h' : ReadFrame t u) : ReadFrame s u := by
  obtain ⟨h1, h2, h3⟩ := h
  obtain ⟨h4, h5, h6⟩ := h'
  refine ⟨?_, h5.trans h2, h3.trans h6⟩
  rw [h4, h1]

/-- From `s` to `t` the source answered, each time with success; of the answers `s` had, `t` has the rest. -/
abbrev Delivered (s t : State) : Prop :=
  ∃ l, s.env.sourceScript = l ++ t.env.sourceScript ∧ l.all delivers = true

/-- From `s` to `t` the source answered with success up to a failure, the last answer taken: one of those `s` had, or a free
one after them. -/
abbrev Balked (s t : State) : Prop :=
  ∃ l, l.all delivers = true ∧
    ((∃ k, s.env.sourceScript = l ++ .fail k :: t.env.sourceScript) ∨ (s.env.sourceScript = l ∧ t.env.sourceScript = []))

theorem Delivered.refl (s : State) : Delivered s s := ⟨[], rfl, rfl⟩

theorem Delivered.trans {s t u : State} : Delivered s t → Delivered t u → Delivered s u :=
  fun ⟨l, h, hl⟩ ⟨m, g, hm⟩ => ⟨l ++ m, by rw [h, g, List.append_assoc], by rw [List.all_append, hl, hm]; rfl⟩

theorem Delivered.balked {s t u : State} : Delivered s t → Balked t u → Balked s u := by
  rintro ⟨l, h, hl⟩ ⟨m, hm, ⟨k, g⟩ | ⟨g, g'⟩⟩
  · exact ⟨l ++ m, by rw [List.all_append, hl, hm]; rfl, .inl ⟨k, by rw [h, g, List.append_assoc]⟩⟩
  · exact ⟨l ++ m, by rw [List.all_append, hl, hm]; rfl, .inr ⟨by rw [h, g], g'⟩⟩

/-- The answer drawn is the next one `s` had, or a free one. -/
theorem drawSource_answers (s : State) :
    match drawSource s with
    | (.deliver _, t) => Delivered s t
    | (.fail _, t) => Balked s t := by
  unfold drawSource
  cases hs : s.env.sourceScript with
  | nil =>
    dsimp only
    cases Config.sourceAnswer s.env.draws with
    | deliver k => exact ⟨[], rfl, rfl⟩
    | fail k => exact ⟨[], rfl, .inr ⟨hs, hs⟩⟩
  | cons a rest =>
    cases a with
    | deliver k => exact ⟨[.deliver k], hs, rfl⟩
    | fail k => exact ⟨[], rfl, .inl ⟨k, hs⟩⟩

/-- A reader's operation: it keeps the reader's sticky bits, or ends the command with one recorded: R_EOS with END_OF_STREAM,
R_IOFAULT with IO_FAILURE, where it has met a failing answer. -/
abbrev Reads {α : Type} (s : State) (r : Run α) : Prop :=
  r.Meets
    (fun _ t => ReadFrame s t ∧ t.reader.ioFault = s.reader.ioFault ∧ t.reader.eos = s.reader.eos ∧
      t.reader.closed = s.reader.closed ∧ Delivered s t)
    (fun st t => ReadFrame s t ∧
      (st = .endOfStream ∧ t.reader.eos = true ∧ t.reader.ioFault = s.reader.ioFault ∧
          t.reader.closed = s.reader.closed ∧ Delivered s t ∨
        st = .ioFailure ∧ t.reader.ioFault = true ∧ (s.reader.eos = true → t.reader.eos = true) ∧
          (s.reader.closed = true → t.reader.closed = true) ∧ Balked s t))

theorem reads_done {α : Type} {s t : State} (a : α) (h : ReadFrame s t) (h1 : t.reader.ioFault = s.reader.ioFault)
    (h2 : t.reader.eos = s.reader.eos) (h3 : t.reader.closed = s.reader.closed) (h4 : Delivered s t) :
    Reads s (.done a t : Run α) := ⟨h, h1, h2, h3, h4⟩

theorem reads_andThen {α β : Type} {s : State} {r : Run α} {f : α → State → Run β} (h : Reads s r)
    (hf : ∀ a t, Reads t (f a t)) : Reads s (andThen r f) := by
  refine h.andThen fun a t ⟨h1, h2, h3, h4, h5⟩ =>
    (hf a t).imp (fun _ u ⟨g1, g2, g3, g4, g5⟩ => ?_) (fun st u ⟨g1, g⟩ => ?_)
  · exact ⟨h1.trans g1, g2.trans h2, g3.trans h3, g4.trans h4, h5.trans g5⟩
  · refine ⟨h1.trans g1, g.imp (fun ⟨a1, a2, a3, a4, a5⟩ => ⟨a1, a2, a3.trans h2, a4.trans h4, h5.trans a5⟩)
      fun ⟨a1, a2, a3, a4, a5⟩ => ⟨a1, a2, fun hs => a3 (h3.trans hs), fun hs => a4 (h4.trans hs), h5.balked a5⟩⟩

theorem drawSource_frame (s : State) : ReadFrame s (drawSource s).2 := by
  unfold drawSource
  split
  · exact ⟨rfl, rfl, le_rfl⟩
  · exact ⟨rfl, rfl, le_rfl⟩

theorem reads_endOfStream {α : Type} {s t : State} (h : ReadFrame s t) (h1 : t.reader.ioFault = s.reader.ioFault)
    (h3 : t.reader.closed = s.reader.closed) (h4 : Delivered s t) : Reads s (endOfStream t : Run α) :=
  ⟨h.trans ⟨rfl, rfl, le_rfl⟩, .inl ⟨rfl, rfl, h1, h3, h4⟩⟩

theorem reads_sourceFail {α : Type} {s t : State} (h : ReadFrame s t) (h2 : t.reader.eos = s.reader.eos)
    (h3 : t.reader.closed = s.reader.closed) (h4 : Balked s t) : Reads s (sourceFail t : Run α) := by
  refine ⟨h.trans ⟨rfl, rfl, le_rfl⟩, .inr ⟨rfl, rfl, fun h => ?_, fun h => ?_, h4⟩⟩
  · simp [nextDraw, h2, h]
  · simp [nextDraw, h3, h]

theorem sourceRead_reads (max : Nat) (s : State) : Reads s (sourceRead max s) := by
  have h := drawSource_frame s
  have hw := drawSource_reader s
  have ha := drawSource_answers s
  unfold sourceRead
  split
  · rename_i k u hu
    rw [hu] at h hw ha
    exact reads_sourceFail (h.trans ⟨rfl, rfl, le_rfl⟩) (congrArg Reader.eos hw) (congrArg Reader.closed hw) ha
  · rename_i k u hu
    rw [hu] at h hw ha
    exact reads_done _ (h.trans ⟨rfl, rfl, Nat.le_add_right _ _⟩) (congrArg Reader.ioFault hw)
      (congrArg Reader.eos hw) (congrArg Reader.closed hw) ha

theorem sourceClose_reads (s : State) : Reads s (sourceClose s) := by
  have h := drawSource_frame s
  have hw := drawSource_reader s
  have ha := drawSource_answers s
  unfold sourceClose
  split
  · rename_i k u hu
    rw [hu] at h hw ha
    exact reads_sourceFail (h.trans ⟨rfl, rfl, le_rfl⟩) (congrArg Reader.eos hw) (congrArg Reader.closed hw) ha
  · rename_i k u hu
    rw [hu] at h hw ha
    exact reads_done _ (h.trans ⟨rfl, rfl, le_rfl⟩) (congrArg Reader.ioFault hw) (congrArg Reader.eos hw)
      (congrArg Reader.closed hw) ha

theorem refill_reads (s : State) : Reads s (refill s) := by
  unfold refill
  refine reads_andThen (sourceRead_reads _ s) fun bs t => ?_
  split
  · exact reads_endOfStream (ReadFrame.refl t) rfl rfl (Delivered.refl t)
  · exact reads_done _ ⟨rfl, rfl, le_rfl⟩ rfl rfl rfl (Delivered.refl t)

theorem advanced_sticky (r : Reader) :
    (advanced r).ioFault = r.ioFault ∧ (advanced r).eos = r.eos ∧ (advanced r).closed = r.closed := by
  unfold advanced; dsimp only; split <;> exact ⟨rfl, rfl, rfl⟩

theorem getBit_reads (s : State) : Reads s (getBit s) := by
  unfold getBit
  refine reads_andThen ?_ fun _ t => ?_
  · split
    · exact refill_reads s
    · exact reads_done _ (ReadFrame.refl s) rfl rfl rfl (Delivered.refl s)
  · obtain ⟨h1, h2, h3⟩ := advanced_sticky t.reader
    exact reads_done _ ⟨rfl, rfl, le_rfl⟩ h1 h2 h3 (Delivered.refl t)

/-- Everything GetBit of any number of bits can do to the rest of the machine and to the sticky bits. -/
theorem getBits_reads (n x : Nat) (s : State) : Reads s (getBits n x s) := by
  induction n generalizing x s with
  | zero => exact reads_done _ (ReadFrame.refl s) rfl rfl rfl (Delivered.refl s)
  | succ n ih => exact reads_andThen (getBit_reads s) fun b t => ih _ t

/-! ### The next bits of the stream -/

/-- A reader that hands out bits: it has its invariant, no fault, and is open. -/
abbrev ReaderOpen (s : State) : Prop :=
  ReaderOk s ∧ s.reader.ioFault = false ∧ s.reader.eos = false ∧ s.reader.closed = false

/-- The bit a reader stands at heads the bits of its byte that are left. -/
theorem drop_byteBits : ∀ (bit : BitVec 3) (cur : Byte),
    (byteBits cur).drop (7 - bit.toNat) = cur.getLsbD bit.toNat :: (byteBits cur).drop (8 - bit.toNat) := by
  decide +kernel

theorem advanced_of_ne {r : Reader} (h : r.bit ≠ 0) :
    advanced r = { r with count := r.count + 1, bit := r.bit - 1 } := by unfold advanced; exact if_neg h

theorem advanced_of_zero {r : Reader} (h : r.bit = 0) :
    advanced r = { r with count := r.count + 1, bit := 7, pos := r.pos + 1 } := by unfold advanced; exact if_pos h

/-- A bit taken from a buffer that is not empty (41 R120). -/
theorem take_bit {s : State} (h : ReaderOpen s) (hp : s.reader.pos < s.reader.fill) :
    ReaderOpen { s with reader := advanced s.reader } ∧
      pendingBits s = currentBit s.reader :: pendingBits { s with reader := advanced s.reader } := by
  obtain ⟨⟨h1, h2, h3, h4, h5, h6, h7, h8, h9⟩, e1, e2, e3⟩ := h
  have hlt := s.reader.bit.isLt
  obtain ⟨cur, rest, hcur⟩ : ∃ cur rest, (s.reader.buf.take s.reader.fill).drop s.reader.pos = cur :: rest ∧
      s.reader.buf.getD s.reader.pos 0 = cur ∧ (s.reader.buf.take s.reader.fill).drop (s.reader.pos + 1) = rest := by
    have hl : s.reader.pos < (s.reader.buf.take s.reader.fill).length := by simp; omega
    refine ⟨_, _, List.drop_eq_getElem_cons hl, ?_, rfl⟩
    have : s.reader.pos < s.reader.buf.length := by omega
    simp [List.getD_eq_getElem?_getD, this]
  obtain ⟨hc1, hc2, hc3⟩ := hcur
  have hcount : ∀ m, 8 * (s.source.next - s.reader.fill + s.reader.pos) + (7 - s.reader.bit.toNat) + 1 = m →
      s.reader.count + 1 = BitVec.ofNat 64 m := fun m hm => by
    rw [← hm]; exact count_step h8
  by_cases hb : s.reader.bit = 0
  · have hbits : s.reader.bit.toNat = 0 := by simp [hb]
    rw [advanced_of_zero hb]
    refine ⟨⟨⟨h1, by simp only; omega, h3, fun h => absurd rfl h, h5, h6, h7, hcount _ ?_, h9⟩, e1, e2, e3⟩, ?_⟩
    · simp only [hbits, show (7 : BitVec 3).toNat = 7 from rfl]; omega
    · simp only [pendingBits, hc1, hc3, currentBit, hc2, List.cons_append, List.flatMap_cons, hbits,
        show (7 : BitVec 3).toNat = 7 from rfl]
      rw [List.drop_append_of_le_length (by simp [byteBits, length_bitsOf])]
      have := drop_byteBits 0 cur
      simp only [show (0 : BitVec 3).toNat = 0 from rfl] at this
      rw [this, List.drop_eq_nil_of_le (by simp [byteBits, length_bitsOf])]
      rfl
  · obtain ⟨hq, hq1⟩ := bit_pred hb
    rw [advanced_of_ne hb]
    refine ⟨⟨⟨h1, h2, h3, fun _ => hp, h5, h6, h7, hcount _ ?_, h9⟩, e1, e2, e3⟩, ?_⟩
    · simp only [hq]; omega
    · simp only [pendingBits, hc1, currentBit, hc2, List.cons_append, List.flatMap_cons, hq]
      have h8' : (byteBits cur).length = 8 := length_bitsOf _ _
      rw [List.drop_append_of_le_length (by omega), List.drop_append_of_le_length (by omega), drop_byteBits,
        show 7 - (s.reader.bit.toNat - 1) = 8 - s.reader.bit.toNat by omega]
      rfl

/-- What a refill leaves when it goes on (41 R121): the same bits to come, now in the buffer. -/
abbrev Refilled (s t : State) : Prop :=
  ReaderOpen t ∧ t.reader.pos < t.reader.fill ∧ pendingBits t = pendingBits s ∧ t.reader.count = s.reader.count ∧
  t.reader.bit = s.reader.bit

theorem reader_at_end {s : State} (h : ReaderOpen s) (hp : s.reader.pos = s.reader.fill) :
    s.reader.bit = 7 ∧ pendingBits s = (s.source.bytes.drop s.source.next).flatMap byteBits := by
  obtain ⟨⟨h1, h2, h3, h4, h5, h6, h7, h8, h9⟩, -⟩ := h
  have hb : s.reader.bit = 7 := by
    by_contra hb
    have := h4 hb
    omega
  refine ⟨hb, ?_⟩
  simp only [pendingBits, hb, show 7 - (7 : BitVec 3).toNat = 0 from rfl, List.drop_zero]
  rw [List.drop_eq_nil_of_le (by simp; omega), List.nil_append]

/-- The reader once `k` bytes have come from the source, at least one and no more than asked for. -/
theorem refilled_ok {s : State} {k : Nat} (h : ReaderOpen s) (hp : s.reader.pos = s.reader.fill) (hk : 1 ≤ k)
    (hm : k ≤ s.cfg.rBufsz) (hr : k ≤ (s.source.bytes.drop s.source.next).length) (env : Env) :
    Refilled s { s with
      reader := refilled ((s.source.bytes.drop s.source.next).take k) s.reader
      source := { s.source with next := s.source.next + k }
      sourceStarted := true
      env := env } := by
  obtain ⟨hb, hpend⟩ := reader_at_end h hp
  obtain ⟨⟨h1, h2, h3, h4, h5, h6, h7, h8, h9⟩, e1, e2, e3⟩ := h
  rw [List.length_drop] at hr
  have hl : ((s.source.bytes.drop s.source.next).take k).length = k := by
    rw [List.length_take, List.length_drop]; omega
  have htake : (refilled ((s.source.bytes.drop s.source.next).take k) s.reader).buf.take k =
      (s.source.bytes.drop s.source.next).take k := by
    simp only [refilled]
    rw [List.take_append_of_le_length (by omega), List.take_of_length_le (by omega)]
  refine ⟨⟨⟨?_, ?_, ?_, ?_, ?_, ?_, ?_, ?_, ?_⟩, e1, e2, e3⟩, ?_, ?_, rfl, rfl⟩
  · simp only [refilled, List.length_append, List.length_drop, hl, h1]; omega
  · exact Nat.zero_le _
  · simp only [refilled, hl]; exact hm
  · intro hne; exact absurd hb hne
  · simp only [refilled, hl]; omega
  · simp only; omega
  · simp only [refilled, hl, Nat.add_sub_cancel] at htake ⊢; exact htake
  · rw [show (refilled ((s.source.bytes.drop s.source.next).take k) s.reader).count = s.reader.count from rfl, h8]
    simp only [refilled, hl]
    congr 2
    omega
  · intro hs; exact absurd hs (by simp)
  · simp only [refilled, hl]; omega
  · rw [hpend]
    simp only [pendingBits, refilled, hl, hb, show 7 - (7 : BitVec 3).toNat = 0 from rfl, List.drop_zero] at htake ⊢
    rw [htake, ← List.drop_drop, List.take_append_drop]

theorem deliveredCount_range {k m r : Nat} (hr : r ≠ 0) (hm : 1 ≤ m) :
    1 ≤ deliveredCount k m r ∧ deliveredCount k m r ≤ m ∧ deliveredCount k m r ≤ r := by
  have h : deliveredCount k m r = max 1 (min k (min m r)) := if_neg hr
  omega

theorem drawSource_env (s : State) : (drawSource s).2 = { s with env := (drawSource s).2.env } := by
  unfold drawSource; split <;> rfl

/-- A refill that goes on (41 R121), whatever the source chose. -/
theorem refill_stream {s : State} (h : ReaderOpen s) (hp : s.reader.pos = s.reader.fill) :
    (refill s).Meets (fun _ t => Refilled s t) (fun _ _ => True) := by
  unfold refill sourceRead
  split
  · trivial
  · rename_i k u hu
    have e : u = { s with env := u.env } := by
      have := drawSource_env s
      rw [hu] at this
      exact this
    by_cases hz : (s.source.bytes.drop s.source.next).length = 0
    · have : s.source.bytes.drop s.source.next = [] := List.length_eq_zero_iff.mp hz
      rw [e]; simp only [andThen_done, this, List.take_nil, if_true]; trivial
    · obtain ⟨g1, g2, g3⟩ := deliveredCount_range (k := k) (m := s.cfg.rBufsz) hz s.cfg.rBufsz_pos
      rw [e]
      simp only [andThen_done]
      rw [if_neg (by rw [← List.length_eq_zero_iff, List.length_take]; omega)]
      exact refilled_ok h hp g1 g2 g3 u.env

/-- GetBit that goes on takes the next bit (41 R120). -/
theorem getBit_stream {s : State} (h : ReaderOpen s) :
    (getBit s).Meets
      (fun b t => ReaderOpen t ∧ pendingBits s = b :: pendingBits t ∧ t.reader.count = s.reader.count + 1)
      (fun _ _ => True) := by
  have hadv : ∀ r : Reader, (advanced r).count = r.count + 1 := fun r => by unfold advanced; dsimp only; split <;> rfl
  unfold getBit
  by_cases hp : s.reader.pos = s.reader.fill
  · rw [if_pos hp]
    refine (refill_stream h hp).andThen fun _ t ⟨g1, g2, g3, g4, g5⟩ => ?_
    obtain ⟨k1, k2⟩ := take_bit g1 g2
    exact ⟨k1, g3 ▸ k2, by rw [← g4]; exact hadv _⟩
  · rw [if_neg hp]
    obtain ⟨k1, k2⟩ := take_bit h (by have := h.1.2.1; omega)
    exact ⟨k1, k2, hadv _⟩

/-- Reading `n` bits that go on: the bits come off the stream in order and make the number `x` grow (41 R124). -/
theorem getBits_stream (n x : Nat) {s : State} (h : ReaderOpen s) :
    (getBits n x s).Meets
      (fun y t => ReaderOpen t ∧ n ≤ (pendingBits s).length ∧ pendingBits t = (pendingBits s).drop n ∧
        y = ((pendingBits s).take n).foldl (fun x b => 2 * x + b.toNat) x ∧
        t.reader.count = s.reader.count + BitVec.ofNat 64 n)
      (fun _ _ => True) := by
  induction n generalizing x s with
  | zero => exact ⟨h, Nat.zero_le _, rfl, rfl, by simp⟩
  | succ n ih =>
    refine (getBit_stream h).andThen fun b t ⟨g1, g2, g3⟩ => ?_
    refine (ih (2 * x + b.toNat) g1).imp (fun y u ⟨k1, k2, k3, k4, k5⟩ => ⟨k1, ?_, ?_, ?_, ?_⟩) fun _ _ h => h
    · rw [g2]; simpa using k2
    · rw [g2]; simpa using k3
    · rw [g2]; simpa using k4
    · rw [k5, g3, Nat.add_comm n 1, BitVec.ofNat_add, ← BitVec.add_assoc]; rfl

/-! ### A source that answers -/

theorem sourceReady_mono {m n : Nat} {s : State} (h : sourceReady n s) (hm : m ≤ n) : sourceReady m s := by
  refine ⟨hm.trans h.1, List.all_eq_true.mpr fun a ha => List.all_eq_true.mp h.2 a ?_⟩
  have : s.env.sourceScript.take m = (s.env.sourceScript.take n).take m := by
    rw [List.take_take, Nat.min_eq_left hm]
  exact List.mem_of_mem_take (this ▸ ha)

theorem drawSource_ready {n : Nat} {s : State} (h : sourceReady (n + 1) s) :
    ∃ k, drawSource s = (.deliver k, { s with env := { s.env with sourceScript := s.env.sourceScript.drop 1 } }) ∧
      sourceReady n { s with env := { s.env with sourceScript := s.env.sourceScript.drop 1 } } := by
  obtain ⟨h1, h2⟩ := h
  cases hs : s.env.sourceScript with
  | nil => simp [hs] at h1
  | cons a rest =>
    rw [hs] at h1 h2
    simp only [List.take_succ_cons, List.all_cons, Bool.and_eq_true, List.length_cons] at h1 h2
    cases a with
    | fail k => simp [delivers] at h2
    | deliver k =>
      exact ⟨k, by simp [drawSource, hs], by simpa using Nat.le_of_succ_le_succ h1, by simpa [hs] using h2.2⟩

/-- A refill with a source that answers: it goes on if bytes remain, and is the end of the stream if none do. -/
theorem refill_ready {n : Nat} {s : State} (h : sourceReady (n + 1) s) :
    (s.source.next < s.source.bytes.length → ∃ t, refill s = .done () t ∧ sourceReady n t) ∧
      (s.source.bytes.length ≤ s.source.next → ∃ t, refill s = .raised .endOfStream t) := by
  obtain ⟨k, h1, h2⟩ := drawSource_ready h
  unfold refill sourceRead
  simp only [h1, andThen_done]
  constructor
  · intro hlt
    have hz : (s.source.bytes.drop s.source.next).length ≠ 0 := by simp; omega
    obtain ⟨g1, g2, g3⟩ := deliveredCount_range (k := k) (m := s.cfg.rBufsz) hz s.cfg.rBufsz_pos
    rw [if_neg (by rw [← List.length_eq_zero_iff, List.length_take]; omega)]
    exact ⟨_, rfl, h2⟩
  · intro hle
    rw [if_pos (by rw [List.drop_eq_nil_of_le hle]; rfl)]
    exact ⟨_, rfl⟩

theorem advanced_bit (r : Reader) : (advanced r).bit = r.bit - 1 := by
  unfold advanced; dsimp only
  split
  · rename_i h; simp [h]
  · rfl

theorem pendingBits_length {s : State} (h : ReaderOpen s) :
    (pendingBits s).length =
      8 * (s.reader.fill - s.reader.pos + (s.source.bytes.length - s.source.next)) - (7 - s.reader.bit.toNat) := by
  obtain ⟨⟨h1, h2, h3, -⟩, -⟩ := h
  have : ∀ l : List Byte, (l.flatMap byteBits).length = 8 * l.length := fun l => by
    induction l with
    | nil => rfl
    | cons b l ih => simp [ih, byteBits, length_bitsOf]; omega
  simp only [pendingBits, List.length_drop, this, List.length_append, List.length_take, h1]
  omega

/-- GetBit with a source that answers: one answer is enough, and only at a byte boundary. -/
theorem getBit_ready {m : Nat} {s : State} (ho : ReaderOpen s)
    (h : sourceReady (m + if s.reader.bit = 7 then 1 else 0) s) :
    (0 < (pendingBits s).length →
      ∃ b t, getBit s = .done b t ∧ sourceReady m t ∧ t.reader.bit = s.reader.bit - 1) ∧
      ((pendingBits s).length = 0 → ∃ t, getBit s = .raised .endOfStream t) := by
  have hlen := pendingBits_length ho
  have hlt := s.reader.bit.isLt
  unfold getBit
  by_cases hp : s.reader.pos = s.reader.fill
  · have hb := (reader_at_end ho hp).1
    have hb7 : s.reader.bit.toNat = 7 := by rw [hb]; rfl
    rw [if_pos hb] at h
    have hlt1 : 0 < (pendingBits s).length → s.source.next < s.source.bytes.length := by omega
    have hle1 : (pendingBits s).length = 0 → s.source.bytes.length ≤ s.source.next := by omega
    obtain ⟨h1, h2⟩ := refill_ready h
    rw [if_pos hp]
    refine ⟨fun hpos => ?_, fun hz => ?_⟩
    · obtain ⟨t, h3, h4⟩ := h1 (hlt1 hpos)
      have h5 := refill_stream ho hp
      rw [h3] at h5
      refine ⟨currentBit t.reader, { t with reader := advanced t.reader }, by rw [h3]; rfl, h4, ?_⟩
      rw [← h5.2.2.2.2]
      exact advanced_bit _
    · obtain ⟨t, h3⟩ := h2 (hle1 hz)
      exact ⟨t, by rw [h3]; rfl⟩
  · rw [if_neg hp]
    have := ho.1.2.1
    constructor
    · intro _
      exact ⟨_, _, rfl, sourceReady_mono h (Nat.le_add_right _ _), advanced_bit _⟩
    · intro hz
      omega

/-- How many of `n` bits stand first in their byte: at most so often the source is asked. -/
def starts (bit : BitVec 3) (n : Nat) : Nat := (7 - bit.toNat + n + 7) / 8 - (7 - bit.toNat + 7) / 8

theorem starts_succ (bit : BitVec 3) (n : Nat) :
    starts bit (n + 1) = (if bit = 7 then 1 else 0) + starts (bit - 1) n := by
  have hlt := bit.isLt
  unfold starts
  by_cases h0 : bit = 0
  · subst h0
    rw [if_neg (by decide), show ((0 : BitVec 3) - 1).toNat = 7 from rfl, show (0 : BitVec 3).toNat = 0 from rfl]
    omega
  · obtain ⟨h1, h2⟩ := bit_pred h0
    rw [h1]
    by_cases h7 : bit = 7
    · subst h7
      rw [if_pos rfl, show (7 : BitVec 3).toNat = 7 from rfl]
      omega
    · have : bit.toNat ≠ 7 := fun h => h7 (BitVec.eq_of_toNat_eq h)
      rw [if_neg h7]
      omega

/-- With a source that answers, reading `n` bits goes on if they are there and is the end of the stream if they are not. -/
theorem getBits_ready (n x : Nat) {m : Nat} {s : State} (ho : ReaderOpen s)
    (h : sourceReady (m + starts s.reader.bit n) s) :
    (n ≤ (pendingBits s).length → ∃ y t, getBits n x s = .done y t ∧ sourceReady m t) ∧
      ((pendingBits s).length < n → ∃ t, getBits n x s = .raised .endOfStream t) := by
  induction n generalizing x s with
  | zero => exact ⟨fun _ => ⟨x, s, rfl, sourceReady_mono h (Nat.le_add_right _ _)⟩, fun h => absurd h (Nat.not_lt_zero _)⟩
  | succ n ih =>
    rw [starts_succ] at h
    obtain ⟨h1, h2⟩ := getBit_ready (m := m + starts (s.reader.bit - 1) n) ho (sourceReady_mono h (by omega))
    by_cases hz : (pendingBits s).length = 0
    · obtain ⟨t, ht⟩ := h2 hz
      exact ⟨fun h => by omega, fun _ => ⟨t, by simp [getBits, ht]⟩⟩
    · obtain ⟨b, t, ht, hr, hb⟩ := h1 (by omega)
      have hs := getBit_stream ho
      rw [ht] at hs
      obtain ⟨g1, g2, g3⟩ := hs
      rw [← hb] at hr
      obtain ⟨k1, k2⟩ := ih (2 * x + b.toNat) g1 hr
      have hl : (pendingBits s).length = (pendingBits t).length + 1 := by rw [g2]; rfl
      constructor
      · intro hle
        obtain ⟨y, u, hu, hm⟩ := k1 (by omega)
        exact ⟨y, u, by simp [getBits, ht, hu], hm⟩
      · intro hlt
        obtain ⟨u, hu⟩ := k2 (by omega)
        exact ⟨u, by simp [getBits, ht, hu]⟩

/-! ### A source that fails -/

/-- GetBit of an empty buffer meets the source's next answer (41 R121, R128). -/
theorem getBit_fails {s : State} {k : Nat} {rest : List Config.SourceAnswer} (h : s.env.sourceScript = .fail k :: rest)
    (hp : s.reader.pos = s.reader.fill) : ∃ u, getBit s = .raised .ioFailure u :=
  ⟨_, by simp [getBit, hp, refill, sourceRead, drawSource, h, sourceFail]; rfl⟩

/-- Reading more bits than the buffer holds meets the source's next answer. -/
theorem getBits_fails (n x : Nat) {s : State} {k : Nat} {rest : List Config.SourceAnswer} (ho : ReaderOpen s)
    (h : s.env.sourceScript = .fail k :: rest)
    (hb : 8 * (s.reader.fill - s.reader.pos) < n + (7 - s.reader.bit.toNat)) :
    ∃ u, getBits n x s = .raised .ioFailure u := by
  have hlt := s.reader.bit.isLt
  have hle := ho.1.2.1
  induction n generalizing x s with
  | zero =>
    have hne : s.reader.bit ≠ 7 := fun e => by rw [e] at hb; simp at hb
    have := ho.1.2.2.2.1 hne
    omega
  | succ n ih =>
    simp only [getBits]
    by_cases hp : s.reader.pos = s.reader.fill
    · obtain ⟨u, hu⟩ := getBit_fails h hp
      exact ⟨u, by rw [hu]; rfl⟩
    · have e : getBit s = .done (currentBit s.reader) { s with reader := advanced s.reader } := by simp [getBit, hp]
      rw [e, andThen_done]
      have ho' := (take_bit ho (by omega)).1
      refine ih _ ho' h ?_ (BitVec.isLt _) ho'.1.2.1
      by_cases h0 : s.reader.bit = 0
      · simp [advanced, h0] at hb ⊢; omega
      · obtain ⟨q1, q2⟩ := bit_pred h0
        simp only [advanced, h0, if_false, q1]
        omega

end Sys2Proof.Machine
end

