-- ==== Sys2Proof/Laws/WriterStream.lean ====
section
/-! SUPPORT. The bit-stream writer as a stream of bits: what PutBit and FlushBuffer do to the bits written (40 R110) and to
the writer's invariant (10 R14), and that they go on when the sink answers. -/

namespace Sys2Proof.Machine

/-! ### A sink that answers -/

theorem sinkReady_mono {m n : Nat} {s : State} (h : sinkReady n s) (hm : m ≤ n) : sinkReady m s := by
  have := congrArg (List.take m) h
  simpa [sinkReady, List.take_take, Nat.min_eq_left hm] using this

theorem drawSink_ready {n : Nat} {s : State} (h : sinkReady (n + 1) s) :
    drawSink s = (.ok, { s with env := { s.env with sinkScript := s.env.sinkScript.drop 1 } }) ∧
      (s.env.sinkScript.drop 1).take n = List.replicate n .ok := by
  unfold sinkReady at h
  cases hs : s.env.sinkScript with
  | nil => simp [hs, List.replicate_succ] at h
  | cons a rest =>
    rw [hs, List.take_succ_cons, List.replicate_succ, List.cons.injEq] at h
    exact ⟨by simp [drawSink, hs, h.1], by simpa using h.2⟩

/-- FlushBuffer with a sink that answers (40 R101). -/
theorem flushBuffer_ready {n : Nat} {s : State} (h : sinkReady (n + 2) s) :
    let k := if s.writer.pos = 0 then 1 else 2
    flushBuffer s = .done () { s with
      writer := compacted s.writer
      sink := { s.sink with
        bytes := s.sink.bytes ++ s.writer.buf.take s.writer.pos, flushes := s.sink.flushes + 1 }
      env := { s.env with sinkScript := s.env.sinkScript.drop k } } ∧
      (s.env.sinkScript.drop k).take n = List.replicate n .ok := by
  obtain ⟨h1, h2⟩ := drawSink_ready h
  by_cases hp : s.writer.pos = 0
  · have h3 := (drawSink_ready (n := n + 1) (s := { s with writer := compacted s.writer }) h).1
    refine ⟨?_, ?_⟩
    · simp only [flushBuffer, hp, Nat.lt_irrefl, gt_iff_lt, if_false, andThen_done, sinkFlush, h3, if_true,
        List.take_zero, List.append_nil]
    · have := congrArg (List.take n) h2
      simpa [hp, List.take_take] using this
  · let t : State := { s with
      env := { s.env with sinkScript := s.env.sinkScript.drop 1 }
      sink := { s.sink with bytes := s.sink.bytes ++ s.writer.buf.take s.writer.pos }
      writer := compacted s.writer }
    obtain ⟨h3, h4⟩ := drawSink_ready (n := n) (s := t) h2
    refine ⟨?_, ?_⟩
    · simp only [flushBuffer, hp, Nat.pos_of_ne_zero hp, if_true, if_false, sinkPush, h1, andThen_done,
        sinkFlush]
      change (match drawSink t with
        | (.ok, s) => Run.done () { s with sink := { s.sink with flushes := s.sink.flushes + 1 } }
        | (.fail _, s) => ioFail { s with sink := { s.sink with flushes := s.sink.flushes + 1 } }) = _
      rw [h3]
      simp [t]
    · simpa [t, hp, List.drop_drop] using h4

/-! ### One bit -/

/-- Bit `b` in its place in the byte being filled: it follows the bits already there, and the bits below stay 0. -/
theorem packed_byte : ∀ (b : Bool) (bit : BitVec 3) (cur : Byte),
    (∀ k < 8, k ≤ bit.toNat → cur.getLsbD k = false) →
      (byteBits (cur ||| (BitVec.ofNat 8 b.toNat) <<< bit.toNat)).take (7 - bit.toNat + 1) =
        (byteBits cur).take (7 - bit.toNat) ++ [b] ∧
      (∀ k < 8, k < bit.toNat → (cur ||| (BitVec.ofNat 8 b.toNat) <<< bit.toNat).getLsbD k = false) := by
  decide +kernel

@[simp] theorem length_byteBits (b : Byte) : (byteBits b).length = 8 := length_bitsOf _ _

/-- What FlushBuffer leaves when it goes on, whatever the sink did before. -/
theorem flushBuffer_done (s : State) : (flushBuffer s).Meets
    (fun _ t => t.writer = compacted s.writer ∧ t.sink.bytes = s.sink.bytes ++ s.writer.buf.take s.writer.pos ∧
      s.sink.flushes < t.sink.flushes ∧ t.sink.closed = s.sink.closed) (fun _ _ => True) := by
  unfold flushBuffer
  have hpush : (if s.writer.pos > 0 then sinkPush (s.writer.buf.take s.writer.pos) s else .done () s).Meets
      (fun _ t => t.writer = s.writer ∧ t.sink.bytes = s.sink.bytes ++ s.writer.buf.take s.writer.pos ∧
        t.sink.flushes = s.sink.flushes ∧ t.sink.closed = s.sink.closed) (fun _ _ => True) := by
    split
    · have h1 := drawSink_writer s
      have h2 := drawSink_sink s
      unfold sinkPush
      split
      · rename_i u hu
        rw [hu] at h1 h2
        exact ⟨h1, by simp_all, by simp_all, by simp_all⟩
      · trivial
    · have : s.writer.pos = 0 := by omega
      exact ⟨rfl, by simp [this], rfl, rfl⟩
  refine hpush.andThen fun _ t ⟨h1, h2, h3, h4⟩ => ?_
  have h5 := drawSink_writer { t with writer := compacted t.writer }
  have h6 := drawSink_sink { t with writer := compacted t.writer }
  unfold sinkFlush
  split
  · rename_i u hu
    rw [hu] at h5 h6
    refine ⟨?_, ?_, ?_, ?_⟩ <;> simp_all
  · trivial

/-- A writer that takes bits: it has its invariant and is open. -/
abbrev WriterOpen (s : State) : Prop := WriterOk s ∧ s.writer.closed = false

theorem packed_of_ne {w : Writer} (b : Bool) (h : w.bit ≠ 0) : packed b w =
    { w with
      buf := w.buf.set w.pos (w.buf.getD w.pos 0 ||| ((BitVec.ofNat 8 b.toNat) <<< w.bit.toNat))
      count := w.count + 1, bit := w.bit - 1 } := by unfold packed; exact if_neg h

theorem packed_of_zero {w : Writer} (b : Bool) (h : w.bit = 0) : packed b w =
    { w with
      buf := w.buf.set w.pos (w.buf.getD w.pos 0 ||| ((BitVec.ofNat 8 b.toNat) <<< w.bit.toNat))
      count := w.count + 1, bit := 7, pos := w.pos + 1 } := by unfold packed; exact if_pos h

theorem getD_set_self {l : List Byte} {i : Nat} (x : Byte) (h : i < l.length) : (l.set i x).getD i 0 = x := by
  simp [List.getD_eq_getElem?_getD, h]

theorem getD_set_other {l : List Byte} {i j : Nat} (x : Byte) (h : i ≠ j) : (l.set i x).getD j 0 = l.getD j 0 := by
  simp [List.getD_eq_getElem?_getD, h]

theorem take_set_succ {l : List Byte} {i : Nat} (x : Byte) (h : i < l.length) :
    (l.set i x).take (i + 1) = l.take i ++ [x] := by
  rw [List.take_add_one]
  simp [h, List.take_set, List.set_eq_of_length_le]

/-- The bit inside a byte (40 R100): the stream grows by it, the invariant stays. -/
theorem pack_inside {s : State} (b : Bool) (h : WriterOpen s) (hb : s.writer.bit ≠ 0) :
    WriterOpen { s with writer := packed b s.writer } ∧
      writtenBits { s with writer := packed b s.writer } = writtenBits s ++ [b] := by
  obtain ⟨⟨h1, h2, h3, h4, h5, h6⟩, h7⟩ := h
  obtain ⟨hp, hp1⟩ := bit_pred hb
  obtain ⟨q1, q2⟩ := packed_byte b s.writer.bit _ h3
  have hlt : s.writer.bit.toNat < 8 := s.writer.bit.isLt
  have hl : s.writer.pos < s.writer.buf.length := h1 ▸ h2
  rw [packed_of_ne b hb]
  refine ⟨⟨⟨by simpa using h1, h2, fun k hk hkb => ?_, fun i hi hpi => ?_, ?_, by simp [h7]⟩, h7⟩, ?_⟩
  · rw [getD_set_self _ hl]; exact q2 k hk (by simp only [hp] at hkb; omega)
  · rw [getD_set_other _ (Nat.ne_of_lt hpi)]; exact h4 i hi hpi
  · refine (count_step h5).trans (congrArg (BitVec.ofNat 64) ?_); simp only [hp]; omega
  · simp only [writtenBits, hp, getD_set_self _ hl, List.take_set]
    rw [show 7 - (s.writer.bit.toNat - 1) = 7 - s.writer.bit.toNat + 1 by omega, q1, List.append_assoc]
    congr 3
    rw [List.set_eq_of_length_le (by simp)]

/-- The bit that completes a byte which is not the buffer's last. -/
theorem pack_byte {s : State} (b : Bool) (h : WriterOpen s) (hb : s.writer.bit = 0)
    (hn : s.writer.pos + 1 ≠ s.cfg.wBufsz) :
    WriterOpen { s with writer := packed b s.writer } ∧
      writtenBits { s with writer := packed b s.writer } = writtenBits s ++ [b] := by
  obtain ⟨⟨h1, h2, h3, h4, h5, h6⟩, h7⟩ := h
  obtain ⟨q1, -⟩ := packed_byte b s.writer.bit _ h3
  have hl : s.writer.pos < s.writer.buf.length := h1 ▸ h2
  have hnext : s.writer.buf.getD (s.writer.pos + 1) 0 = 0 := h4 _ (by omega) (by omega)
  have hbits : s.writer.bit.toNat = 0 := by simp [hb]
  rw [packed_of_zero b hb]
  refine ⟨⟨⟨by simpa using h1, by simp only; omega, fun k hk _ => ?_, fun i hi hpi => ?_, ?_, by simp [h7]⟩, h7⟩, ?_⟩
  · rw [getD_set_other _ (Nat.ne_of_lt (Nat.lt_succ_self _)), hnext]; simp
  · rw [getD_set_other _ (Nat.ne_of_lt (Nat.lt_of_succ_lt hpi))]; exact h4 i hi (Nat.lt_of_succ_lt hpi)
  · refine (count_step h5).trans (congrArg (BitVec.ofNat 64) ?_)
    simp only [hbits, show (7 : BitVec 3).toNat = 7 from rfl]; omega
  · rw [hbits, List.take_of_length_le (by simp)] at q1
    simp only [writtenBits, hbits, take_set_succ _ hl, List.flatMap_append, List.flatMap_cons, List.flatMap_nil, q1,
      List.append_nil, List.append_assoc, show 7 - (7 : BitVec 3).toNat = 0 from rfl, List.take_zero]

/-- The bit that completes the buffer's last byte, and the flush it triggers (40 R100, R101). -/
theorem pack_full {s t : State} (b : Bool) (h : WriterOpen s) (hb : s.writer.bit = 0)
    (hn : s.writer.pos + 1 = s.cfg.wBufsz) (hw : t.writer = compacted (packed b s.writer)) (hc : t.cfg = s.cfg)
    (hk : t.sink.bytes =
      s.sink.bytes ++ (packed b s.writer).buf.take (packed b s.writer).pos) :
    WriterOpen t ∧ writtenBits t = writtenBits s ++ [b] := by
  obtain ⟨⟨h1, h2, h3, h4, h5, h6⟩, h7⟩ := h
  obtain ⟨q1, -⟩ := packed_byte b s.writer.bit _ h3
  have hl : s.writer.pos < s.writer.buf.length := h1 ▸ h2
  have hbits : s.writer.bit.toNat = 0 := by simp [hb]
  have hz : ∀ i, (List.replicate s.cfg.wBufsz (0 : Byte)).getD i 0 = 0 := fun i => by
    simp [List.getD_eq_getElem?_getD, List.getElem?_replicate]; split <;> rfl
  have hw' : t.writer = { s.writer with
      buf := List.replicate s.cfg.wBufsz 0, count := s.writer.count + 1, bit := 7, pos := 0 } := by
    rw [hw, packed_of_zero b hb]
    simp only [compacted, if_true, List.length_set, h1]
    congr 1
    refine List.ext_getElem? fun i => ?_
    rw [List.getElem?_set]; split
    · subst_vars; simp [List.getElem?_replicate]
    · rfl
  rw [packed_of_zero b hb] at hk
  simp only [take_set_succ _ hl] at hk
  have hlen : t.sink.bytes.length = s.sink.bytes.length + (s.writer.pos + 1) := by
    rw [hk]; simp; omega
  refine ⟨⟨⟨?_, ?_, fun k hk8 _ => ?_, fun i hi hpi => ?_, ?_, ?_⟩, ?_⟩, ?_⟩
  · simp [hw', hc]
  · rw [hw', hc]; exact s.cfg.wBufsz_pos
  · rw [hw']; simp only [hz]; simp
  · rw [hw']; exact hz i
  · rw [hw', hlen]; simp only; rw [count_step h5]; congr 1; simp [hb]; omega
  · simp [hw', h7]
  · simp [hw', h7]
  · rw [hbits, List.take_of_length_le (by simp)] at q1
    simp only [writtenBits, hw', hk, hbits, List.flatMap_append, List.flatMap_cons, List.flatMap_nil, q1,
      List.append_nil, List.append_assoc, show 7 - (7 : BitVec 3).toNat = 0 from rfl, List.take_zero,
      List.flatMap_nil]

/-! ### Any number of bits -/

/-- What PutBit of `bs` leaves when it goes on: the stream grows by the bits, the count and the bit index move on, the
invariant stays. -/
abbrev BitsPut (bs : List Bool) (s t : State) : Prop :=
  WriterOpen t ∧ writtenBits t = writtenBits s ++ bs ∧
  t.writer.count = s.writer.count + BitVec.ofNat 64 bs.length ∧
  t.writer.bit = s.writer.bit - BitVec.ofNat 3 bs.length ∧
  s.sink.flushes ≤ t.sink.flushes ∧ t.sink.closed = s.sink.closed

theorem packed_count (b : Bool) (w : Writer) : (packed b w).count = w.count + 1 := by
  unfold packed; dsimp only; split <;> rfl

theorem packed_bit (b : Bool) (w : Writer) : (packed b w).bit = w.bit - 1 := by
  unfold packed; dsimp only
  split
  · rename_i h; simp [h]
  · rfl

theorem putBit_stream (b : Bool) {s : State} (h : WriterOpen s) :
    (putBit b s).Meets (fun _ t => BitsPut [b] s t) (fun _ _ => True) := by
  have hpos : s.writer.bit = 0 → (packed b s.writer).pos = s.writer.pos + 1 := fun hb => by rw [packed_of_zero b hb]
  have hcfg := flushBuffer_writes { s with writer := packed b s.writer }
  have hdone := flushBuffer_done { s with writer := packed b s.writer }
  unfold putBit
  dsimp only
  split
  · rename_i hfull
    obtain ⟨hb, hp⟩ := hfull
    rw [hpos hb] at hp
    cases hr : flushBuffer { s with writer := packed b s.writer } with
    | raised st t => trivial
    | done a t =>
      rw [hr] at hcfg hdone
      obtain ⟨⟨hc, -⟩, -, -⟩ := hcfg
      obtain ⟨hw, hk, hf, hcl⟩ := hdone
      obtain ⟨h1, h2⟩ := pack_full (t := t) b h hb hp hw (by rw [hc]) hk
      exact ⟨h1, h2, by rw [hw]; exact packed_count b _, by rw [hw]; exact packed_bit b _, hf.le, hcl⟩
  · rename_i hfull
    have : WriterOpen { s with writer := packed b s.writer } ∧
        writtenBits { s with writer := packed b s.writer } = writtenBits s ++ [b] := by
      by_cases hb : s.writer.bit = 0
      · exact pack_byte b h hb fun hp => hfull ⟨hb, by rw [hpos hb]; exact hp⟩
      · exact pack_inside b h hb
    exact ⟨this.1, this.2, packed_count b _, packed_bit b _, le_rfl, rfl⟩

theorem putBits_stream (bs : List Bool) {s : State} (h : WriterOpen s) :
    (putBits bs s).Meets (fun _ t => BitsPut bs s t) (fun _ _ => True) := by
  induction bs generalizing s with
  | nil => exact ⟨h, by simp, by simp, by simp, le_rfl, rfl⟩
  | cons b bs ih =>
    refine (putBit_stream b h).andThen fun _ t ⟨h1, h2, h3, h4, h5, h6⟩ => ?_
    refine (ih h1).imp (fun _ u ⟨g1, g2, g3, g4, g5, g6⟩ => ⟨g1, ?_, ?_, ?_, h5.trans g5, g6.trans h6⟩) fun _ _ h => h
    · rw [g2, h2, List.append_assoc]; rfl
    · rw [g3, h3, show (b :: bs).length = 1 + bs.length from Nat.add_comm .., BitVec.ofNat_add, BitVec.add_assoc]; rfl
    · rw [g4, h4, show (b :: bs).length = 1 + bs.length from Nat.add_comm .., BitVec.ofNat_add, ← sub_sub]; rfl

/-- How many bytes `n` bits complete. -/
def completed (bit : BitVec 3) (n : Nat) : Nat := (7 - bit.toNat + n) / 8

theorem completed_succ (bit : BitVec 3) (n : Nat) :
    completed bit (n + 1) = (if bit = 0 then 1 else 0) + completed (bit - 1) n := by
  unfold completed
  by_cases h : bit = 0
  · subst h
    simp only [if_true, show ((0 : BitVec 3) - 1).toNat = 7 from rfl, show (0 : BitVec 3).toNat = 0 from rfl]
    omega
  · obtain ⟨h1, h2⟩ := bit_pred h
    have := bit.isLt
    simp only [if_neg h, h1, Nat.zero_add]
    congr 1
    omega

theorem putBit_ready (b : Bool) {m : Nat} {s : State} (h : sinkReady (m + if s.writer.bit = 0 then 2 else 0) s) :
    ∃ t, putBit b s = .done () t ∧ sinkReady m t ∧ t.writer.bit = s.writer.bit - 1 := by
  unfold putBit
  dsimp only
  split
  · rename_i hfull
    rw [if_pos hfull.1] at h
    obtain ⟨h1, h2⟩ := flushBuffer_ready (s := { s with writer := packed b s.writer }) h
    exact ⟨_, h1, h2, packed_bit b _⟩
  · exact ⟨_, rfl, sinkReady_mono (n := _) h (Nat.le_add_right _ _), packed_bit b _⟩

/-- With a sink that answers, PutBit of any number of bits goes on: two answers for each byte completed are enough. -/
theorem putBits_ready (bs : List Bool) {m : Nat} {s : State}
    (h : sinkReady (m + 2 * completed s.writer.bit bs.length) s) :
    ∃ t, putBits bs s = .done () t ∧ sinkReady m t := by
  induction bs generalizing s with
  | nil => exact ⟨s, rfl, sinkReady_mono h (Nat.le_add_right _ _)⟩
  | cons b bs ih =>
    rw [List.length_cons, completed_succ] at h
    obtain ⟨t, h1, h2, h3⟩ := putBit_ready b (m := m + 2 * completed (s.writer.bit - 1) bs.length) (s := s)
      (sinkReady_mono h (by split <;> omega))
    obtain ⟨u, h4, h5⟩ := ih (s := t) (h3 ▸ h2)
    exact ⟨u, by simp [putBits, h1, h4], h5⟩

/-! ### A sink that fails -/

/-- The sink's next answer, or the one after a success, is a failure. -/
def failsSoon (s : State) : Prop :=
  ∃ k rest, s.env.sinkScript = .fail k :: rest ∨ s.env.sinkScript = .ok :: .fail k :: rest

/-- FlushBuffer with bytes to push asks twice, so it meets the failure (40 R101, R109). -/
theorem flushBuffer_fails {s : State} (h : failsSoon s) (hp : 0 < s.writer.pos) :
    ∃ u, flushBuffer s = .raised .ioFailure u := by
  obtain ⟨k, rest, h | h⟩ := h
  · exact ⟨_, by simp [flushBuffer, hp, sinkPush, drawSink, h, ioFail]; rfl⟩
  · exact ⟨_, by simp [flushBuffer, hp, sinkPush, drawSink, h, sinkFlush, ioFail]; rfl⟩

/-- PutBit of enough bits to fill the buffer meets the failure. -/
theorem putBits_fails (bs : List Bool) {s : State} (ho : WriterOpen s) (h : failsSoon s)
    (hb : bitsToFill s ≤ bs.length) : ∃ u, putBits bs s = .raised .ioFailure u := by
  have hpos := ho.1.2.1
  have hlt := s.writer.bit.isLt
  induction bs generalizing s with
  | nil => unfold bitsToFill at hb; simp at hb; omega
  | cons b bs ih =>
    unfold bitsToFill at hb ih
    simp only [List.length_cons] at hb
    simp only [putBits, putBit]
    by_cases hb0 : s.writer.bit = 0
    · have e := packed_of_zero b hb0
      by_cases hn : s.writer.pos + 1 = s.cfg.wBufsz
      · obtain ⟨u, hu⟩ := flushBuffer_fails (s := { s with writer := packed b s.writer }) h (by rw [e]; simp)
        exact ⟨u, by rw [if_pos ⟨hb0, by rw [e]; exact hn⟩, hu]; rfl⟩
      · rw [if_neg (fun h => hn (by rw [← h.2, e])), andThen_done]
        have o := (pack_byte b ho hb0 hn).1
        refine ih o h ?_ o.1.2.1 (BitVec.isLt _)
        rw [e]; simp [hb0] at hb ⊢; omega
    · rw [if_neg (fun h => hb0 h.1), andThen_done]
      have o := (pack_inside b ho hb0).1
      refine ih o h ?_ o.1.2.1 (BitVec.isLt _)
      obtain ⟨q1, q2⟩ := bit_pred hb0
      rw [packed_of_ne b hb0]
      simp only [q1]
      omega

end Sys2Proof.Machine
end

