-- ==== Sys2Proof/Tests/Slice0.lean ====
section
/-! SUPPORT. Tests. Expected results are the spec's: 95_test_vectors.md (the row is named) or the rule named. -/

namespace Sys2Proof.Tests

open Sys2Proof.Machine

set_option Elab.async false

/-! ### Benches -/

/-- Parameters of a small KZC. -/
def params (w r : Nat) (signed : Bool) (hw : 1 ≤ w) (hr : 1 ≤ r) : Config.Params where
  wBufsz := w
  rBufsz := r
  srcMemBytes := 64
  dstMemBytes := 64
  egeSigned := signed
  egdSigned := signed
  wBufsz_pos := hw
  rBufsz_pos := hr

def plain : Config.Params := params 16 16 false (by decide) (by decide)
def signedPair : Config.Params := params 16 16 true (by decide) (by decide)
def tiny : Config.Params := params 1 1 false (by decide) (by decide)
def four : Config.Params := params 4 2 false (by decide) (by decide)

/-- A KZC after reset whose sink and source answer, the source delivering all it may. -/
def bench (p : Config.Params) (source : List Byte) : State :=
  { State.resetWith p source with
    env := { sinkScript := List.replicate 60 .ok, sourceScript := List.replicate 40 (.deliver 16), draws := 0 } }

/-- A KZC whose memories hold `src` and `dst` from address 0, the views as long as the memories. -/
def memBench (src dst : List Byte) : State :=
  { bench plain [] with
    src := memWriteBytes [] 0 src, dst := memWriteBytes [] 0 dst, srcLen := 64, dstLen := 64 }

/-- The state a run of commands leaves; the state it started from where it stops. -/
def after (is : List Instr) (s : State) : State :=
  match execAll is s with
  | .next t => t
  | .fault _ | .refused _ => s

/-- The outcome is a next state with the property. -/
def leaves (o : Host.Outcome State Fault Refusal) (p : State → Bool) : Bool :=
  match o with
  | .next t => p t
  | .fault _ | .refused _ => false

/-- The outcome is the fault UNINIT. -/
def stopsUninit (o : Host.Outcome State Fault Refusal) : Bool :=
  match o with
  | .fault .uninit => true
  | .fault .noSuchAddress | .next _ | .refused _ => false

/-- The last response of a state. -/
def answered (st : Status) (v : Word64) (s : State) : Bool := s.responses.getLast? == some { status := st, val := v }

theorem leaves_next {o : Host.Outcome State Fault Refusal} {p : State → Bool} (h : leaves o p = true) :
    ∃ t, o = .next t := by
  cases o <;> simp_all [leaves]

theorem leaves_with (o : Host.Outcome State Fault Refusal) (q : State → Prop) [DecidablePred q]
    (h : leaves o (fun t => decide (q t)) = true) : ∃ t, o = .next t ∧ q t := by
  cases o <;> simp_all [leaves]

/-! ### Well-formedness -/

/-- 30 R82 (a): the distance 0 is the one reserved element. -/
theorem test_wellFormed_refuses_distance_zero :
    (Instr.lzDist16 0).wellFormed = false ∧ (Instr.lzDist16 1).wellFormed = true := by decide

/-! ### Decoding: words written out from 30 R61, R62, R72, R75 to R79 -/

theorem test_decode_writer :
    decodeTableWord 80 0x01000000000000000001 = some (.wbit true) ∧
    decodeTableWord 80 0x01FFFFFFFFFFFFFFFFFE = some (.wbit false) ∧
    decodeTableWord 80 0x0210000000000000ABCD = some (.wbits 16 0xABCD) ∧
    decodeTableWord 80 0x03000000000000000000 = some .wflush ∧
    decodeTableWord 80 0x04000000000000000000 = some .wclose ∧
    decodeTableWord 80 0x05000000000000000000 = some .wcount := by decide +kernel

theorem test_decode_reader :
    decodeTableWord 80 0x11000000000000000000 = some .rbit ∧
    decodeTableWord 80 0x12240000000000000000 = some (.rbits 36) ∧
    decodeTableWord 80 0x14000000000000000000 = some .rclose ∧
    decodeTableWord 80 0x15000000000000000000 = some .rcount ∧
    decodeTableWord 80 0x13000000000000000000 = none := by decide +kernel

theorem test_decode_eg_lz_control :
    decodeTableWord 80 0x2100FFFFFFFFFFFFFF01 = some (.egenc 0xFFFFFFFFFFFFFF01) ∧
    decodeTableWord 80 0x22000000000000000000 = some .egdec ∧
    decodeTableWord 80 0x3100000000000000000D = some (.lzfwd 13) ∧
    decodeTableWord 80 0x32000000000000000005 = some (.lzinv 5) ∧
    decodeTableWord 80 0x3300000000007FFFFFFF = some (.lzmax 0x7FFFFFFF) ∧
    decodeTableWord 80 0x41010000000000000020 = some (.crw 1 32) ∧
    decodeTableWord 80 0x42FF0000000000000000 = some (.crr 255) := by decide +kernel

theorem test_decode_wire_bytes :
    decodeTableWord 8 0x47 = some (.lzToken 4 7) ∧
    decode .lzLenExt [true, true, true, true, false, true, true, true] = .ok (.lzLenExt 0xF7, []) ∧
    decode .lzLiteral [false, true, true, false, false, false, false, true] = .ok (.lzLiteral 0x61, []) ∧
    decodeTableWord 16 0x02FB = some (.lzDist16 0x02FB) ∧
    decode .lzDist ((bitsOf 8 0xFB) ++ (bitsOf 8 0x01)) = .ok (.lzDist16 0x01FB, []) :=
  ⟨by decide +kernel, rfl, rfl, by decide +kernel, rfl⟩

/-- 95 section 2.3, the unsigned table: 0, 2, 5, 14, 30, 62, 126, 128, 255. -/
theorem test_decode_unsigned_codes :
    decodeTableWord 1 0b1 = some .eguN0 ∧
    decodeTableWord 3 0b011 = some (.eguN1 1) ∧
    decodeTableWord 5 0b00110 = some (.eguN2 2) ∧
    decodeTableWord 7 0b0001111 = some (.eguN3 7) ∧
    decodeTableWord 9 0b000011111 = some (.eguN4 15) ∧
    decodeTableWord 11 0b00000111111 = some (.eguN5 31) ∧
    decodeTableWord 13 0b0000001111111 = some (.eguN6 63) ∧
    decodeTableWord 15 0b000000010000001 = some (.eguN7 1) ∧
    decodeTableWord 24 0b00000000100000000 = some .eguN8 := by decide +kernel

/-- 95 section 2.3, the signed table: -1, 5, and 30 R73. -/
theorem test_decode_signed_codes :
    decode (.egCode true) [true] = .ok (.egsN0, []) ∧
    decodeTableWord 4 0b0101 = some (.egsN1 0 true) ∧
    decodeTableWord 6 0b001100 = some (.egsN2 2 false) ∧
    decodeTableWord 8 0b00010000 = some (.egsN3 0 false) ∧
    decodeTableWord 10 0b0000100011 = some (.egsN4 1 true) ∧
    decodeTableWord 12 0b000001000010 = some (.egsN5 1 false) ∧
    decodeTableWord 14 0b00000010000011 = some (.egsN6 1 true) ∧
    decodeTableWord 16 0b0000000100000011 = some (.egsN7 1 true) ∧
    decodeTableWord 24 0b000000001000000001 = some (.egsN8 true) :=
  ⟨rfl, by decide +kernel⟩

/-- 30 R82 (c): nine zeros, and magnitude 256. -/
theorem test_decode_reserved_codes :
    decode (.egCode false) (bitsOf 16 0x0040) = .error .egRange ∧
    decode (.egCode false) (bitsOf 24 0x008080) = .error .egRange := ⟨rfl, rfl⟩

/-! ### The writer -/

/-- 40 R103, the example. -/
theorem test_wbit : leaves (exec (.wbit true) (bench plain [])) (fun t =>
    t.writer.buf.getD 0 0 == 0x80 && t.writer.pos == 0 && t.writer.bit == 6 && t.writer.count == 1) = true := by
  decide +kernel

/-- WV9: the eighth bit of a one-byte buffer pushes it. -/
theorem test_wbit_pushes : leaves (exec (.wbit true) (after [.wbits 7 0x7F] (bench tiny []))) (fun t =>
    t.sink.bytes == [0xFF] && t.sink.flushes == 1 && t.writer.pos == 0 && t.writer.count == 8) = true := by
  decide +kernel

/-- WV5: the automatic flush of a buffer of four. -/
theorem test_wbits_crosses : leaves (exec (.wbits 40 0xA1B2C3D4E5) (bench four [])) (fun t =>
    t.sink.bytes == [0xA1, 0xB2, 0xC3, 0xD4] && t.writer.buf == [0xE5, 0, 0, 0] && t.writer.pos == 1 &&
      t.writer.bit == 7 && t.writer.count == 40 && answered .ok 40 t) = true := by decide +kernel

/-- WV1: R104's example. -/
theorem test_wbits_packs : leaves (exec (.wbits 16 0xABCD) (after [.wbits 3 5] (bench plain []))) (fun t =>
    t.writer.buf.take 3 == [0xB5, 0x79, 0xA0] && t.writer.pos == 2 && t.writer.bit == 4) = true := by decide +kernel

/-- WV6: a partial byte stays. -/
theorem test_wflush : leaves (exec .wflush (after [.wbits 2 3] (bench plain []))) (fun t =>
    t.sink.bytes == [] && t.writer.buf.getD 0 0 == 0xC0 && t.writer.bit == 5 && t.sink.flushes == 1) = true := by
  decide +kernel

/-- WV10: one fill bit. -/
theorem test_wclose_fills : leaves (exec .wclose (after [.wbits 63 0] (bench plain []))) (fun t =>
    t.sink.bytes == [0, 0, 0, 0, 0, 0, 0, 1] && t.writer.count == 64 && t.writer.closed && t.sink.closed) = true := by
  decide +kernel

/-- WV1d. -/
theorem test_wclose_pads : leaves (exec .wclose (after [.wbits 20 0xB579B] (bench plain []))) (fun t =>
    t.sink.bytes == [0xB5, 0x79, 0xBF, 0xFF, 0xFF, 0xFF, 0xFF, 0xFF] && t.sink.flushes == 1) = true := by
  decide +kernel

/-- WV14. -/
theorem test_wcount : leaves (exec .wcount (after [.wbits 3 7, .wflush] (bench plain []))) (answered .ok 3) = true := by
  decide +kernel

/-- 95 section 2.1, the sink failure: IO_FAILURE, W_IOFAULT, no byte more than the push. -/
theorem test_sink_failure :
    leaves (exec (.wbit true)
      { after [.wbits 7 0x7F] (bench tiny []) with
        env := { sinkScript := [.fail 0], sourceScript := [], draws := 0 } })
      (fun t => answered .ioFailure 0 t && t.writer.ioFault && t.sink.bytes == []) = true := by decide +kernel

/-! ### The reader -/

/-- RV3. -/
theorem test_rbit : leaves (exec .rbit (bench plain [0x80])) (fun t =>
    answered .ok 1 t && t.reader.pos == 0 && t.reader.bit == 6 && t.reader.count == 1) = true := by decide +kernel

/-- RV5. -/
theorem test_rbit_at_the_end : leaves (exec .rbit (bench plain [])) (fun t =>
    answered .endOfStream 0 t && t.reader.eos) = true := by decide +kernel

/-- RV4: the second read, over three refills of two bytes. -/
theorem test_rbits : leaves (exec (.rbits 28) (after [.rbits 12] (bench four [0xA1, 0xB2, 0xC3, 0xD4, 0xE5])))
    (fun t => answered .ok 0x2C3D4E5 t && t.reader.fill == 1 && t.reader.pos == 1 && t.source.next == 5) = true := by
  decide +kernel

/-- RV6. -/
theorem test_rbits_runs_out : leaves (exec (.rbits 9) (bench plain [0xFF])) (answered .endOfStream 0) = true := by
  decide +kernel

/-- RV8. -/
theorem test_rclose : leaves (exec .rclose (after [.rbit] (bench plain [0xC0]))) (fun t =>
    answered .ok 0 t && t.reader.closed && t.source.closed) = true := by decide +kernel

/-- RV8: the counter after the close. -/
theorem test_rcount : leaves (exec .rcount (after [.rbit, .rclose] (bench plain [0xC0]))) (answered .ok 1) = true := by
  decide +kernel

/-! ### Exp-Golomb -/

/-- 42 R142, the example: 3 is 00100. -/
theorem test_egenc : leaves (exec (.egenc 3) (bench plain [])) (fun t =>
    t.writer.buf.getD 0 0 == 0x20 && t.writer.bit == 2 && t.writer.count == 5) = true := by decide +kernel

/-- EV6: -255 takes 18 bits. -/
theorem test_egenc_signed : leaves (exec (.egenc 0xFFFFFFFFFFFFFF01) (bench signedPair [])) (fun t =>
    t.writer.buf.take 3 == [0x00, 0x80, 0x40] && t.writer.count == 18) = true := by decide +kernel

/-- DV7. -/
theorem test_egdec : leaves (exec .egdec (bench signedPair [0x00, 0x80, 0x40, 0x80])) (fun t =>
    answered .ok 0xFFFFFFFFFFFFFF01 t && t.reader.count == 18) = true := by decide +kernel

/-- DV2. -/
theorem test_egdec_range : leaves (exec .egdec (bench plain [0x00, 0x80, 0x80])) (fun t =>
    answered .egRange 0 t && t.egRangeSeen && t.reader.count == 17) = true := by decide +kernel

/-- 95 section 2.3: 128 unsigned and -128 signed. -/
theorem test_codes :
    leaves (exec (.eguN7 1) (bench plain [])) (answered .ok 128) = true ∧
    leaves (exec (.egsN7 1 true) (bench signedPair [])) (answered .ok 0xFFFFFFFFFFFFFF80) = true := by decide +kernel

/-! ### LZ77 forward -/

/-- 95 section 2.7. -/
theorem test_lzmax :
    leaves (exec (.lzmax 0x7FFFFFFF) (bench plain [])) (answered .ok 2155905167) = true ∧
    leaves (exec (.lzmax 0x80000000) (bench plain [])) (answered .invalidArgument 0) = true := by decide +kernel

/-- 95 section 2.7, WriteLen. -/
theorem test_writeLen :
    writeLen 254 = [0xFE] ∧ writeLen 255 = [0xFF, 0] ∧ writeLen 509 = [0xFF, 0xFE] ∧ writeLen 765 = [0xFF, 0xFF, 0xFF, 0] :=
  by decide +kernel

/-- 95 section 2.5, 14 bytes of 'a'. -/
theorem test_lzfwd_overlap : leaves (exec (.lzfwd 14) (memBench (List.replicate 14 0x61) [])) (fun t =>
    memReadBytes t.dst 0 10 == some [0x14, 0x61, 0x01, 0x00, 0x50, 0x61, 0x61, 0x61, 0x61, 0x61] &&
      answered .ok 10 t) = true := by decide +kernel

/-- 95 section 2.5, T5: catch-up, and positions not inserted. -/
theorem test_lzfwd_catches_up :
    leaves (exec (.lzfwd 21)
        (memBench [0x62, 0x63, 0x62, 0x63, 0x62, 0x63, 0x61, 0x63, 0x62, 0x63, 0x61, 0x63, 0x62, 0x63, 0x63, 0x62, 0x62,
          0x63, 0x62, 0x61, 0x63] []))
      (fun t => memReadBytes t.dst 0 17 == some [0x20, 0x62, 0x63, 0x02, 0x00, 0x13, 0x61, 0x04, 0x00, 0x70, 0x63, 0x62,
        0x62, 0x63, 0x62, 0x61, 0x63]) = true := by decide +kernel

/-! ### LZ77 inverse -/

/-- IV1. -/
theorem test_lzinv_overlap : leaves (exec (.lzinv 5) (memBench [0x1F, 0x61, 0x01, 0x00, 0x01] [])) (fun t =>
    memReadBytes t.dst 0 21 == some (List.replicate 21 0x61) && answered .ok 21 t && t.dstPos == 21) = true := by
  decide +kernel

/-- XV10: the match would start before the command's first byte. -/
theorem test_lzinv_reaches_back :
    leaves (exec (.lzinv 5)
        { memBench [0x20, 0x61, 0x62, 0x03, 0x00] (List.replicate 7 0x7A) with dstPos := 7 })
      (fun t => answered .corruptInput 0 t && t.srcPos == 5 && t.dstPos == 9) = true := by decide +kernel

/-- 44 R192, R193: a lone token at the end of the span. -/
theorem test_lzToken :
    leaves (exec (.lzToken 0 15) { memBench [] [] with srcPos := 1, lzi := .active 1 0 .token })
      (fun t => answered .ok 0 t && t.lzi == .idle) = true := by decide +kernel

/-- 44 R191: the extension adds to 15. -/
theorem test_lzLenExt :
    leaves (exec (.lzLenExt 5) { memBench [] [] with srcPos := 2, lzi := .active 40 0 (.litExt 15 3) })
      (fun t => t.lzi == .active 40 0 (.literals 20 3)) = true := by decide +kernel

/-- 44 R192: the last literal, the span going on. -/
theorem test_lzLiteral :
    leaves (exec (.lzLiteral 0x61) { memBench [] [] with srcPos := 2, lzi := .active 5 0 (.literals 1 3) })
      (fun t => t.lzi == .active 5 0 (.dist 3) && t.dstPos == 1 && hostReadDst t 0 == some 0x61) = true := by
  decide +kernel

/-- 44 R194, R196, IV3: distance 2, four bytes. -/
theorem test_lzDist16 :
    leaves (exec (.lzDist16 2) { memBench [] [0x61, 0x62] with srcPos := 5, dstPos := 2, lzi := .active 5 0 (.dist 0) })
      (fun t => memReadBytes t.dst 0 6 == some [0x61, 0x62, 0x61, 0x62, 0x61, 0x62] && answered .ok 6 t) = true := by
  decide +kernel

/-! ### Control registers (95 section 2.8) -/

def mem32 : Config.Params := { plain with srcMemBytes := 32, srcMem_le := by decide }

theorem test_crw :
    leaves (exec (.crw 1 33) { bench plain [] with cfg := mem32 })
      (answered .invalidArgument 0) = true ∧
    leaves (exec (.crw 1 32) { bench plain [] with cfg := mem32 })
      (fun t => answered .ok 0 t && t.srcLen == 32) = true := by decide +kernel

theorem test_crr :
    leaves (exec (.crr 5) (bench plain [])) (answered .ok 4) = true ∧
    leaves (exec (.crr 4) (after [.rbit, .rclose] (bench plain []))) (answered .ok 0x12) = true := by decide +kernel

/-! ### What the host asks: every row decodes and runs as the first instruction after reset -/

theorem test_first_step :
    leaves (step (State.reset.withFetchWord 80 0x42050000000000000000)) (answered .ok 4) = true ∧
    leaves (step (State.reset.withFetchWord 8 0x40)) (fun t => t.lzi == .idle && answered .corruptInput 0 t) = true ∧
    leaves (step (State.reset.withFetchWord 16 0x0001)) (answered .corruptInput 0) = true ∧
    leaves (step (State.reset.withFetchWord 6 0b001101)) (answered .ok 0xFFFFFFFFFFFFFFFB) = true := by decide +kernel

/-! ### What the statements assume: for each statement with hypotheses, states and operands that meet them together, clause by
clause and at the ends of the ranges -/

/-- Thirteen bits written. -/
def written : State := after [.wbits 13 0x1FFF] (bench plain [])

/-- One bit short of a full buffer of four. -/
def nearlyFull : State := after [.wbits 31 5] (bench four [])

/-- Three bits read of two bytes, in buffers of one. -/
def reading : State := after [.rbits 3] (bench tiny [0xB5, 0x79])

/-- A writer and a reader with their I/O faults set. -/
def faulted : State :=
  { bench plain [] with
    writer := { Writer.reset plain with ioFault := true }, reader := { Reader.reset plain with ioFault := true } }

/-- Both closed. -/
def closed : State := after [.wclose, .rclose] (bench plain [])

/-- The environment's coming answers are these. -/
def answering (sink : List Config.SinkAnswer) (source : List Config.SourceAnswer) (s : State) : State :=
  { s with env := { sinkScript := sink, sourceScript := source, draws := 0 } }

/-- The next move of the host. -/
def next (m : HostMove) : State := { bench plain [] with inbox := [m] }

/-- The host's moves in sequence end in a next state. -/
def runs (i : Instr) (s : State) : Prop := ∃ t, exec i s = .next t

theorem witness_StepRunsDecodedInstruction :
    (Between (next (.command 0x11000000000000000000)) ∧
      (next (.command 0x11000000000000000000)).inbox = .command 0x11000000000000000000 :: [] ∧
      decodeCommand 0x11000000000000000000 = .ok .rbit) ∧
    ∃ i s1, lziFetch .token { memBench [0x47] [] with lzi := .active 1 0 .token } = some (i, s1) :=
  ⟨⟨rfl, rfl, rfl⟩, _, _, rfl⟩

theorem witness_ReservedOpIsIllegal :
    Between (next (.command 0xFF000000000000000000)) ∧
    (0xFF000000000000000000 : CommandWord).toNat / 2 ^ 72 ∉
      [0x01, 0x02, 0x03, 0x04, 0x05, 0x11, 0x12, 0x14, 0x15, 0x21, 0x22, 0x31, 0x32, 0x33, 0x41, 0x42] ∧
    (0x00000000000000000001 : CommandWord).toNat / 2 ^ 72 ∉
      [0x01, 0x02, 0x03, 0x04, 0x05, 0x11, 0x12, 0x14, 0x15, 0x21, 0x22, 0x31, 0x32, 0x33, 0x41, 0x42] := by
  decide +kernel

theorem witness_EncodedInstructionsDecode :
    (Instr.lzDist16 0xFFFF).wellFormed = true ∧ (Instr.wbits 255 0).wellFormed = true := by decide

theorem witness_EveryCommandRespondsOnce :
    (slotOf .wcount = .command ∧ runs .wcount written) ∧
    ({ written with responses := [], inbox := [.writeSrc 0 0], sourceStarted := true }.toKzc = written.toKzc ∧
      { written with responses := [], inbox := [.writeSrc 0 0], sourceStarted := true }.cfg = written.cfg ∧
      { written with responses := [], inbox := [.writeSrc 0 0], sourceStarted := true }.env = written.env ∧
      written.responses ≠ []) :=
  ⟨⟨rfl, leaves_next (p := fun _ => true) (by decide +kernel)⟩, rfl, rfl, rfl, by decide +kernel⟩

theorem witness_RefusedCommandsReturnZero :
    ResponsesOk (next (.command 0x13000000000000000000)) ∧
      ∃ t, step (next (.command 0x13000000000000000000)) = .next t :=
  ⟨by decide +kernel, leaves_next (p := fun _ => true) (by decide +kernel)⟩

theorem witness_ResetStartsAfresh :
    Between (next (.reset true false [1])) ∧ (next (.reset true false [1])).inbox = .reset true false [1] :: [] :=
  ⟨rfl, rfl⟩

theorem witness_HostMovesDoWhatTheySay :
    (Between (next (.writeSrc 63 7)) ∧ 63 < (next (.writeSrc 63 7)).cfg.srcMemBytes) ∧
    (Between (next (.writeSrc 64 7)) ∧ (next (.writeSrc 64 7)).cfg.srcMemBytes ≤ 64) ∧
    (Between (next (.writeDst 0 7)) ∧ 0 < (next (.writeDst 0 7)).cfg.dstMemBytes) ∧
    (Between (next (.writeDst 64 7)) ∧ (next (.writeDst 64 7)).cfg.dstMemBytes ≤ 64) ∧
    (Between (next (.attachSource [1])) ∧ (next (.attachSource [1])).sourceStarted = false) ∧
    (Between { reading with inbox := [.attachSource [1]] } ∧ reading.sourceStarted = true) ∧
    (Between reading ∧ reading.inbox = []) := by decide +kernel

theorem witness_WritersAreAdmitted :
    (writeCommand (.egenc 0) = true ∧ faulted.writer.ioFault = true) ∧
    (writeCommand .wflush = true ∧ closed.writer.ioFault = false ∧ closed.writer.closed = true) := by decide +kernel

theorem witness_WbitPacksOneBit :
    (WriterOk written ∧ written.writer.ioFault = false ∧ written.writer.closed = false ∧
      ¬ (written.writer.bit = 0 ∧ written.writer.pos + 1 = written.cfg.wBufsz)) ∧
    (WriterOk nearlyFull ∧ nearlyFull.writer.ioFault = false ∧ nearlyFull.writer.closed = false ∧
      nearlyFull.writer.bit = 0 ∧ nearlyFull.writer.pos + 1 = nearlyFull.cfg.wBufsz ∧ sinkReady 2 nearlyFull) := by
  decide +kernel

theorem witness_WbitsAppendsTheLowBits :
    (WriterOk written ∧ written.writer.ioFault = false ∧ written.writer.closed = false ∧ sinkReady 16 written) ∧
    (1 ≤ (1 : BitVec 8).toNat ∧ (64 : BitVec 8).toNat ≤ 64) := by decide +kernel

theorem witness_WflushPushesCompleteBytes :
    (WriterOk written ∧ written.writer.ioFault = false ∧ written.writer.closed = false ∧ sinkReady 2 written) ∧
    (WriterOk (bench tiny []) ∧ (bench tiny []).writer.closed = false ∧ sinkReady 2 (bench tiny [])) := by
  decide +kernel

theorem witness_WclosePadsAndCloses :
    WriterOk written ∧ written.writer.ioFault = false ∧ written.writer.closed = false ∧ sinkReady 20 written := by
  decide +kernel

theorem witness_ClosesAreIdempotent :
    faulted.writer.ioFault = true ∧ (closed.writer.ioFault = false ∧ closed.writer.closed = true) ∧
    faulted.reader.ioFault = true ∧ (closed.reader.ioFault = false ∧ closed.reader.closed = true) := by decide +kernel

theorem witness_AfterCloseWritesFail :
    WriterInv written ∧ written.writer.count.toNat + 64 ≤ 2 ^ 64 ∧
    (∃ t, exec .wclose written = .next t ∧ t.responses = written.responses ++ [{ status := .ok, val := 0 }]) ∧
    writeCommand (.wbits 1 0) = true := by
  refine ⟨?_, ?_, ?_, rfl⟩
  · decide +kernel
  · decide +kernel
  · exact leaves_with (exec .wclose written)
      (fun t => t.responses = written.responses ++ [{ status := .ok, val := 0 }]) (by decide +kernel)

theorem witness_WcountReturnsTheCount : written.writer.ioFault = false ∧ faulted.writer.ioFault = true := by decide +kernel

theorem witness_SinkFailureIsRecorded :
    (writerCommand .wclose = true ∧ written.writer.ioFault = false ∧ runs .wclose written) ∧
    (∃ t, exec .wflush (answering [.ok, .fail 0, .ok] [] written) = .next t ∧
      (answering [.ok, .fail 0, .ok] [] written).env.sinkScript = [.ok, .fail 0] ++ t.env.sinkScript) ∧
    (0 < written.writer.pos ∧ written.writer.closed = false ∧
      (answering [.fail 1] [] written).env.sinkScript = .fail 1 :: [] ∧
      (answering [.ok, .fail 1] [] written).env.sinkScript =
        (if 0 < written.writer.pos then [.ok] else []) ++ .fail 1 :: []) ∧
    (WriterOk (answering [.ok, .fail 1] [] nearlyFull) ∧ bitsToFill (answering [.ok, .fail 1] [] nearlyFull) ≤ 1) ∧
    (WriterOk (answering [.fail 0] [] (bench tiny [])) ∧
      bitsToFill (answering [.fail 0] [] (bench tiny [])) ≤ (8 : BitVec 8).toNat ∧
      symbolOk false 15 = true ∧ bitsToFill (answering [.fail 0] [] (bench tiny [])) ≤ (symbolBits false 15).length) ∧
    ((bench tiny []).writer.ioFault = false ∧ (bench tiny []).writer.closed = false ∧ (bench tiny []).writer.pos = 0 ∧
      (bench tiny []).writer.bit = 7 ∧ (bench tiny []).writer.count.toNat % 64 = 0) := by
  refine ⟨⟨rfl, by decide +kernel, leaves_next (p := fun _ => true) (by decide +kernel)⟩, ?_, ?_, ?_, ?_, ?_⟩
  · exact leaves_with (exec .wflush (answering [.ok, .fail 0, .ok] [] written))
      (fun t => (answering [.ok, .fail 0, .ok] [] written).env.sinkScript = [.ok, .fail 0] ++ t.env.sinkScript)
      (by decide +kernel)
  all_goals decide +kernel

theorem witness_StepsKeepTheWriterInvariant :
    WriterInv (next (.command 0x01000000000000000001)) ∧
      ∃ t, step (next (.command 0x01000000000000000001)) = .next t :=
  ⟨by decide +kernel, leaves_next (p := fun _ => true) (by decide +kernel)⟩

theorem witness_ReadersAreAdmitted :
    (readCommand .egdec = true ∧ faulted.reader.ioFault = true) ∧
    ((after [.rbit] (bench plain [])).reader.ioFault = false ∧ (after [.rbit] (bench plain [])).reader.eos = true) ∧
    (readCommand (.rbits 0) = true ∧ closed.reader.ioFault = false ∧ closed.reader.eos = false ∧
      closed.reader.closed = true) := by decide +kernel

theorem witness_RbitReturnsTheNextBit :
    ReaderOk reading ∧ reading.reader.ioFault = false ∧ reading.reader.eos = false ∧ reading.reader.closed = false ∧
      sourceReady 1 reading ∧
      pendingBits reading =
        true :: [false, true, false, true, false, true, true, true, true, false, false, true] := by decide +kernel

theorem witness_RbitsReturnsTheNextBits :
    (ReaderOk reading ∧ reading.reader.ioFault = false ∧ reading.reader.eos = false ∧
      reading.reader.closed = false ∧ sourceReady 8 reading ∧ (13 : BitVec 8).toNat ≤ (pendingBits reading).length) ∧
    (ReaderOk (bench tiny (List.replicate 8 0xA5)) ∧ sourceReady 8 (bench tiny (List.replicate 8 0xA5)) ∧
      (64 : BitVec 8).toNat ≤ (pendingBits (bench tiny (List.replicate 8 0xA5))).length) := by decide +kernel

theorem witness_ReadingPastTheEndIsCaught :
    (ReaderOk reading ∧ reading.reader.ioFault = false ∧ reading.reader.eos = false ∧
      reading.reader.closed = false ∧ sourceReady 9 reading ∧
      (pendingBits reading).length < (14 : BitVec 8).toNat) ∧
    (ReaderOk (bench plain []) ∧ (bench plain []).reader.ioFault = false ∧ (bench plain []).reader.eos = false ∧
      (bench plain []).reader.closed = false ∧ pendingBits (bench plain []) = [] ∧ sourceReady 3 (bench plain [])) ∧
    (ReaderOk (bench plain [0]) ∧ pendingBits (bench plain [0]) = List.replicate 8 false) ∧
    (ReaderOk (bench plain [0x02]) ∧ pendingBits (bench plain [0x02]) = List.replicate 6 false ++ [true] ++ [false] ∧
      [false].length < 6) ∧
    (ReaderOk (after [.rbits 5] (bench signedPair [0x02])) ∧
      (after [.rbits 5] (bench signedPair [0x02])).cfg.egdSigned = true ∧
      pendingBits (after [.rbits 5] (bench signedPair [0x02])) = List.replicate 1 false ++ [true] ++ [false]) ∧
    (ReaderOk (after [.rbits 7] (bench signedPair [0, 1, 0])) ∧ sourceReady 3 (after [.rbits 7] (bench signedPair [0, 1, 0])) ∧
      pendingBits (after [.rbits 7] (bench signedPair [0, 1, 0])) =
        List.replicate 8 false ++ [true] ++ List.replicate 8 false ∧ true ∉ List.replicate 8 false) := by
  refine ⟨?_, ?_, ?_, ?_, ?_, ?_⟩ <;> decide +kernel

theorem witness_RcloseClosesTheSource :
    reading.reader.ioFault = false ∧ reading.reader.closed = false ∧ sourceReady 1 reading := by decide +kernel

theorem witness_SourceFailureIsRecorded :
    (readerCommand .egdec = true ∧ reading.reader.ioFault = false ∧ runs .egdec reading) ∧
    (∃ t, exec (.rbits 13) (answering [] [.deliver 1, .fail 0, .fail 0] (bench tiny [0xB5, 0x79])) = .next t ∧
      (answering [] [.deliver 1, .fail 0, .fail 0] (bench tiny [0xB5, 0x79])).env.sourceScript =
        [.deliver 1, .fail 0] ++ t.env.sourceScript) ∧
    (reading.reader.closed = false ∧ (answering [] [.fail 0] reading).env.sourceScript = .fail 0 :: []) ∧
    ((bench plain []).reader.eos = false ∧ (bench plain []).reader.pos = (bench plain []).reader.fill ∧
      readCommand .egdec = true ∧ readCommand (.rbits 64) = true) ∧
    (ReaderOk (answering [] [.fail 0] reading) ∧
      8 * (reading.reader.fill - reading.reader.pos) < (6 : BitVec 8).toNat + (7 - reading.reader.bit.toNat)) := by
  refine ⟨⟨rfl, by decide +kernel, leaves_next (p := fun _ => true) (by decide +kernel)⟩, ?_, ?_, ?_, ?_⟩
  · exact leaves_with (exec (.rbits 13) (answering [] [.deliver 1, .fail 0, .fail 0] (bench tiny [0xB5, 0x79])))
      (fun t => (answering [] [.deliver 1, .fail 0, .fail 0] (bench tiny [0xB5, 0x79])).env.sourceScript =
        [.deliver 1, .fail 0] ++ t.env.sourceScript) (by decide +kernel)
  all_goals decide +kernel

theorem witness_RcountReturnsTheCount :
    (reading.reader.ioFault = false ∧ reading.reader.eos = false) ∧
    (faulted.reader.ioFault = true ∨ faulted.reader.eos = true) ∧
    ((after [.rbit] (bench plain [])).reader.ioFault = true ∨ (after [.rbit] (bench plain [])).reader.eos = true) := by
  decide +kernel

theorem witness_StepsKeepTheReaderInvariant :
    ReaderInv (next (.command 0x11000000000000000000)) ∧
      ∃ t, step (next (.command 0x11000000000000000000)) = .next t :=
  ⟨by decide +kernel, leaves_next (p := fun _ => true) (by decide +kernel)⟩

theorem witness_WrittenFieldsAreReadBack :
    (∀ f ∈ [((4 : BitVec 8), (0xF5 : Word64)), (64, 1)], 1 ≤ f.1.toNat ∧ f.1.toNat ≤ 64) ∧
    (WriterOk (bench plain []) ∧ (bench plain []).writer.ioFault = false ∧ (bench plain []).writer.closed = false ∧
      writtenBits (bench plain []) = [] ∧ sinkReady 52 (bench plain [])) ∧
    (∃ t, execAll [.wbits 4 0xF5, .wbits 64 1, .wclose] (bench plain []) = .next t ∧
      pendingBits (bench plain [0x50, 0, 0, 0, 0, 0, 0, 0, 0x1F, 0xFF, 0xFF, 0xFF, 0xFF, 0xFF, 0xFF, 0xFF]) =
        t.sink.bytes.flatMap byteBits) ∧
    ReaderOk (bench plain [0x50, 0, 0, 0, 0, 0, 0, 0, 0x1F, 0xFF, 0xFF, 0xFF, 0xFF, 0xFF, 0xFF, 0xFF]) ∧
    sourceReady 16 (bench plain [0x50, 0, 0, 0, 0, 0, 0, 0, 0x1F, 0xFF, 0xFF, 0xFF, 0xFF, 0xFF, 0xFF, 0xFF]) := by
  refine ⟨?_, ?_, ?_, ?_, ?_⟩
  · simp
  · decide +kernel
  · exact leaves_with (execAll [.wbits 4 0xF5, .wbits 64 1, .wclose] (bench plain []))
      (fun t =>
        pendingBits (bench plain [0x50, 0, 0, 0, 0, 0, 0, 0, 0x1F, 0xFF, 0xFF, 0xFF, 0xFF, 0xFF, 0xFF, 0xFF]) =
          t.sink.bytes.flatMap byteBits) (by decide +kernel)
  · decide +kernel
  · decide +kernel

theorem witness_EgencAppendsTheCode :
    (WriterOk (bench signedPair []) ∧ (bench signedPair []).writer.ioFault = false ∧
      (bench signedPair []).writer.closed = false ∧ sinkReady 6 (bench signedPair []) ∧
      ((bench signedPair []).cfg.egeSigned = false → 0 ≤ (0xFFFFFFFFFFFFFF01 : Word64).toInt)) ∧
    ((0xFFFFFFFFFFFFFF01 : Word64).toInt.natAbs ≤ 255 ∧ 2 ^ 8 - 1 ≤ (0xFFFFFFFFFFFFFF01 : Word64).toInt.natAbs ∧
      (0xFFFFFFFFFFFFFF01 : Word64).toInt.natAbs ≤ 2 ^ (8 + 1) - 2) ∧
    (WriterOk written ∧ sinkReady 6 written ∧ (written.cfg.egeSigned = false → 0 ≤ (0 : Word64).toInt) ∧
      2 ^ 0 - 1 ≤ (0 : Word64).toInt.natAbs ∧ (0 : Word64).toInt.natAbs ≤ 2 ^ (0 + 1) - 2) := by decide +kernel

theorem witness_EgdecReturnsTheSymbol :
    ReaderOk (bench signedPair [0x00, 0x80, 0x40]) ∧ (bench signedPair [0x00, 0x80, 0x40]).reader.ioFault = false ∧
    (bench signedPair [0x00, 0x80, 0x40]).reader.eos = false ∧
    (bench signedPair [0x00, 0x80, 0x40]).reader.closed = false ∧ sourceReady 3 (bench signedPair [0x00, 0x80, 0x40]) ∧
    pendingBits (bench signedPair [0x00, 0x80, 0x40]) = List.replicate 8 false ++ [true] ++
      (List.range 8).reverse.map (fun i => ((0xFFFFFFFFFFFFFF01 : Word64).toInt.natAbs - (2 ^ 8 - 1)).testBit i) ++
      (if (bench signedPair [0x00, 0x80, 0x40]).cfg.egdSigned = true ∧ (0xFFFFFFFFFFFFFF01 : Word64).toInt ≠ 0 then
        [decide ((0xFFFFFFFFFFFFFF01 : Word64).toInt < 0)] else []) ++ List.replicate 6 false := by decide +kernel

theorem witness_EgdecStopsOutOfRange :
    (ReaderOk (bench plain [0x00, 0x40]) ∧ (bench plain [0x00, 0x40]).reader.ioFault = false ∧
      (bench plain [0x00, 0x40]).reader.eos = false ∧ (bench plain [0x00, 0x40]).reader.closed = false ∧
      sourceReady 3 (bench plain [0x00, 0x40])) ∧
    pendingBits (bench plain [0x00, 0x40]) =
      List.replicate 9 false ++ [true, false, false, false, false, false, false] ∧
    (ReaderOk (bench plain [0x00, 0x80, 0x80]) ∧ ([false, false, false, false, false, false, false, true].length = 8 ∧
      true ∈ [false, false, false, false, false, false, false, true]) ∧
      pendingBits (bench plain [0x00, 0x80, 0x80]) = List.replicate 8 false ++ [true] ++
        [false, false, false, false, false, false, false, true] ++ List.replicate 7 false) := by decide +kernel

theorem witness_CodesArePrefixFree :
    symbolOk true 0xFFFFFFFFFFFFFF01 = true ∧ symbolOk false 255 = true ∧
      symbolBits true 0xFFFFFFFFFFFFFF01 <+: symbolBits true 0xFFFFFFFFFFFFFF01 := by decide +kernel

theorem witness_LzmaxReturnsTheBound :
    (0x7FFFFFFF : Word64).toNat ≤ 2 ^ 31 - 1 ∧ 2 ^ 31 - 1 < (0x80000000 : Word64).toNat := by decide

theorem witness_LzOperandsAreChecked :
    2 ^ 31 - 1 < (0x80000000 : Word64).toNat ∧
    (memBench [] []).srcLen.toNat < (memBench [] []).srcPos.toNat + (65 : Word64).toNat ∧
    ((64 : Word64).toNat ≤ 2 ^ 31 - 1 ∧
      (memBench [] []).srcPos.toNat + (64 : Word64).toNat ≤ (memBench [] []).srcLen.toNat ∧
      (memBench [] []).dstLen.toNat - (memBench [] []).dstPos.toNat <
        (64 : Word64).toNat + (64 : Word64).toNat / 255 + 16) := by decide +kernel

theorem witness_LzfwdEmitsAShortInputAsLiterals :
    (13 : Word64).toNat ≤ 13 ∧
    (memBench (List.replicate 13 7) []).srcPos.toNat + (13 : Word64).toNat ≤
      (memBench (List.replicate 13 7) []).srcLen.toNat ∧
    (13 : Word64).toNat + 16 ≤
      (memBench (List.replicate 13 7) []).dstLen.toNat - (memBench (List.replicate 13 7) []).dstPos.toNat ∧
    memReadBytes (memBench (List.replicate 13 7) []).src (memBench (List.replicate 13 7) []).srcPos.toNat
      (13 : Word64).toNat = some (List.replicate 13 7) := by decide +kernel

theorem witness_LzfwdWritesTheBlock :
    (20 : Word64).toNat ≤ 2 ^ 31 - 1 ∧
    (memBench (List.replicate 20 7) []).srcPos.toNat + (20 : Word64).toNat ≤
      (memBench (List.replicate 20 7) []).srcLen.toNat ∧
    (20 : Word64).toNat + (20 : Word64).toNat / 255 + 16 ≤
      (memBench (List.replicate 20 7) []).dstLen.toNat - (memBench (List.replicate 20 7) []).dstPos.toNat ∧
    memReadBytes (memBench (List.replicate 20 7) []).src (memBench (List.replicate 20 7) []).srcPos.toNat
      (20 : Word64).toNat = some (List.replicate 20 7) := by decide +kernel

/-- Two machines whose spans lie at different addresses beside different bytes. -/
theorem witness_LzfwdDependsOnTheSpanOnly :
    memReadBytes (memBench (List.replicate 20 7) []).src 0 20 =
      memReadBytes { memBench (1 :: List.replicate 20 7) [9] with srcPos := 1, dstPos := 1 }.src 1 20 ∧
    runs (.lzfwd 20) (memBench (List.replicate 20 7) []) ∧
    runs (.lzfwd 20) { memBench (1 :: List.replicate 20 7) [9] with srcPos := 1, dstPos := 1 } :=
  ⟨by decide +kernel, leaves_next (p := fun _ => true) (by decide +kernel),
    leaves_next (p := fun _ => true) (by decide +kernel)⟩

theorem witness_LzCommandsFaultOnUnwrittenBytes :
    ((20 : Word64).toNat ≤ 2 ^ 31 - 1 ∧
    (memBench (List.replicate 19 7) []).srcPos.toNat + (20 : Word64).toNat ≤
      (memBench (List.replicate 19 7) []).srcLen.toNat ∧
    (20 : Word64).toNat + (20 : Word64).toNat / 255 + 16 ≤
      (memBench (List.replicate 19 7) []).dstLen.toNat - (memBench (List.replicate 19 7) []).dstPos.toNat ∧
    ∃ i < (20 : Word64).toNat, hostReadSrc (memBench (List.replicate 19 7) []) (0 + i) = none) ∧
    ((memBench [] []).srcPos.toNat + (1 : Word64).toNat ≤ (memBench [] []).srcLen.toNat ∧ 1 ≤ (1 : Word64).toNat ∧
      hostReadSrc (memBench [] []) (memBench [] []).srcPos.toNat = none ∧
      leaves (exec (.lzinv 3) (memBench [0x20, 1, 2] [])) (fun t => t.srcPos.toNat - 0 == 3) = true ∧
      stopsUninit (exec (.lzinv 5) (memBench [0x20, 1, 2] [])) = true) ∧
    ({ memBench [0] [] with lzi := .active 2 0 (.dist 0) }.lzi = .active 2 0 (.dist 0) ∧
      hostReadSrc (memBench [0] []) ((memBench [0] []).srcPos + 1).toNat = none) := by
  decide +kernel

theorem witness_LzinvExpandsALiteralRun :
    (17 : Word64).toNat ≤ 2 ^ 31 - 1 ∧
    (memBench (0xF0 :: 0 :: List.replicate 15 7) []).srcPos.toNat + (17 : Word64).toNat ≤
      (memBench (0xF0 :: 0 :: List.replicate 15 7) []).srcLen.toNat ∧
    (memBench (0xF0 :: 0 :: List.replicate 15 7) []).dstPos.toNat + (List.replicate 15 (7 : Byte)).length ≤
      (memBench (0xF0 :: 0 :: List.replicate 15 7) []).dstLen.toNat ∧
    memReadBytes (memBench (0xF0 :: 0 :: List.replicate 15 7) []).src 0 (17 : Word64).toNat =
      some (lastSequenceBytes (List.replicate 15 7)) := by decide +kernel

theorem witness_LzinvRepeatsTheMatch :
    (5 : Word64).toNat ≤ 2 ^ 31 - 1 ∧ 1 ≤ 1 ∧ 1 ≤ 65535 ∧ 1 ≤ [(0x61 : Byte)].length ∧
    (memBench [0x1F, 0x61, 0x01, 0x00, 0x01] []).srcPos.toNat + (5 : Word64).toNat ≤
      (memBench [0x1F, 0x61, 0x01, 0x00, 0x01] []).srcLen.toNat ∧
    (memBench [0x1F, 0x61, 0x01, 0x00, 0x01] []).dstPos.toNat + [(0x61 : Byte)].length + (16 + 4) ≤
      (memBench [0x1F, 0x61, 0x01, 0x00, 0x01] []).dstLen.toNat ∧
    memReadBytes (memBench [0x1F, 0x61, 0x01, 0x00, 0x01] []).src 0 (5 : Word64).toNat =
      some (sequenceBytes [0x61] 1 16) := by decide +kernel

/-- A corrupt span, and the empty one. -/
theorem witness_LzinvAlwaysEnds :
    ((2 : Word64).toNat ≤ 2 ^ 31 - 1 ∧
      (memBench [0x30, 0x61] []).srcPos.toNat + (2 : Word64).toNat ≤ (memBench [0x30, 0x61] []).srcLen.toNat ∧
      memReadBytes (memBench [0x30, 0x61] []).src 0 (2 : Word64).toNat = some [0x30, 0x61]) ∧
    memReadBytes (memBench [] []).src 0 (0 : Word64).toNat = some [] := by decide +kernel

theorem witness_LzinvChangesOnlyItsOutput : runs (.lzinv 5) (memBench [0x1F, 0x61, 0x01, 0x00, 0x01] []) :=
  leaves_next (p := fun _ => true) (by decide +kernel)

/-- 14 bytes of 'a' encoded here, and expanded on a machine that holds the block elsewhere. -/
theorem witness_ExpandingABlockGivesTheInputBack :
    (∃ t, exec (.lzfwd 14) (memBench (List.replicate 14 0x61) []) = .next t ∧
      t.responses = (memBench (List.replicate 14 0x61) []).responses ++ [{ status := .ok, val := 10 }] ∧
      memReadBytes t.dst 0 10 = some [0x14, 0x61, 0x01, 0x00, 0x50, 0x61, 0x61, 0x61, 0x61, 0x61]) ∧
    memReadBytes (memBench (List.replicate 14 0x61) []).src 0 14 = some (List.replicate 14 0x61) ∧
    (3 + 10 ≤ 64 ∧ 5 + 14 ≤ 64 ∧
      memReadBytes
        { memBench [0, 0, 0, 0x14, 0x61, 0x01, 0x00, 0x50, 0x61, 0x61, 0x61, 0x61, 0x61] [] with
          srcPos := 3, dstPos := 5 }.src 3 10 =
        some [0x14, 0x61, 0x01, 0x00, 0x50, 0x61, 0x61, 0x61, 0x61, 0x61]) := by
  refine ⟨?_, ?_, ?_⟩
  · exact leaves_with (exec (.lzfwd 14) (memBench (List.replicate 14 0x61) []))
      (fun t => t.responses = (memBench (List.replicate 14 0x61) []).responses ++ [{ status := .ok, val := 10 }] ∧
        memReadBytes t.dst 0 10 = some [0x14, 0x61, 0x01, 0x00, 0x50, 0x61, 0x61, 0x61, 0x61, 0x61])
      (by decide +kernel)
  · decide +kernel
  · decide +kernel

theorem witness_LzinvIsItsElements :
    1 ≤ (1 : Word64).toNat ∧ (64 : Word64).toNat ≤ 2 ^ 31 - 1 ∧
    (memBench [] []).srcPos.toNat + (64 : Word64).toNat ≤ (memBench [] []).srcLen.toNat := by decide +kernel

/-- LZINV at a place, its cursors at `sp` and `dp`, the view of DST 64 bytes, eight of them written. -/
def inside (sp dp : Word32) (sEnd : Nat) (phase : LziPhase) : State :=
  { memBench [] (List.replicate 8 7) with srcPos := sp, dstPos := dp, lzi := .active sEnd 0 phase }

theorem witness_TokensOpenASequence :
    (inside 1 8 2 .token).lzi = .active 2 0 .token ∧
    (inside 1 8 2 .token).srcPos.toNat < 2 ∧ 1 ≤ (inside 1 8 1 .token).srcPos.toNat ∧
    ((14 : BitVec 4) ≠ 15 ∧ 14 < (inside 1 8 14 .token).srcPos.toNat + (14 : BitVec 4).toNat) ∧
    (inside 1 51 40 .token).dstLen.toNat < (inside 1 51 40 .token).dstPos.toNat + (14 : BitVec 4).toNat ∧
    ((14 : BitVec 4) ≠ 0 ∧ (inside 1 50 15 .token).srcPos.toNat + (14 : BitVec 4).toNat ≤ 15 ∧
      (inside 1 50 15 .token).dstPos.toNat + (14 : BitVec 4).toNat ≤ (inside 1 50 15 .token).dstLen.toNat) ∧
    ((inside 1 64 1 .token).srcPos.toNat = 1 ∧
      (inside 1 64 1 .token).dstPos.toNat ≤ (inside 1 64 1 .token).dstLen.toNat) ∧
    (inside 1 8 2 .token).srcPos.toNat + 1 = 2 ∧ (inside 1 8 3 .token).srcPos.toNat + 2 ≤ 3 := by decide +kernel

theorem witness_ExtensionBytesAddUp :
    (inside 1 8 2 (.litExt 15 0)).lzi = .active 2 0 (.litExt 15 0) ∧
    (inside 1 8 2 (.litExt 15 0)).srcPos.toNat < 2 ∧ 1 ≤ (inside 1 8 1 (.litExt 15 0)).srcPos.toNat ∧
    ((254 : Byte) ≠ 0xFF ∧ 0 < 15 + (0 : Byte).toNat ∧ (inside 1 8 16 (.litExt 15 0)).srcPos.toNat +
      (15 + (0 : Byte).toNat) ≤ 16 ∧ (inside 1 8 16 (.litExt 15 0)).dstPos.toNat + (15 + (0 : Byte).toNat) ≤ 64) ∧
    15 < (inside 1 8 15 (.litExt 15 0)).srcPos.toNat + (15 + (0 : Byte).toNat) ∧
    (inside 1 8 2 (.matchExt 8 15)).lzi = .active 2 0 (.matchExt 8 15) ∧
    ((inside 1 8 2 (.matchExt 8 15)).dstPos.toNat - 0 < 9 ∧
      (inside 1 8 2 (.matchExt 8 15)).dstLen.toNat < (inside 1 8 2 (.matchExt 8 15)).dstPos.toNat +
        (15 + (38 : Byte).toNat + 4)) ∧
    (8 ≠ 0 ∧ 8 ≤ (inside 1 8 1 (.matchExt 8 15)).dstPos.toNat - 0 ∧
      (inside 1 8 1 (.matchExt 8 15)).dstPos.toNat + (15 + (37 : Byte).toNat + 4) ≤
        (inside 1 8 1 (.matchExt 8 15)).dstLen.toNat ∧
      (∀ a, 0 ≤ a → a < (inside 1 8 1 (.matchExt 8 15)).dstPos.toNat →
        hostReadDst (inside 1 8 1 (.matchExt 8 15)) a ≠ none) ∧
      (inside 1 8 1 (.matchExt 8 15)).srcPos.toNat ≤ 1) := by decide +kernel

theorem witness_LiteralsAreCopied :
    (inside 1 63 1 (.literals 1 0)).lzi = .active 1 0 (.literals 1 0) ∧
    (inside 1 63 1 (.literals 1 0)).dstPos.toNat < (inside 1 63 1 (.literals 1 0)).dstLen.toNat ∧
    (inside 1 63 1 (.literals 1 0)).srcPos.toNat ≤ 1 ∧ 1 ≤ 1 := by decide +kernel

theorem witness_DistancesCopyTheMatch :
    (inside 2 8 3 (.dist 15)).lzi = .active 3 0 (.dist 15) ∧ (inside 2 8 3 (.dist 15)).srcPos.toNat < 3 ∧
    2 ≤ (inside 2 8 2 (.dist 15)).srcPos.toNat ∧
    (14 < 15 ∧ (inside 2 8 2 (.dist 14)).dstPos.toNat - 0 < (9 : BitVec 16).toNat ∧
      (inside 2 47 2 (.dist 14)).dstLen.toNat < (inside 2 47 2 (.dist 14)).dstPos.toNat + (14 + 4)) ∧
    ((8 : BitVec 16) ≠ 0 ∧ (8 : BitVec 16).toNat ≤ (inside 2 8 2 (.dist 14)).dstPos.toNat - 0 ∧
      (inside 2 8 2 (.dist 14)).dstPos.toNat + (14 + 4) ≤ (inside 2 8 2 (.dist 14)).dstLen.toNat ∧
      (∀ a, 0 ≤ a → a < (inside 2 8 2 (.dist 14)).dstPos.toNat →
        hostReadDst (inside 2 8 2 (.dist 14)) a ≠ none) ∧
      (inside 2 8 2 (.dist 14)).srcPos.toNat ≤ 2) := by decide +kernel

theorem witness_ElementsStopOutOfPlace :
    (∀ sEnd d0, (bench plain []).lzi ≠ .active sEnd d0 .token) ∧
    (∀ sEnd d0 len mat, (bench plain []).lzi ≠ .active sEnd d0 (.litExt len mat)) ∧
    (∀ sEnd d0 dist len, (inside 2 8 2 .token).lzi ≠ .active sEnd d0 (.matchExt dist len)) ∧
    (∀ sEnd d0 left mat, (inside 2 8 2 (.dist 0)).lzi ≠ .active sEnd d0 (.literals left mat)) ∧
    (∀ sEnd d0 mat, (inside 2 8 2 .token).lzi ≠ .active sEnd d0 (.dist mat)) ∧
    ((1 : BitVec 16).toNat ≤ (inside 2 9 2 (.dist 0)).dstPos.toNat - 0 ∧
      (inside 2 9 2 (.dist 0)).dstPos.toNat + (0 + 4) ≤ (inside 2 9 2 (.dist 0)).dstLen.toNat ∧
      hostReadDst (inside 2 9 2 (.dist 0)) ((inside 2 9 2 (.dist 0)).dstPos.toNat - (1 : BitVec 16).toNat) = none) :=
  ⟨nofun, nofun, nofun, nofun, nofun, by decide +kernel⟩

theorem witness_CrwWritesLegalValuesOnly :
    (64 : Word64).toNat ≤ (memBench [] []).srcLen.toNat ∧ (memBench [] []).srcPos.toNat ≤ (0 : Word64).toNat ∧
    (64 : Word64).toNat ≤ (memBench [] []).cfg.srcMemBytes ∧ (64 : Word64).toNat ≤ (memBench [] []).dstLen.toNat ∧
    (memBench [] []).dstPos.toNat ≤ (0 : Word64).toNat ∧ (64 : Word64).toNat ≤ (memBench [] []).cfg.dstMemBytes ∧
    (memBench [] []).srcLen.toNat < (65 : Word64).toNat ∧ (memBench [] []).cfg.srcMemBytes < (65 : Word64).toNat ∧
    (memBench [] []).dstLen.toNat < (65 : Word64).toNat ∧ (memBench [] []).cfg.dstMemBytes < (65 : Word64).toNat ∧
    ((3 : Word64).toNat < { memBench [] [] with srcPos := 4, dstPos := 4 }.srcPos.toNat ∧
      (3 : Word64).toNat < { memBench [] [] with srcPos := 4, dstPos := 4 }.dstPos.toNat) ∧
    4 ≤ (4 : BitVec 8).toNat := by decide +kernel

theorem witness_CrrReadsEveryRegister : (7 : BitVec 8) = 7 ∧ 8 ≤ (8 : BitVec 8).toNat := by decide

theorem witness_BadOperandsChangeNothing :
    (written.writer.ioFault = false ∧ written.writer.closed = false ∧
      ((0 : BitVec 8).toNat < 1 ∨ 64 < (0 : BitVec 8).toNat) ∧ ((65 : BitVec 8).toNat < 1 ∨ 64 < (65 : BitVec 8).toNat)) ∧
    (reading.reader.ioFault = false ∧ reading.reader.eos = false ∧ reading.reader.closed = false) ∧
    (255 < (256 : Word64).toInt ∧
      (0xFFFFFFFFFFFFFF00 : Word64).toInt < (if (bench signedPair []).cfg.egeSigned then -255 else 0) ∧
      (0xFFFFFFFFFFFFFFFF : Word64).toInt < (if written.cfg.egeSigned then -255 else 0)) := by decide +kernel

theorem witness_PipelinesAreIndependent :
    (writerCommand (.egenc 3) = true ∧ runs (.egenc 3) written) ∧ (readerCommand .egdec = true ∧ runs .egdec reading) ∧
      (lzCommand (.lzinv 5) = true ∧ runs (.lzinv 5) (memBench [0x1F, 0x61, 0x01, 0x00, 0x01] [])) :=
  ⟨⟨rfl, leaves_next (p := fun _ => true) (by decide +kernel)⟩,
    ⟨rfl, leaves_next (p := fun _ => true) (by decide +kernel)⟩,
    ⟨rfl, leaves_next (p := fun _ => true) (by decide +kernel)⟩⟩

/-- A bit is set, the host's next move is no reset, and the step answers. -/
theorem witness_StatusBitsAreOneWay :
    (∀ e d source, { closed with inbox := [.command 0x05000000000000000000] }.inbox.head? ≠
      some (.reset e d source)) ∧
    (∃ t, step { closed with inbox := [.command 0x05000000000000000000] } = .next t) ∧
    (statusBits { closed with inbox := [.command 0x05000000000000000000] }).getLsbD 0 = true :=
  ⟨nofun, leaves_next (p := fun _ => true) (by decide +kernel), by decide +kernel⟩

theorem witness_ConfigurationIsConstant :
    (∃ t, step (next (.reset true true [])) = .next t) ∧
    (∀ e d source, (next (.writeSrc 0 0)).inbox.head? ≠ some (.reset e d source)) ∧
    ∃ t, step (next (.writeSrc 0 0)) = .next t :=
  ⟨leaves_next (p := fun _ => true) (by decide +kernel), nofun, leaves_next (p := fun _ => true) (by decide +kernel)⟩

theorem witness_StepsKeepTheViews :
    Between { memBench [0x40] [] with inbox := [.command 0x32000000000000000001] } ∧
    ViewsOk { memBench [0x40] [] with inbox := [.command 0x32000000000000000001] } ∧
    ∃ t, step { memBench [0x40] [] with inbox := [.command 0x32000000000000000001] } = .next t :=
  ⟨rfl, by decide +kernel, leaves_next (p := fun _ => true) (by decide +kernel)⟩

theorem witness_StepsKeepTheCanonicalForm :
    Canonical (inside 0 8 5 .token) ∧ Canonical { inside 0 8 5 .token with src := [(0, 0x10)] } ∧
    ∃ t, step { inside 0 8 5 .token with src := [(0, 0x10)] } = .next t :=
  ⟨by decide +kernel, by decide +kernel, leaves_next (p := fun _ => true) (by decide +kernel)⟩

end Sys2Proof.Tests
end

section
/-! PROOFS. 00 R3, the scope of each command: the writer's side, the reader's side and the LZ units each move their own
part of the machine and nothing else. -/

namespace Sys2Proof.Machine

/-! ### Commands that answer from a kept frame -/

/-- A run that keeps the frame `F`, whether it goes on or has ended its command. -/
def Run.Keeps {α : Type} (F : State → State → Prop) (s : State) (r : Run α) : Prop :=
  r.Meets (fun _ t => F s t) (fun _ t => F s t)

theorem Run.Keeps.andThen {α β : Type} {F : State → State → Prop} (trans : ∀ {s t u}, F s t → F t u → F s u) {s : State}
    {r : Run α} {f : α → State → Run β} (h : r.Keeps F s) (hf : ∀ a t, (f a t).Keeps F t) :
    (andThen r f).Keeps F s :=
  Run.Meets.andThen h fun a t ht => (hf a t).imp (fun _ _ => trans ht) fun _ _ => trans ht

/-- The command ends with a response, and but for that response in a state that meets `P`. -/
def Answers (P : State → Prop) (o : Host.Outcome State Fault Refusal) : Prop :=
  ∃ u st v, o = .next (respond u st v) ∧ P u

theorem answers_raiseStatus {P : State → Prop} {s : State} (st : Status) (h : P s) : Answers P (raiseStatus st s) :=
  ⟨s, st, 0, rfl, h⟩

theorem answers_returnOk {P : State → Prop} {s : State} (v : Word64) (h : P s) : Answers P (returnOk v s) :=
  ⟨s, .ok, v, rfl, h⟩

theorem answers_admitted {P : State → Prop} {s : State} (test : Option Status)
    {body : State → Host.Outcome State Fault Refusal} (h : P s) (hb : Answers P (body s)) :
    Answers P (admitted test body s) := by
  cases test with
  | none => exact hb
  | some st => exact answers_raiseStatus st h

theorem answers_conclude {F : State → State → Prop} {s : State} {r : Run Word64} (h : r.Keeps F s) :
    Answers (F s) (conclude r) := by
  rcases conclude_of_meets h with ⟨v, u, e, hu⟩ | ⟨st, u, e, hu⟩
  · exact ⟨u, .ok, v, e, hu⟩
  · exact ⟨u, st, 0, e, hu⟩

theorem Answers.imp {P Q : State → Prop} {o : Host.Outcome State Fault Refusal} (h : Answers P o)
    (hpq : ∀ u, P u → Q u) : Answers Q o := by
  obtain ⟨u, st, v, e, hu⟩ := h
  exact ⟨u, st, v, e, hpq u hu⟩

/-! ### The writer's side -/

theorem keeps_of_writes {α : Type} {s : State} {r : Run α} (h : Writes s r) : r.Keeps WriteFrame s :=
  h.imp (fun _ _ ⟨hf, _⟩ => hf) fun _ _ ⟨_, hf, _⟩ => hf

theorem writeFrame_done (v : Word64) (s : State) : (Run.done v s).Keeps WriteFrame s := WriteFrame.refl s

/-- Some bits put, the command going on within the writer's frame. -/
theorem putBits_keeps (bs : List Bool) {f : State → Run Word64} (s : State) (hf : ∀ t, (f t).Keeps WriteFrame t) :
    (andThen (putBits bs s) fun _ t => f t).Keeps WriteFrame s :=
  .andThen .trans (keeps_of_writes (putBits_writes bs s)) fun _ => hf

theorem execWbit_frame (b : Bool) (s : State) : Answers (WriteFrame s) (execWbit b s) := by
  refine answers_admitted _ (WriteFrame.refl s) (answers_conclude ?_)
  exact .andThen .trans (keeps_of_writes (putBit_writes b s)) fun _ => writeFrame_done 0

theorem execWbits_frame (a : BitVec 8) (v : Word64) (s : State) : Answers (WriteFrame s) (execWbits a v s) := by
  refine answers_admitted _ (WriteFrame.refl s) ?_
  split
  · exact answers_conclude (putBits_keeps _ s (writeFrame_done _))
  · exact answers_raiseStatus _ (WriteFrame.refl s)

theorem execWflush_frame (s : State) : Answers (WriteFrame s) (execWflush s) := by
  refine answers_admitted _ (WriteFrame.refl s) (answers_conclude ?_)
  exact .andThen .trans (keeps_of_writes (flushBuffer_writes s)) fun _ => writeFrame_done 0

theorem execWclose_frame (s : State) : Answers (WriteFrame s) (execWclose s) := by
  refine answers_admitted _ (WriteFrame.refl s) ?_
  dsimp only
  split
  · exact answers_returnOk 0 (WriteFrame.refl s)
  · refine answers_conclude (putBits_keeps _ s fun t => putBits_keeps _ t fun t => ?_)
    refine .andThen .trans (keeps_of_writes (flushBuffer_writes t)) fun _ t => ?_
    exact .andThen .trans (keeps_of_writes (sinkClose_writes t)) fun _ t => ⟨rfl, List.prefix_rfl⟩

theorem execWcount_frame (s : State) : Answers (WriteFrame s) (execWcount s) := by
  unfold execWcount
  split
  · exact answers_returnOk _ ⟨rfl, List.prefix_rfl⟩
  · exact answers_returnOk _ (WriteFrame.refl s)

theorem execEgenc_frame (v : Word64) (s : State) : Answers (WriteFrame s) (execEgenc v s) := by
  refine answers_admitted _ (WriteFrame.refl s) ?_
  split
  · exact answers_conclude (putBits_keeps _ s (writeFrame_done 0))
  · exact answers_raiseStatus _ (WriteFrame.refl s)

/-- 00 R3: what a command of the writer's side can change. -/
theorem exec_writerCommand {i : Instr} (h : writerCommand i = true) (s : State) :
    Answers (WriteFrame s) (exec i s) := by
  cases i with
  | wbit b => exact execWbit_frame b s
  | wbits a v => exact execWbits_frame a v s
  | wflush => exact execWflush_frame s
  | wclose => exact execWclose_frame s
  | wcount => exact execWcount_frame s
  | egenc v => exact execEgenc_frame v s
  | _ => cases h

theorem WriteFrame.sameReader {s t : State} (h : WriteFrame s t) : SameReader s t := by
  obtain ⟨h, -⟩ := h
  rw [h]
  exact ⟨rfl, rfl, rfl⟩

theorem WriteFrame.sameLz {s t : State} (h : WriteFrame s t) : SameLz s t := by
  obtain ⟨h, -⟩ := h
  rw [h]
  exact ⟨rfl, rfl, rfl, rfl, rfl, rfl, rfl, rfl, fun _ => rfl, fun _ => rfl⟩

theorem WriteFrame.sameRest {s t : State} (h : WriteFrame s t) :
    t.egRangeSeen = s.egRangeSeen ∧ t.cfg = s.cfg ∧ t.inbox = s.inbox ∧ t.env.sourceScript = s.env.sourceScript := by
  obtain ⟨h, -⟩ := h
  rw [h]
  exact ⟨rfl, rfl, rfl, rfl⟩

/-! ### The reader's side -/

/-- What EGDEC can change: what the reader can, and EG_RANGE_SEEN, which it never clears (42 R144, 10 R22). -/
def EgdecFrame (s t : State) : Prop :=
  ReadFrame { s with egRangeSeen := t.egRangeSeen } t ∧ (s.egRangeSeen = true → t.egRangeSeen = true)

theorem ReadFrame.egRangeSeen {s t : State} (h : ReadFrame s t) : t.egRangeSeen = s.egRangeSeen := by
  obtain ⟨h, -⟩ := h
  rw [h]

theorem ReadFrame.egdecFrame {s t : State} (h : ReadFrame s t) : EgdecFrame s t := by
  have e := h.egRangeSeen
  exact ⟨by rw [e]; exact h, e.trans⟩

theorem EgdecFrame.trans {s t u : State} (h : EgdecFrame s t) (h' : EgdecFrame t u) : EgdecFrame s u := by
  obtain ⟨⟨h1, h2⟩, h3⟩ := h
  obtain ⟨⟨h4, h5⟩, h6⟩ := h'
  refine ⟨ReadFrame.trans (t := { t with egRangeSeen := u.egRangeSeen }) ⟨?_, h2⟩ ⟨h4, h5⟩, h6 ∘ h3⟩
  rw [h1]

theorem keeps_of_reads {α : Type} {s : State} {r : Run α} (h : Reads s r) : r.Keeps ReadFrame s :=
  h.imp (fun _ _ ⟨hf, _⟩ => hf) fun _ _ ⟨hf, _⟩ => hf

theorem egdec_of_reads {α : Type} {s : State} {r : Run α} (h : Reads s r) : r.Keeps EgdecFrame s :=
  (keeps_of_reads h).imp (fun _ _ => ReadFrame.egdecFrame) fun _ _ => ReadFrame.egdecFrame

theorem egRange_keeps {α : Type} (s : State) : (egRange s : Run α).Keeps EgdecFrame s :=
  ⟨⟨rfl, rfl, le_rfl⟩, fun _ => rfl⟩

theorem egdec_done {α : Type} (a : α) (s : State) : (Run.done a s).Keeps EgdecFrame s := (ReadFrame.refl s).egdecFrame

theorem egPrefix_keeps (left n : Nat) (s : State) : (egPrefix left n s).Keeps EgdecFrame s := by
  induction left generalizing n s with
  | zero => exact egRange_keeps s
  | succ left ih =>
    refine .andThen .trans (egdec_of_reads (getBit_reads s)) fun b t => ?_
    cases b with
    | true => exact egdec_done n t
    | false => exact ih (n + 1) t

/-- Everything the fetch of a code can do to the rest of the machine (42 R143). -/
theorem egFetch_keeps (s : State) : (egFetch s).Keeps EgdecFrame s := by
  refine .andThen .trans (egPrefix_keeps _ 0 s) fun n t => ?_
  refine .andThen .trans (egdec_of_reads (getBits_reads n 0 t)) fun r t => ?_
  split
  · exact egRange_keeps t
  · split
    · exact .andThen .trans (egdec_of_reads (getBit_reads t)) fun neg t => egdec_done _ t
    · exact egdec_done _ t

theorem readFrame_done (v : Word64) (s : State) : (Run.done v s).Keeps ReadFrame s := ReadFrame.refl s

theorem execRbit_frame (s : State) : Answers (ReadFrame s) (execRbit s) := by
  refine answers_admitted _ (ReadFrame.refl s) (answers_conclude ?_)
  exact .andThen .trans (keeps_of_reads (getBit_reads s)) fun _ => readFrame_done _

theorem execRbits_frame (a : BitVec 8) (s : State) : Answers (ReadFrame s) (execRbits a s) := by
  refine answers_admitted _ (ReadFrame.refl s) ?_
  split
  · exact answers_conclude (.andThen .trans (keeps_of_reads (getBits_reads _ 0 s)) fun _ => readFrame_done _)
  · exact answers_raiseStatus _ (ReadFrame.refl s)

theorem execRclose_frame (s : State) : Answers (ReadFrame s) (execRclose s) := by
  refine answers_admitted _ (ReadFrame.refl s) ?_
  dsimp only
  split
  · exact answers_returnOk 0 (ReadFrame.refl s)
  · refine answers_conclude (.andThen .trans (keeps_of_reads (sourceClose_reads s)) fun _ _ => ?_)
    exact ⟨rfl, rfl, le_rfl⟩

theorem execRcount_frame (s : State) : Answers (ReadFrame s) (execRcount s) := by
  unfold execRcount
  split
  · exact answers_returnOk _ ⟨rfl, rfl, le_rfl⟩
  · exact answers_returnOk _ (ReadFrame.refl s)

theorem execEgdec_frame (s : State) : Answers (EgdecFrame s) (execEgdec s) := by
  refine answers_admitted _ (ReadFrame.refl s).egdecFrame ?_
  have h := egFetch_keeps s
  cases hr : egFetch s with
  | done code t => rw [hr] at h; exact answers_returnOk _ h
  | raised st t => rw [hr] at h; exact answers_raiseStatus st h

/-- 00 R3: what a command of the reader's side can change; only EGDEC reaches EG_RANGE_SEEN. -/
theorem exec_readerCommand {i : Instr} (h : readerCommand i = true) (s : State) :
    Answers (fun t => EgdecFrame s t ∧ (i ≠ .egdec → t.egRangeSeen = s.egRangeSeen)) (exec i s) := by
  have reads {o} (ho : Answers (ReadFrame s) o) :
      Answers (fun t => EgdecFrame s t ∧ (i ≠ .egdec → t.egRangeSeen = s.egRangeSeen)) o :=
    ho.imp fun t ht => ⟨ht.egdecFrame, fun _ => ht.egRangeSeen⟩
  cases i with
  | rbit => exact reads (execRbit_frame s)
  | rbits a => exact reads (execRbits_frame a s)
  | rclose => exact reads (execRclose_frame s)
  | rcount => exact reads (execRcount_frame s)
  | egdec => exact (execEgdec_frame s).imp fun t ht => ⟨ht, fun hne => absurd rfl hne⟩
  | _ => cases h

theorem EgdecFrame.sameWriter {s t : State} (h : EgdecFrame s t) : SameWriter s t := by
  obtain ⟨⟨h, -⟩, -⟩ := h
  rw [h]
  exact ⟨rfl, rfl⟩

theorem EgdecFrame.sameLz {s t : State} (h : EgdecFrame s t) : SameLz s t := by
  obtain ⟨⟨h, -⟩, -⟩ := h
  rw [h]
  exact ⟨rfl, rfl, rfl, rfl, rfl, rfl, rfl, rfl, fun _ => rfl, fun _ => rfl⟩

theorem EgdecFrame.sameRest {s t : State} (h : EgdecFrame s t) :
    t.cfg = s.cfg ∧ t.inbox = s.inbox ∧ t.env.sinkScript = s.env.sinkScript := by
  obtain ⟨⟨h, -⟩, -⟩ := h
  rw [h]
  exact ⟨rfl, rfl, rfl⟩

/-! ### The LZ units -/

/-- Only HT, DST, the two cursors, LZINV's place and the responses may differ: what an LZ command can change. -/
def LzFrame (s t : State) : Prop :=
  t = { s with
    ht := t.ht, dst := t.dst, srcPos := t.srcPos, dstPos := t.dstPos, lzi := t.lzi, responses := t.responses }

theorem LziFrame.lzFrame {s t : State} (h : LziFrame s t) : LzFrame s t := by
  obtain ⟨h, -⟩ := h
  unfold LzFrame
  rw [h]

theorem execLzmax_frame {v : Word64} {s t : State} (h : execLzmax v s = .next t) : LzFrame s t := by
  unfold execLzmax at h
  split at h
  · cases h; rfl
  · cases h; rfl

theorem execLzfwd_frame {v : Word64} {s t : State} (h : execLzfwd v s = .next t) : LzFrame s t := by
  simp only [execLzfwd] at h
  split at h
  · split at h
    · cases h; rfl
    · split at h
      · cases h
      · cases h; rfl
  · cases h; rfl

/-- LZINV begins where its elements' invariants hold, whatever the state. -/
theorem lzinv_begins {n : Nat} {s : State} (h : spanOk n s = true) (hn : n ≠ 0) :
    LziOk (s.srcPos.toNat + n) s.dstPos.toNat { s with lzi := .active (s.srcPos.toNat + n) s.dstPos.toNat .token } ∧
      PhaseOk (s.srcPos.toNat + n) .token { s with lzi := .active (s.srcPos.toNat + n) s.dstPos.toNat .token } := by
  have hlen := s.srcLen.isLt
  simp only [spanOk, Bool.and_eq_true, decide_eq_true_eq] at h
  obtain ⟨-, hspan⟩ := h
  exact ⟨⟨le_rfl, Nat.le_add_right _ _, by omega, fun a h1 h2 => absurd h1 (Nat.not_le.mpr h2)⟩,
    Nat.lt_add_of_pos_right (Nat.pos_of_ne_zero hn)⟩

theorem execLzinv_frame {v : Word64} {s t : State} (h : execLzinv v s = .next t) : LziFrame s t := by
  simp only [execLzinv] at h
  split at h
  case isTrue hspan =>
    split at h
    case isTrue =>
      obtain ⟨u, e, hu, -⟩ := lziFinish_goes s.srcPos.toNat s.dstPos.toNat s
      cases e.symm.trans h
      exact hu
    case isFalse hn =>
      obtain ⟨hok, hph⟩ := lzinv_begins hspan hn
      rcases lziRun_goes v.toNat hok hph rfl le_rfl with ⟨e, -⟩ | ⟨u, e, hu, -⟩
      · cases e.symm.trans h
      · cases e.symm.trans h
        exact (lziFrame_of_eq rfl).trans hu
  case isFalse => cases h; exact lziFrame_of_eq rfl

/-- 00 R3: what an LZ command can change. -/
theorem exec_lzCommand {i : Instr} {s t : State} (h : lzCommand i = true) (he : exec i s = .next t) : LzFrame s t := by
  cases i with
  | lzfwd v => exact execLzfwd_frame he
  | lzinv v => exact (execLzinv_frame he).lzFrame
  | lzmax v => exact execLzmax_frame he
  | _ => cases h

theorem LzFrame.sameStreams {s t : State} (h : LzFrame s t) : SameStreams s t ∧ t.cfg = s.cfg ∧ t.inbox = s.inbox := by
  rw [h]
  exact ⟨⟨rfl, rfl, rfl, rfl, rfl, rfl, rfl⟩, rfl, rfl⟩

/-! ### The two pipelines -/

/-- Settles O55: each side's commands move their own frame, and the frames are apart. -/
theorem pipelinesAreIndependent : Obligations.PipelinesAreIndependent := by
  intro i s t he
  refine ⟨fun hw => ?_, fun hr => ?_, fun hl => (exec_lzCommand hl he).sameStreams⟩
  · obtain ⟨u, st, v, e, hu⟩ := exec_writerCommand hw s
    cases e.symm.trans he
    obtain ⟨hrange, hcfg, hinbox, hscript⟩ := hu.sameRest
    exact ⟨hu.sameReader, hrange, hu.sameLz, hcfg, hinbox, hscript⟩
  · obtain ⟨u, st, v, e, hu, hrange⟩ := exec_readerCommand hr s
    cases e.symm.trans he
    obtain ⟨hcfg, hinbox, hscript⟩ := hu.sameRest
    exact ⟨hu.sameWriter, hu.sameLz, hcfg, hinbox, hscript, hrange⟩

end Sys2Proof.Machine
end

section
/-! PROOFS. What one step of KZC can be (10 R10, 30 R60, R62): the kinds of instruction, each with what it leaves alone, and
the kinds of step. The invariants of spec 10 are derived from these two case lists. -/

namespace Sys2Proof.Machine

/-! ### The elements of a block, from any state -/

/-- What an element of a block can change wherever LZINV stands, its place promised or not: the LZ units' frame, less HT. DST
keeps its canonical form. -/
def ElementFrame (s t : State) : Prop :=
  LzFrame s t ∧ t.ht = s.ht ∧ (Memory.wf s.dst = true → Memory.wf t.dst = true)

theorem LziFrame.elementFrame {s t : State} (h : LziFrame s t) : ElementFrame s t := by
  have hlz := h.lzFrame
  obtain ⟨e, -, -, -, -, hwf, -⟩ := h
  exact ⟨hlz, by rw [e], hwf⟩

theorem ElementFrame.trans {s t u : State} (h : ElementFrame s t) (h' : ElementFrame t u) : ElementFrame s u := by
  obtain ⟨e, ht, hwf⟩ := h
  obtain ⟨e', ht', hwf'⟩ := h'
  refine ⟨?_, ht'.trans ht, hwf' ∘ hwf⟩
  unfold LzFrame at e e' ⊢
  rw [e', e]

theorem LziGoes.elementFrame {sEnd d0 : Nat} {s t : State} {o : Host.Outcome State Fault Refusal}
    (h : LziGoes sEnd d0 s o) (ho : o = .next t) : ElementFrame s t := by
  obtain ⟨u, e, hu, -⟩ := h
  cases e.symm.trans ho
  exact hu.elementFrame

theorem lziAt_frame {sEnd d0 : Nat} {phase : LziPhase} {s t : State} (h : lziAt sEnd d0 phase s = .next t) :
    ElementFrame s t := by
  cases h
  exact ⟨rfl, rfl, id⟩

theorem lziExtension_frame {sEnd d0 : Nat} {phase : LziPhase} {s t : State}
    (h : lziExtension sEnd d0 phase s = .next t) : ElementFrame s t := by
  unfold lziExtension at h
  split at h
  · exact (lziCorrupt_goes sEnd d0 s).elementFrame h
  · exact lziAt_frame h

theorem lziMatch_frame {sEnd d0 dist len : Nat} {s t : State} (h : lziMatch sEnd d0 dist len s = .next t) :
    ElementFrame s t := by
  simp only [lziMatch] at h
  split at h
  · exact (lziCorrupt_goes sEnd d0 s).elementFrame h
  · split at h
    · cases h
    · rename_i dst hcopy
      obtain ⟨-, hwf, -⟩ := copyMatch_frame hcopy
      refine ElementFrame.trans (t := { s with
        dst := dst, dstPos := BitVec.ofNat 32 (s.dstPos.toNat + (len + Config.minMatch)) }) ⟨rfl, rfl, hwf⟩ ?_
      split at h
      · exact (lziFinish_goes _ _ _).elementFrame h
      · exact lziAt_frame h

theorem lziToken_frame {lit mat : BitVec 4} {s t : State} (h : lziToken lit mat s = .next t) : ElementFrame s t := by
  unfold lziToken at h
  split at h
  · split at h
    · exact lziExtension_frame h
    · exact (lziLiterals_goes _ _ _ _ s).elementFrame h
  · cases h

theorem lziLenExt_frame {e : Byte} {s t : State} (h : lziLenExt e s = .next t) : ElementFrame s t := by
  unfold lziLenExt at h
  split at h
  · split at h
    · exact lziExtension_frame h
    · exact (lziLiterals_goes _ _ _ _ s).elementFrame h
  · split at h
    · exact lziExtension_frame h
    · exact lziMatch_frame h
  · cases h

theorem lziLiteral_frame {b : Byte} {s t : State} (h : lziLiteral b s = .next t) : ElementFrame s t := by
  unfold lziLiteral at h
  split at h
  · refine ElementFrame.trans (t := { s with
      dst := memWrite s.dst s.dstPos.toNat b, dstPos := s.dstPos + 1 }) ⟨rfl, rfl, memWrite_wf _ b⟩ ?_
    split at h
    · exact (lziAfterLiterals_goes _ _ _ _).elementFrame h
    · exact lziAt_frame h
  · cases h

theorem lziDist_frame {d : BitVec 16} {s t : State} (h : lziDist d s = .next t) : ElementFrame s t := by
  unfold lziDist at h
  split at h
  · split at h
    · exact lziExtension_frame h
    · exact lziMatch_frame h
  · cases h

theorem lziByte_frame {s u : State} {b : Byte} (h : lziByte s = some (b, u)) : u = { s with srcPos := u.srcPos } := by
  obtain ⟨x, -, hx⟩ := Option.map_eq_some_iff.mp h
  cases hx
  rfl

/-- The fetch of an element moves the read cursor and nothing else. -/
theorem lziFetch_frame {phase : LziPhase} {s u : State} {i : Instr} (h : lziFetch phase s = some (i, u)) :
    u = { s with srcPos := u.srcPos } := by
  unfold lziFetch at h
  split at h
  · cases h
  · rename_i b s1 h1
    have e1 := lziByte_frame h1
    cases phase with
    | dist mat =>
      dsimp only at h
      split at h
      · cases h
      · rename_i hi s2 h2
        cases h
        rw [lziByte_frame h2, e1]
    | _ => cases h; exact e1

/-! ### The kinds of instruction -/

/-- A write of a control register reaches the four cursors and lengths only (45 R210). -/
theorem controlWrite_frame {i v : Nat} {s u : State} (h : controlWrite i v s = some u) :
    u = { s with srcPos := u.srcPos, srcLen := u.srcLen, dstPos := u.dstPos, dstLen := u.dstLen } := by
  unfold controlWrite at h
  split at h
  case h_5 => cases h
  all_goals
    split at h
    · cases h
    · cases h; rfl

theorem execCrw_frame {a : BitVec 8} {v : Word64} {s t : State} (h : execCrw a v s = .next t) :
    t = { s with
      srcPos := t.srcPos, srcLen := t.srcLen, dstPos := t.dstPos, dstLen := t.dstLen, responses := t.responses } := by
  unfold execCrw at h
  split at h
  · cases h; rfl
  · rename_i u hu
    cases h
    rw [controlWrite_frame hu]
    rfl

theorem execCrr_answers {a : BitVec 8} {s t : State} (h : execCrr a s = .next t) : ∃ st v, t = respond s st v := by
  unfold execCrr at h
  split at h
  · cases h; exact ⟨_, _, rfl⟩
  · cases h; exact ⟨_, _, rfl⟩

theorem execLzmax_answers {v : Word64} {s t : State} (h : execLzmax v s = .next t) : ∃ st v, t = respond s st v := by
  unfold execLzmax at h
  split at h
  · cases h; exact ⟨_, _, rfl⟩
  · cases h; exact ⟨_, _, rfl⟩

/-- What an instruction that runs from `s` to `t` can be. -/
inductive Ran (i : Instr) (s t : State) : Prop
  /-- a command of the writer's side -/
  | writer (h : writerCommand i = true)
  /-- a command of the reader's side -/
  | reader (h : readerCommand i = true)
  | forward (v : Word64) (h : i = .lzfwd v)
  | inverse (v : Word64) (h : i = .lzinv v)
  | control (a : BitVec 8) (v : Word64) (h : i = .crw a v)
  /-- CRR, LZMAX, an exp-Golomb code: nothing changes but the responses -/
  | answers (st : Status) (v : Word64) (h : t = respond s st v)
  /-- an element of a block, which no command word decodes to -/
  | element (hi : slotOf i ≠ .command) (h : ElementFrame s t)

theorem ran_of_egReturn {i : Instr} {s t : State} {n r : Nat} {neg : Bool} (h : egReturn n r neg s = .next t) :
    Ran i s t := by
  cases h
  exact .answers .ok _ rfl

theorem exec_cases {i : Instr} {s t : State} (h : exec i s = .next t) : Ran i s t := by
  cases i with
  | wbit | wbits | wflush | wclose | wcount | egenc => exact .writer rfl
  | rbit | rbits | rclose | rcount | egdec => exact .reader rfl
  | lzfwd v => exact .forward v rfl
  | lzinv v => exact .inverse v rfl
  | crw a v => exact .control a v rfl
  | lzmax v =>
    obtain ⟨st, x, e⟩ := execLzmax_answers h
    exact .answers st x e
  | crr a =>
    obtain ⟨st, x, e⟩ := execCrr_answers h
    exact .answers st x e
  | lzToken lit mat => exact .element Slot.noConfusion (lziToken_frame h)
  | lzLenExt e => exact .element Slot.noConfusion (lziLenExt_frame h)
  | lzLiteral b => exact .element Slot.noConfusion (lziLiteral_frame h)
  | lzDist16 d => exact .element Slot.noConfusion (lziDist_frame h)
  | _ => exact ran_of_egReturn h

/-- An instruction of neither side leaves the streams and the configuration alone (00 R3). -/
theorem exec_sides {i : Instr} {s t : State} (h : exec i s = .next t) :
    writerCommand i = true ∨ readerCommand i = true ∨ (SameStreams s t ∧ t.cfg = s.cfg) := by
  have lz {t : State} (ht : LzFrame s t) : SameStreams s t ∧ t.cfg = s.cfg := ⟨ht.sameStreams.1, ht.sameStreams.2.1⟩
  rcases exec_cases h with hw | hr | ⟨v, rfl⟩ | ⟨v, rfl⟩ | ⟨a, v, rfl⟩ | ⟨st, v, rfl⟩ | ⟨-, he⟩
  · exact .inl hw
  · exact .inr (.inl hr)
  · exact .inr (.inr (lz (exec_lzCommand rfl h)))
  · exact .inr (.inr (lz (exec_lzCommand rfl h)))
  · have e := execCrw_frame h
    exact .inr (.inr (by rw [e]; exact ⟨⟨rfl, rfl, rfl, rfl, rfl, rfl, rfl⟩, rfl⟩))
  · exact .inr (.inr ⟨⟨rfl, rfl, rfl, rfl, rfl, rfl, rfl⟩, rfl⟩)
  · exact .inr (.inr (lz he.1))

/-! ### The kinds of step -/

/-- No command word decodes to an element of a block or to a code (30 R62, R83). -/
theorem slotOf_decodeCommand {w : CommandWord} {i : Instr} (h : decodeCommand w = .ok i) : slotOf i = .command := by
  unfold decodeCommand at h
  dsimp only at h
  split at h <;> cases h <;> rfl

/-- What a step from `s` to `t` can be. -/
inductive Stepped (s t : State) : Prop
  /-- inside LZINV, the element fetched -/
  | element (i : Instr) (p : Word32) (h : exec i { s with srcPos := p } = .next t) (hl : s.lzi ≠ .idle)
  /-- between commands, the host's command word -/
  | command (i : Instr) (rest : List HostMove) (hi : slotOf i = .command)
      (h : exec i { s with inbox := rest } = .next t)
  | illegal (rest : List HostMove) (h : t = respond { s with inbox := rest } .illegalCommand 0)
  | idle (h : t = s)
  | writeSrc (a : Nat) (b : Byte) (rest : List HostMove) (ha : a < s.cfg.srcMemBytes)
      (h : t = { s with inbox := rest, src := memWrite s.src a b })
  | writeDst (a : Nat) (b : Byte) (rest : List HostMove) (ha : a < s.cfg.dstMemBytes)
      (h : t = { s with inbox := rest, dst := memWrite s.dst a b })
  | attachSource (bytes : List Byte) (rest : List HostMove) (hs : s.sourceStarted = false)
      (h : t = { s with inbox := rest, source := { s.source with bytes := bytes } })
  | reset (e d : Bool) (source : List Byte) (rest : List HostMove) (hi : s.inbox = .reset e d source :: rest)
      (h : t = { State.resetWith { s.cfg with egeSigned := e, egdSigned := d } source with env := s.env, inbox := rest })

theorem step_cases {s t : State} (h : step s = .next t) : Stepped s t := by
  unfold step at h
  split at h
  · rename_i hl
    split at h
    · rename_i i u hf
      rw [lziFetch_frame hf] at h
      exact .element i u.srcPos h (by simp [hl])
    · cases h
  · split at h
    · cases h; exact .idle rfl
    · rename_i w rest hi
      unfold runCommand at h
      split at h
      · rename_i i hd
        exact .command i rest (slotOf_decodeCommand hd) h
      · cases h; exact .illegal rest rfl
    · rename_i a b rest hi
      unfold hostWriteSrc at h
      split at h
      · rename_i ha
        cases h; exact .writeSrc a b rest ha rfl
      · cases h
    · rename_i a b rest hi
      unfold hostWriteDst at h
      split at h
      · rename_i ha
        cases h; exact .writeDst a b rest ha rfl
      · cases h
    · rename_i bytes rest hi
      unfold hostAttachSource at h
      split at h
      · cases h
      · rename_i hs
        cases h; exact .attachSource bytes rest (Bool.eq_false_iff.mpr hs) rfl
    · rename_i e d source rest hi
      cases h; exact .reset e d source rest hi rfl

theorem SameStreams.sameWriter {s t : State} (h : SameStreams s t) : SameWriter s t := by
  obtain ⟨hw, -, -, hk, -⟩ := h
  exact ⟨hw, hk⟩

theorem SameStreams.sameReader {s t : State} (h : SameStreams s t) : SameReader s t := by
  obtain ⟨-, hr, -, -, hsrc, hst, -⟩ := h
  exact ⟨hr, hsrc, hst⟩

/-- What a step can be to the streams and the configuration: it leaves them alone, or is a command of one of the two sides,
the attaching of a source or a reset. -/
inductive StreamStepped (s t : State) : Prop
  | kept (h : SameStreams s t) (hc : t.cfg = s.cfg)
  | writer (i : Instr) (u : State) (hi : writerCommand i = true) (hu : SameStreams s u) (hc : u.cfg = s.cfg)
      (h : exec i u = .next t)
  | reader (i : Instr) (u : State) (hi : readerCommand i = true) (hu : SameStreams s u) (hc : u.cfg = s.cfg)
      (h : exec i u = .next t)
  | attachSource (bytes : List Byte) (rest : List HostMove) (hs : s.sourceStarted = false)
      (h : t = { s with inbox := rest, source := { s.source with bytes := bytes } })
  | reset (e d : Bool) (source : List Byte) (rest : List HostMove) (hi : s.inbox = .reset e d source :: rest)
      (h : t = { State.resetWith { s.cfg with egeSigned := e, egdSigned := d } source with env := s.env, inbox := rest })

theorem step_streams {s t : State} (h : step s = .next t) : StreamStepped s t := by
  have refl (u : State) : SameStreams u u := ⟨rfl, rfl, rfl, rfl, rfl, rfl, rfl⟩
  have run {i : Instr} {u : State} (hu : SameStreams s u) (hc : u.cfg = s.cfg) (he : exec i u = .next t) :
      StreamStepped s t := by
    rcases exec_sides he with hw | hr | ⟨hk, hk'⟩
    · exact .writer i u hw hu hc he
    · exact .reader i u hr hu hc he
    · obtain ⟨h1, h2, h3, h4, h5, h6, h7⟩ := hu
      obtain ⟨g1, g2, g3, g4, g5, g6, g7⟩ := hk
      exact .kept ⟨g1.trans h1, g2.trans h2, g3.trans h3, g4.trans h4, g5.trans h5, g6.trans h6, g7.trans h7⟩
        (hk'.trans hc)
  cases step_cases h with
  | element i p he _ => exact run (u := { s with srcPos := p }) (refl s) rfl he
  | command i rest _ he => exact run (u := { s with inbox := rest }) (refl s) rfl he
  | illegal rest h => subst h; exact .kept (refl s) rfl
  | idle h => subst h; exact .kept (refl t) rfl
  | writeSrc a b rest _ h => subst h; exact .kept (refl s) rfl
  | writeDst a b rest _ h => subst h; exact .kept (refl s) rfl
  | attachSource bytes rest hs h => exact .attachSource bytes rest hs h
  | reset e d source rest hi h => exact .reset e d source rest hi h

end Sys2Proof.Machine
end

section
/-! PROOFS. Reset, the host's moves, the registers CRR reads and the configuration (10 R20 to R28, 45 R211). -/

namespace Sys2Proof.Machine

/-! ### Reset (10 R28) -/

/-- STATUS as a number: bit 0 W_CLOSED up to bit 5 EG_RANGE_SEEN (10 R22). -/
theorem statusBits_toNat (s : State) : (statusBits s).toNat =
    s.writer.closed.toNat + 2 * s.reader.closed.toNat + 4 * s.writer.ioFault.toNat + 8 * s.reader.ioFault.toNat +
      16 * s.reader.eos.toNat + 32 * s.egRangeSeen.toNat := by
  unfold statusBits
  generalize s.writer.closed = b0, s.reader.closed = b1, s.writer.ioFault = b2, s.reader.ioFault = b3,
    s.reader.eos = b4, s.egRangeSeen = b5
  revert b0 b1 b2 b3 b4 b5
  decide

/-- Settles O7: the table of R28, row by row. -/
theorem resetLeavesListedValues : Obligations.ResetLeavesListedValues := by
  intro p source
  have hbuf : ∀ b ∈ List.replicate p.wBufsz (0 : Byte), b = 0 := fun b hb => List.eq_of_mem_replicate hb
  exact ⟨⟨List.length_replicate, hbuf⟩, rfl, rfl, rfl, rfl, rfl, rfl, rfl, rfl, rfl, rfl, rfl, rfl, rfl, rfl, rfl, rfl,
    rfl, fun _ => rfl, fun _ => rfl, rfl, rfl, rfl, rfl, rfl, rfl, rfl,
    BitVec.eq_of_toNat_eq (statusBits_toNat _)⟩

theorem getD_replicate_zero (n i : Nat) : (List.replicate n (0 : Byte)).getD i 0 = 0 := by
  rw [List.getD_eq_getElem?_getD, List.getElem?_replicate]
  split <;> rfl

theorem writerOk_resetWith (p : Config.Params) (source : List Byte) : WriterOk (State.resetWith p source) := by
  have hbuf : ∀ i, (State.resetWith p source).writer.buf.getD i 0 = 0 := getD_replicate_zero p.wBufsz
  refine ⟨List.length_replicate, p.wBufsz_pos, fun k _ _ => ?_, fun i _ _ => hbuf i, rfl, fun h => by cases h⟩
  rw [hbuf]
  exact BitVec.getLsbD_zero

theorem readerOk_resetWith (p : Config.Params) (source : List Byte) : ReaderOk (State.resetWith p source) :=
  ⟨List.length_replicate, le_rfl, Nat.zero_le _, fun h => absurd rfl h, le_rfl, Nat.zero_le _, rfl, rfl, fun _ => rfl⟩

theorem viewsOk_resetWith (p : Config.Params) (source : List Byte) : ViewsOk (State.resetWith p source) :=
  ⟨le_rfl, Nat.zero_le _, le_rfl, Nat.zero_le _, fun _ h => (nomatch h), fun _ h => (nomatch h)⟩

theorem canonical_resetWith (p : Config.Params) (source : List Byte) : Canonical (State.resetWith p source) :=
  ⟨rfl, rfl, rfl, fun _ h => (nomatch h)⟩

/-- Settles O60: one lemma for each invariant. -/
theorem resetMeetsTheInvariants : Obligations.ResetMeetsTheInvariants := fun p source =>
  ⟨writerOk_resetWith p source, readerOk_resetWith p source, viewsOk_resetWith p source, rfl,
    canonical_resetWith p source, fun _ h => (nomatch h), rfl⟩

/-! ### The host's moves (20 R45, 70 R255, R262) -/

theorem step_writeSrc {s : State} {a : Nat} {b : Byte} {rest : List HostMove} (hl : s.lzi = .idle)
    (hi : s.inbox = .writeSrc a b :: rest) : step s = hostWriteSrc a b { s with inbox := rest } := by
  simp only [step, hl, hi]

theorem step_writeDst {s : State} {a : Nat} {b : Byte} {rest : List HostMove} (hl : s.lzi = .idle)
    (hi : s.inbox = .writeDst a b :: rest) : step s = hostWriteDst a b { s with inbox := rest } := by
  simp only [step, hl, hi]

theorem step_attachSource {s : State} {bytes : List Byte} {rest : List HostMove} (hl : s.lzi = .idle)
    (hi : s.inbox = .attachSource bytes :: rest) : step s = hostAttachSource bytes { s with inbox := rest } := by
  simp only [step, hl, hi]

/-- Settles O9: each move by its own operation; a byte written is read back, the others as before. -/
theorem hostMovesDoWhatTheySay : Obligations.HostMovesDoWhatTheySay := by
  refine ⟨fun s a b rest hl hi => ?_, fun s a b rest hl hi => ?_, fun s bytes rest hl hi => ?_, fun s hl hi => ?_⟩
  · rw [step_writeSrc hl hi]
    refine ⟨fun ha => ⟨_, if_pos ha, memRead_memWrite_same _ _ _, fun x hx => ?_, rfl⟩, fun ha => if_neg ha.not_gt⟩
    exact memRead_memWrite_other _ _ hx.symm
  · rw [step_writeDst hl hi]
    refine ⟨fun ha => ⟨_, if_pos ha, memRead_memWrite_same _ _ _, fun x hx => ?_, rfl⟩, fun ha => if_neg ha.not_gt⟩
    exact memRead_memWrite_other _ _ hx.symm
  · rw [step_attachSource hl hi]
    exact ⟨fun hs => if_neg (by simp [hs]), fun hs => if_pos hs⟩
  · simp only [step, hl, hi]

/-! ### The control registers CRR reads (45 R211, 10 R21 to R24) -/

theorem exec_crr_of_some {a : BitVec 8} {s : State} {v : Word64} (h : controlRead a.toNat s = some v) :
    exec (.crr a) s = .next (respond s .ok v) := by
  simp only [exec, execCrr, h, returnOk]

theorem setWidth_eq_ofNat {w : Nat} (x : BitVec w) : x.setWidth 64 = BitVec.ofNat 64 x.toNat := by
  rw [BitVec.ofNat_toNat]

/-- CONFIG as a number (10 R23). -/
theorem configBits_toNat (s : State) :
    (configBits s).toNat = s.cfg.egeSigned.toNat + 2 * s.cfg.egdSigned.toNat + 4 := by
  unfold configBits
  generalize s.cfg.egeSigned = b0, s.cfg.egdSigned = b1
  revert b0 b1
  decide

/-- Settles O53: the register file, index by index. -/
theorem crrReadsEveryRegister : Obligations.CrrReadsEveryRegister := by
  intro a s answer
  have word {w : Nat} {x : BitVec w} (h : controlRead a.toNat s = some (x.setWidth 64)) :
      exec (.crr a) s = answer x.toNat := by
    rw [exec_crr_of_some h, setWidth_eq_ofNat]
    rfl
  refine ⟨?_, ?_, ?_, ?_, ?_, ?_, ?_, ?_, fun h => ?_⟩
  · rintro rfl; exact word rfl
  · rintro rfl; exact word rfl
  · rintro rfl; exact word rfl
  · rintro rfl; exact word rfl
  · rintro rfl; rw [word (x := statusBits s) rfl, statusBits_toNat]
  · rintro rfl; rw [word (x := configBits s) rfl, configBits_toNat]
  · rintro rfl; exact word (x := BitVec.ofNat 32 s.cfg.wBufsz) rfl
  · rintro rfl; exact word (x := BitVec.ofNat 32 s.cfg.rBufsz) rfl
  · have hnone : controlRead a.toNat s = none := by
      obtain ⟨n, hn⟩ : ∃ n, a.toNat = n + 8 := ⟨a.toNat - 8, by omega⟩
      rw [hn]
      rfl
    simp only [exec, execCrr, hnone, raiseStatus, respond]

/-! ### The configuration (10 R23, R24) -/

/-- Settles O57: no step but a reset reaches the parameters, and a reset samples the straps only. -/
theorem configurationIsConstant : Obligations.ConfigurationIsConstant := by
  intro s t h
  have same (hc : t.cfg = s.cfg) : (t.cfg.wBufsz = s.cfg.wBufsz ∧ t.cfg.rBufsz = s.cfg.rBufsz ∧
      t.cfg.srcMemBytes = s.cfg.srcMemBytes ∧ t.cfg.dstMemBytes = s.cfg.dstMemBytes) ∧
      ((∀ e d source, s.inbox.head? ≠ some (.reset e d source)) → t.cfg = s.cfg) := by
    rw [hc]
    exact ⟨⟨rfl, rfl, rfl, rfl⟩, fun _ => rfl⟩
  cases step_streams h with
  | kept _ hc => exact same hc
  | writer i u hi _ hc he =>
    obtain ⟨u', st, v, e, hu⟩ := exec_writerCommand hi u
    cases e.symm.trans he
    exact same (hu.sameRest.2.1.trans hc)
  | reader i u hi _ hc he =>
    obtain ⟨u', st, v, e, hu, -⟩ := exec_readerCommand hi u
    cases e.symm.trans he
    exact same (hu.sameRest.1.trans hc)
  | attachSource bytes rest _ h => subst h; exact same rfl
  | reset e d source rest hi h =>
    subst h
    exact ⟨⟨rfl, rfl, rfl, rfl⟩, fun hno => absurd (by rw [hi]; rfl) (hno e d source)⟩

end Sys2Proof.Machine
end

section
/-! PROOFS. The writer's side over one step (10 R13, R14, R22): its operations keep the writer's invariant and never clear a
sticky bit. One lemma for each operation says both. -/

namespace Sys2Proof.Machine

/-! ### Two views of one run -/

theorem Run.Meets.and {α : Type} {r : Run α} {P P' : α → State → Prop} {Q Q' : Status → State → Prop}
    (h : r.Meets P Q) (h' : r.Meets P' Q') :
    r.Meets (fun a s => P a s ∧ P' a s) (fun st s => Q st s ∧ Q' st s) := by
  cases r with
  | done a s => exact ⟨h, h'⟩
  | raised st s => exact ⟨h, h'⟩

/-- A condition under which the run goes on as it should can stand inside. -/
theorem Run.Meets.of_imp {α : Type} {r : Run α} {C : Prop} {P : α → State → Prop}
    (h : C → r.Meets P (fun _ _ => True)) : r.Meets (fun a s => C → P a s) (fun _ _ => True) := by
  cases r with
  | done a s => exact h
  | raised st s => trivial

/-! ### What the writer's operations keep -/

/-- The writer's frame, and no sticky bit of the writer cleared (10 R22). -/
abbrev WritesOn (s t : State) : Prop :=
  WriteFrame s t ∧ (s.writer.ioFault = true → t.writer.ioFault = true) ∧
    (s.writer.closed = true → t.writer.closed = true)

theorem WritesOn.refl (s : State) : WritesOn s s := ⟨WriteFrame.refl s, id, id⟩

theorem WritesOn.trans {s t u : State} (h : WritesOn s t) (h' : WritesOn t u) : WritesOn s u := by
  obtain ⟨hf, hio, hcl⟩ := h
  obtain ⟨hf', hio', hcl'⟩ := h'
  exact ⟨hf.trans hf', hio' ∘ hio, hcl' ∘ hcl⟩

/-- A run of the writer's side from `s`: where it goes on, an open writer is open still; where it has ended its command, the
fault is recorded. -/
abbrev WriterRun {α : Type} (s : State) (r : Run α) : Prop :=
  r.Meets (fun _ t => WritesOn s t ∧ (WriterOpen s → WriterOpen t)) fun _ t => WritesOn s t ∧ t.writer.ioFault = true

theorem WriterRun.of_writes {α : Type} {s : State} {r : Run α} (h : Writes s r)
    (ho : WriterOpen s → r.Meets (fun _ t => WriterOpen t) fun _ _ => True) : WriterRun s r :=
  (h.and (.of_imp ho)).imp
    (fun _ _ ⟨⟨hf, hio, hcl, _⟩, hopen⟩ => ⟨⟨hf, hio.trans, hcl.trans⟩, hopen⟩)
    fun _ _ ⟨⟨_, hf, hio, hcl, _⟩, _⟩ => ⟨⟨hf, fun _ => hio, hcl⟩, hio⟩

theorem WriterRun.andThen {α β : Type} {s : State} {r : Run α} {f : α → State → Run β} (h : WriterRun s r)
    (hf : ∀ a t, WriterRun t (f a t)) : WriterRun s (andThen r f) :=
  Run.Meets.andThen h fun a t ⟨hw, ho⟩ =>
    (hf a t).imp (fun _ _ ⟨hw', ho'⟩ => ⟨hw.trans hw', ho' ∘ ho⟩) fun _ _ ⟨hw', hio⟩ => ⟨hw.trans hw', hio⟩

theorem writerRun_done {α : Type} (a : α) (s : State) : WriterRun s (.done a s : Run α) := ⟨WritesOn.refl s, id⟩

theorem putBit_run (b : Bool) (s : State) : WriterRun s (putBit b s) :=
  .of_writes (putBit_writes b s) fun ho => (putBit_stream b ho).imp (fun _ _ ⟨h, _⟩ => h) fun _ _ => id

theorem putBits_run (bs : List Bool) (s : State) : WriterRun s (putBits bs s) :=
  .of_writes (putBits_writes bs s) fun ho => (putBits_stream bs ho).imp (fun _ _ ⟨h, _⟩ => h) fun _ _ => id

/-! ### A flush (40 R101) -/

theorem compacted_getD_zero {w : Writer} (h : 0 < w.buf.length) :
    (compacted w).buf.getD 0 0 = if w.bit = 7 then 0 else w.buf.getD w.pos 0 :=
  getD_set_self _ (by rw [List.length_replicate]; exact h)

theorem compacted_getD_pos {w : Writer} {i : Nat} (h : 0 < i) : (compacted w).buf.getD i 0 = 0 := by
  unfold compacted
  rw [getD_set_other _ (Nat.ne_of_lt h), getD_replicate_zero]

/-- An open writer whose complete bytes have gone to the sink is open still. -/
theorem writerOpen_compacted {s t : State} (h : WriterOpen s) (hw : t.writer = compacted s.writer) (hc : t.cfg = s.cfg)
    (hk : t.sink.bytes = s.sink.bytes ++ s.writer.buf.take s.writer.pos) : WriterOpen t := by
  obtain ⟨⟨hlen, hpos, hlow, -, hcount, -⟩, hopen⟩ := h
  have hsent : t.sink.bytes.length = s.sink.bytes.length + s.writer.pos := by
    rw [hk, List.length_append, List.length_take, hlen, Nat.min_eq_left hpos.le]
  unfold WriterOpen WriterOk
  rw [hw, hc, hsent]
  refine ⟨⟨?_, s.cfg.wBufsz_pos, fun k hk8 hkb => ?_, fun i _ hi => compacted_getD_pos hi, hcount,
    fun h => absurd h (by rw [show (compacted s.writer).closed = s.writer.closed from rfl, hopen]; decide)⟩, hopen⟩
  · simp only [compacted, List.length_set, List.length_replicate, hlen]
  · rw [show (compacted s.writer).pos = 0 from rfl, compacted_getD_zero (by rw [hlen]; exact s.cfg.wBufsz_pos)]
    split
    · exact BitVec.getLsbD_zero
    · exact hlow k hk8 hkb

theorem flushBuffer_run (s : State) : WriterRun s (flushBuffer s) := by
  refine .of_writes (flushBuffer_writes s) fun ho => ?_
  refine ((flushBuffer_writes s).and (flushBuffer_done s)).imp (fun _ t ⟨⟨hf, _⟩, hw, hk, _⟩ => ?_)
    fun _ _ _ => trivial
  exact writerOpen_compacted ho hw hf.sameRest.2.1 hk

/-! ### A close (40 R107) -/

/-- The count of an open writer is a multiple of 64 at a byte boundary only. -/
theorem bit_of_count_mod {s : State} (h : WriterOk s) (hc : s.writer.count.toNat % 64 = 0) : s.writer.bit = 7 := by
  obtain ⟨-, -, -, -, hcount, -⟩ := h
  have hlt := s.writer.bit.isLt
  rw [hcount, BitVec.toNat_ofNat] at hc
  exact BitVec.eq_of_toNat_eq (show s.writer.bit.toNat = 7 by omega)

/-- With no bit in it the buffer is all zeros. -/
theorem buffer_zero {s : State} (h : WriterOk s) (hp : s.writer.pos = 0) (hb : s.writer.bit = 7) {i : Nat}
    (hi : i < s.cfg.wBufsz) : s.writer.buf.getD i 0 = 0 := by
  obtain ⟨-, -, hlow, hrest, -, -⟩ := h
  rw [hp] at hlow hrest
  rcases Nat.eq_zero_or_pos i with rfl | hpos
  · refine BitVec.eq_of_getLsbD_eq fun k hk => ?_
    exact (hlow k hk (by rw [hb]; exact Nat.le_of_lt_succ hk)).trans BitVec.getLsbD_zero.symm
  · exact hrest i hi hpos

/-- The padding brings the count to a multiple of 64 (40 R107). -/
theorem padCount_count (w : Writer) : (w.count + BitVec.ofNat 64 (padCount w)).toNat % 64 = 0 := by
  rw [BitVec.toNat_add, BitVec.toNat_ofNat]
  simp only [padCount, Config.padBits]
  omega

/-- The padding leaves an open writer at a multiple of 64. -/
theorem putBits_pad {s : State} (ho : WriterOpen s) :
    (putBits (List.replicate (padCount s.writer) true) s).Meets
      (fun _ t => WriterOpen t ∧ t.writer.count.toNat % 64 = 0) fun _ _ => True :=
  (putBits_stream _ ho).imp
    (fun _ t ⟨h, _, hc, _⟩ => ⟨h, by rw [hc, List.length_replicate]; exact padCount_count s.writer⟩) fun _ _ => id

/-- A flush keeps the count and leaves no complete byte. -/
theorem flushBuffer_empties (s : State) :
    (flushBuffer s).Meets (fun _ t => t.writer.count = s.writer.count ∧ t.writer.pos = 0) fun _ _ => True :=
  (flushBuffer_done s).imp (fun _ t ⟨hw, _⟩ => by rw [hw]; exact ⟨rfl, rfl⟩) fun _ _ => id

theorem sinkClose_done (s : State) :
    (sinkClose s).Meets (fun _ t => t.writer = s.writer ∧ t.sink.bytes = s.sink.bytes) fun _ _ => True := by
  have hw := drawSink_writer s
  have hs := drawSink_sink s
  unfold sinkClose
  split
  · rename_i u hu
    rw [hu] at hw hs
    have hbytes : u.sink.bytes = s.sink.bytes := congrArg Sink.bytes hs
    exact ⟨hw, hbytes⟩
  · trivial

/-- An open writer that holds nothing, its count a multiple of 64, may be closed (10 R14 d). -/
theorem writerOk_close {s : State} (h : WriterOk s) (hp : s.writer.pos = 0) (hc : s.writer.count.toNat % 64 = 0) :
    WriterOk { s with writer := { s.writer with closed := true } } := by
  have hb := bit_of_count_mod h hc
  have hz : ∀ i < s.cfg.wBufsz, s.writer.buf.getD i 0 = 0 := fun _ => buffer_zero h hp hb
  obtain ⟨hlen, hpos, hlow, hrest, hcount, -⟩ := h
  exact ⟨hlen, hpos, hlow, hrest, hcount, fun _ => ⟨hp, hb, hz, hc⟩⟩

theorem WriterOk.congr {s t : State} (h : WriterOk s) (hw : t.writer = s.writer) (hk : t.sink.bytes = s.sink.bytes)
    (hc : t.cfg = s.cfg) : WriterOk t := by
  unfold WriterOk
  rw [hw, hk, hc]
  exact h

/-- A run of the writer's side that may close the writer as it ends. -/
abbrev WriterEnds {α : Type} (s : State) (r : Run α) : Prop :=
  r.Meets (fun _ t => WritesOn s t ∧ (WriterOpen s → WriterOk t)) fun _ t => WritesOn s t ∧ t.writer.ioFault = true

theorem WriterRun.ends {α : Type} {s : State} {r : Run α} (h : WriterRun s r) : WriterEnds s r :=
  h.imp (fun _ _ ⟨hw, ho⟩ => ⟨hw, fun h => (ho h).1⟩) fun _ _ => id

/-- The sink closed, the writer marked closed, from where nothing is left in the buffer. -/
theorem sinkClose_ends (s : State) :
    (andThen (sinkClose s) fun _ t => .done (0 : Word64) { t with writer := { t.writer with closed := true } }).Meets
      (fun _ t => WritesOn s t ∧ (WriterOk s → s.writer.pos = 0 → s.writer.count.toNat % 64 = 0 → WriterOk t))
      fun _ t => WritesOn s t ∧ t.writer.ioFault = true := by
  refine Run.Meets.andThen (P := fun _ t => WritesOn s t ∧ t.writer = s.writer ∧ t.sink.bytes = s.sink.bytes) ?_
    fun _ t ⟨hwo, hw, hk⟩ => ?_
  · exact ((sinkClose_writes s).and (sinkClose_done s)).imp
      (fun _ _ ⟨⟨hf, hio, hcl, _⟩, hw⟩ => ⟨⟨hf, hio.trans, hcl.trans⟩, hw⟩)
      fun _ _ ⟨⟨_, hf, hio, hcl, _⟩, _⟩ => ⟨⟨hf, fun _ => hio, hcl⟩, hio⟩
  · refine ⟨hwo.trans ⟨⟨rfl, List.prefix_rfl⟩, id, fun _ => rfl⟩, fun ho hp hc => ?_⟩
    have ht : WriterOk t := ho.congr hw hk hwo.1.sameRest.2.1
    exact writerOk_close ht (by rw [hw]; exact hp) (by rw [hw]; exact hc)

/-- WCLOSE on an open writer (40 R107): the byte filled, the count padded, the buffer flushed, the sink closed. -/
theorem wclose_ends (s : State) : WriterEnds s
    (andThen (putBits (List.replicate (fillCount s.writer) Config.closePartialFill) s) fun _ s =>
      andThen (putBits (List.replicate (padCount s.writer) true) s) fun _ s =>
        andThen (flushBuffer s) fun _ s =>
          andThen (sinkClose s) fun _ s => .done (0 : Word64) { s with writer := { s.writer with closed := true } }) := by
  refine Run.Meets.andThen (putBits_run _ s) fun _ t ⟨hw, ho⟩ => ?_
  refine Run.Meets.andThen (P := fun _ u => WritesOn s u ∧
    (WriterOpen s → WriterOpen u ∧ u.writer.count.toNat % 64 = 0)) ?_ fun _ u ⟨hw, ho⟩ => ?_
  · exact ((putBits_run _ t).and (.of_imp putBits_pad)).imp
      (fun _ _ ⟨⟨hw', _⟩, hpad⟩ => ⟨hw.trans hw', hpad ∘ ho⟩)
      fun _ _ ⟨⟨hw', hio⟩, _⟩ => ⟨hw.trans hw', hio⟩
  refine Run.Meets.andThen (P := fun _ v => WritesOn s v ∧
    (WriterOpen s → WriterOpen v ∧ v.writer.pos = 0 ∧ v.writer.count.toNat % 64 = 0)) ?_ fun _ v ⟨hw, ho⟩ => ?_
  · refine ((flushBuffer_run u).and (flushBuffer_empties u)).imp (fun _ v ⟨⟨hw', ho'⟩, hcount, hpos⟩ => ?_)
      fun _ _ ⟨⟨hw', hio⟩, _⟩ => ⟨hw.trans hw', hio⟩
    exact ⟨hw.trans hw', fun hs => ⟨ho' (ho hs).1, hpos, by rw [hcount]; exact (ho hs).2⟩⟩
  · refine (sinkClose_ends v).imp (fun _ _ ⟨hw', hok⟩ => ⟨hw.trans hw', fun hs => ?_⟩)
      fun _ _ ⟨hw', hio⟩ => ⟨hw.trans hw', hio⟩
    obtain ⟨⟨hv, -⟩, hpos, hcount⟩ := ho hs
    exact hok hv hpos hcount

/-! ### The commands -/

/-- What a command of the writer's side keeps: its frame, the sticky bits, the invariant. -/
abbrev WriterStep (s t : State) : Prop := WritesOn s t ∧ (WriterInv s → WriterInv t)

theorem WriterStep.refl (s : State) : WriterStep s s := ⟨WritesOn.refl s, id⟩

/-- A command refused at admission changes nothing; what it does otherwise may rest on its having been admitted. -/
theorem answers_admitted_of {P : State → Prop} {s : State} {test : Option Status}
    {body : State → Host.Outcome State Fault Refusal} (h : P s) (hb : test = none → Answers P (body s)) :
    Answers P (admitted test body s) := by
  cases test with
  | none => exact hb rfl
  | some st => exact answers_raiseStatus st h

theorem writerFault_eq_none {s : State} (h : writerFault s = none) : s.writer.ioFault = false := by
  simpa [writerFault] using h

theorem writerAdmission_eq_none {s : State} (h : writerAdmission s = none) :
    s.writer.ioFault = false ∧ s.writer.closed = false := by
  unfold writerAdmission at h
  split at h
  · cases h
  · rename_i hio
    split at h
    · cases h
    · rename_i hcl
      exact ⟨Bool.eq_false_iff.mpr hio, Bool.eq_false_iff.mpr hcl⟩

/-- The run of a command on a writer that is open and has no fault. -/
theorem WriterEnds.answers {s : State} {r : Run Word64} (h : WriterEnds s r) (hio : s.writer.ioFault = false)
    (hcl : s.writer.closed = false) : Answers (WriterStep s) (conclude r) :=
  answers_conclude (F := WriterStep) (h.imp (fun _ _ ⟨hw, ho⟩ => ⟨hw, fun hs _ => ho ⟨hs hio, hcl⟩⟩)
    fun _ _ ⟨hw, hio'⟩ => ⟨hw, fun _ h => absurd (hio'.symm.trans h) (by decide)⟩)

/-- A write command: once admitted, its run. -/
theorem answers_write {s : State} {body : State → Host.Outcome State Fault Refusal}
    (hb : s.writer.ioFault = false → s.writer.closed = false → Answers (WriterStep s) (body s)) :
    Answers (WriterStep s) (admitted (writerAdmission s) body s) :=
  answers_admitted_of (WriterStep.refl s) fun h =>
    have ⟨hio, hcl⟩ := writerAdmission_eq_none h
    hb hio hcl

/-- A write command that puts some bits and answers. -/
theorem putBits_answers (bs : List Bool) (v : Word64) {s : State} (hio : s.writer.ioFault = false)
    (hcl : s.writer.closed = false) : Answers (WriterStep s) (conclude (andThen (putBits bs s) fun _ t => .done v t)) :=
  ((putBits_run bs s).andThen fun _ => writerRun_done v).ends.answers hio hcl

theorem execWbit_keeps (b : Bool) (s : State) : Answers (WriterStep s) (execWbit b s) :=
  answers_write ((putBit_run b s).andThen fun _ => writerRun_done 0).ends.answers

theorem execWbits_keeps (a : BitVec 8) (v : Word64) (s : State) : Answers (WriterStep s) (execWbits a v s) := by
  refine answers_write fun hio hcl => ?_
  split
  · exact putBits_answers _ _ hio hcl
  · exact answers_raiseStatus _ (WriterStep.refl s)

theorem execWflush_keeps (s : State) : Answers (WriterStep s) (execWflush s) :=
  answers_write ((flushBuffer_run s).andThen fun _ => writerRun_done 0).ends.answers

theorem execWclose_keeps (s : State) : Answers (WriterStep s) (execWclose s) := by
  refine answers_admitted_of (WriterStep.refl s) fun hnone => ?_
  dsimp only
  split
  · exact answers_returnOk 0 (WriterStep.refl s)
  · rename_i hcl
    exact (wclose_ends s).answers (writerFault_eq_none hnone) (Bool.eq_false_iff.mpr hcl)

theorem execWcount_keeps (s : State) : Answers (WriterStep s) (execWcount s) := by
  unfold execWcount
  split
  · exact answers_returnOk _ ⟨⟨⟨rfl, List.prefix_rfl⟩, id, id⟩, id⟩
  · exact answers_returnOk _ (WriterStep.refl s)

theorem execEgenc_keeps (v : Word64) (s : State) : Answers (WriterStep s) (execEgenc v s) := by
  refine answers_write fun hio hcl => ?_
  split
  · exact putBits_answers _ _ hio hcl
  · exact answers_raiseStatus _ (WriterStep.refl s)

/-- What each command of the writer's side keeps. -/
theorem exec_writerCommand_keeps {i : Instr} (h : writerCommand i = true) (s : State) :
    Answers (WriterStep s) (exec i s) := by
  cases i with
  | wbit b => exact execWbit_keeps b s
  | wbits a v => exact execWbits_keeps a v s
  | wflush => exact execWflush_keeps s
  | wclose => exact execWclose_keeps s
  | wcount => exact execWcount_keeps s
  | egenc v => exact execEgenc_keeps v s
  | _ => cases h

theorem WriterInv.congr {s t : State} (h : WriterInv s) (hw : SameWriter s t) (hc : t.cfg = s.cfg) : WriterInv t :=
  fun hio => (h (hw.1 ▸ hio)).congr hw.1 (congrArg Sink.bytes hw.2) hc

/-- Settles O19: a command of the writer's side keeps the invariant, a reset gives it, no other step reaches it. -/
theorem stepsKeepTheWriterInvariant : Obligations.StepsKeepTheWriterInvariant := by
  intro s t hs h
  cases step_streams h with
  | kept hk hc => exact hs.congr hk.sameWriter hc
  | writer i u hi hu hc he =>
    obtain ⟨u', st, v, e, -, hinv⟩ := exec_writerCommand_keeps hi u
    cases e.symm.trans he
    exact hinv (hs.congr hu.sameWriter hc)
  | reader i u hi hu hc he =>
    obtain ⟨u', st, v, e, hr, -⟩ := exec_readerCommand hi u
    cases e.symm.trans he
    exact (hs.congr hu.sameWriter hc).congr hr.sameWriter hr.sameRest.1
  | attachSource bytes rest _ h => subst h; exact hs
  | reset e d source rest _ h => subst h; exact fun _ => writerOk_resetWith _ source

end Sys2Proof.Machine
end

section
/-! PROOFS. The reader's side over one step (10 R15, R16, R22; 41 R121, R128): its operations keep the reader's invariant,
never clear a sticky bit, and end the command at a failing answer of the source. One lemma for each operation says all of
it. -/

namespace Sys2Proof.Machine

/-! ### What the reader's operations keep -/

/-- From `s` to `t` the reader's side has moved in its frame and cleared no sticky bit (10 R22). With no fault before, it
answers IO_FAILURE and records R_IOFAULT exactly where it has met a failing answer. -/
abbrev ReadsOn (s : State) (st : Status) (t : State) : Prop :=
  EgdecFrame s t ∧ (s.reader.closed = true → t.reader.closed = true) ∧ (s.reader.eos = true → t.reader.eos = true) ∧
  (st ≠ .ioFailure ∧ t.reader.ioFault = s.reader.ioFault ∧ Delivered s t ∨
    st = .ioFailure ∧ t.reader.ioFault = true ∧ (s.reader.ioFault = false → Balked s t))

theorem ReadsOn.refl (s : State) {st : Status} (h : st ≠ .ioFailure) : ReadsOn s st s :=
  ⟨(ReadFrame.refl s).egdecFrame, id, id, .inl ⟨h, rfl, Delivered.refl s⟩⟩

theorem ReadsOn.frame {s t : State} {st : Status} (h : ReadsOn s st t) : EgdecFrame s t := h.1

theorem ReadsOn.trans {s t u : State} {st : Status} (h : ReadsOn s .ok t) (h' : ReadsOn t st u) : ReadsOn s st u := by
  obtain ⟨hf, hcl, heos, ⟨-, hio, hd⟩ | ⟨hst, -⟩⟩ := h
  · obtain ⟨hf', hcl', heos', hend⟩ := h'
    exact ⟨hf.trans hf', hcl' ∘ hcl, heos' ∘ heos, hend.imp
      (fun ⟨hst, hio', hd'⟩ => ⟨hst, hio'.trans hio, hd.trans hd'⟩)
      fun ⟨hst, hio', hb⟩ => ⟨hst, hio', fun hs => hd.balked (hb (hio.trans hs))⟩⟩
  · cases hst

/-- A run of the reader's side from `s`: where it goes on, an open reader is open still; where it has ended its command, an
open reader has its invariant. -/
abbrev ReaderRun {α : Type} (s : State) (r : Run α) : Prop :=
  r.Meets (fun _ t => ReadsOn s .ok t ∧ (ReaderOpen s → ReaderOpen t)) fun st t =>
    ReadsOn s st t ∧ (ReaderOpen s → ReaderInv t)

theorem Reads.on {α : Type} {s : State} {r : Run α} (h : Reads s r) :
    r.Meets (fun _ t => ReadsOn s .ok t) fun st t => ReadsOn s st t ∧ ReaderInv t := by
  refine h.imp (fun _ t ⟨hf, hio, heos, hcl, hd⟩ =>
    ⟨hf.egdecFrame, hcl.trans, heos.trans, .inl ⟨Status.noConfusion, hio, hd⟩⟩) fun st t ⟨hf, hend⟩ => ?_
  rcases hend with ⟨rfl, heos, hio, hcl, hd⟩ | ⟨rfl, hio, heos, hcl, hb⟩
  · exact ⟨⟨hf.egdecFrame, hcl.trans, fun _ => heos, .inl ⟨Status.noConfusion, hio, hd⟩⟩,
      fun _ h => absurd (heos.symm.trans h) (by decide)⟩
  · exact ⟨⟨hf.egdecFrame, hcl, heos, .inr ⟨rfl, hio, fun _ => hb⟩⟩,
      fun h => absurd (hio.symm.trans h) (by decide)⟩

theorem ReaderRun.of_reads {α : Type} {s : State} {r : Run α} (h : Reads s r)
    (ho : ReaderOpen s → r.Meets (fun _ t => ReaderOpen t) fun _ _ => True) : ReaderRun s r :=
  ((Reads.on h).and (.of_imp ho)).imp (fun _ _ => id) fun _ _ ⟨⟨hr, hinv⟩, _⟩ => ⟨hr, fun _ => hinv⟩

theorem ReaderRun.andThen {α β : Type} {s : State} {r : Run α} {f : α → State → Run β} (h : ReaderRun s r)
    (hf : ∀ a t, ReaderRun t (f a t)) : ReaderRun s (andThen r f) :=
  Run.Meets.andThen h fun a t ⟨hr, ho⟩ =>
    (hf a t).imp (fun _ _ ⟨hr', ho'⟩ => ⟨hr.trans hr', ho' ∘ ho⟩) fun _ _ ⟨hr', hinv⟩ => ⟨hr.trans hr', hinv ∘ ho⟩

theorem readerRun_done {α : Type} (a : α) (s : State) : ReaderRun s (.done a s : Run α) :=
  ⟨ReadsOn.refl s Status.noConfusion, id⟩

theorem getBit_run (s : State) : ReaderRun s (getBit s) :=
  .of_reads (getBit_reads s) fun ho => (getBit_stream ho).imp (fun _ _ ⟨h, _⟩ => h) fun _ _ => id

theorem getBits_run (n x : Nat) (s : State) : ReaderRun s (getBits n x s) :=
  .of_reads (getBits_reads n x s) fun ho => (getBits_stream n x ho).imp (fun _ _ ⟨h, _⟩ => h) fun _ _ => id

/-- A code out of range (42 R144) is no failure of the source and leaves the reader as it is. -/
theorem egRange_run {α : Type} (s : State) : ReaderRun s (egRange s : Run α) :=
  ⟨⟨⟨⟨rfl, rfl, le_rfl⟩, fun _ => rfl⟩, id, id, .inl ⟨Status.noConfusion, rfl, Delivered.refl s⟩⟩, fun ho _ _ => ho.1⟩

theorem egPrefix_run (left n : Nat) (s : State) : ReaderRun s (egPrefix left n s) := by
  induction left generalizing n s with
  | zero => exact egRange_run s
  | succ left ih =>
    refine (getBit_run s).andThen fun b t => ?_
    cases b with
    | true => exact readerRun_done n t
    | false => exact ih (n + 1) t

theorem egFetch_run (s : State) : ReaderRun s (egFetch s) := by
  refine (egPrefix_run _ 0 s).andThen fun n t => (getBits_run n 0 t).andThen fun r t => ?_
  split
  · exact egRange_run t
  · split
    · exact (getBit_run t).andThen fun neg t => readerRun_done _ t
    · exact readerRun_done _ t

/-- A close of the source that goes on reaches none of what the invariant speaks of. -/
theorem sourceClose_done (s : State) :
    (sourceClose s).Meets (fun _ t => t = { s with env := t.env, source := { s.source with closed := true } })
      fun _ _ => True := by
  have he := drawSource_env s
  unfold sourceClose
  split
  · trivial
  · rename_i k u hu
    rw [hu] at he
    dsimp only [Run.Meets] at he ⊢
    rw [he]

/-! ### The commands -/

/-- A command of the reader's side ends with a response that says what its run met, and keeps the reader's invariant. -/
def ReadAnswers (s : State) (o : Host.Outcome State Fault Refusal) : Prop :=
  ∃ u st v, o = .next (respond u st v) ∧ ReadsOn s st u ∧ (ReaderInv s → ReaderInv u) ∧ (st ≠ .ok → v = 0)

theorem readAnswers_raiseStatus {s : State} {st : Status} (h : st ≠ .ioFailure) : ReadAnswers s (raiseStatus st s) :=
  ⟨s, st, 0, rfl, ReadsOn.refl s h, id, fun _ => rfl⟩

/-- A refusal at admission changes nothing; IO_FAILURE is one only where the fault was recorded before. -/
theorem readAnswers_admitted {s : State} {test : Option Status} {body : State → Host.Outcome State Fault Refusal}
    (ht : test = some .ioFailure → s.reader.ioFault = true) (hb : test = none → ReadAnswers s (body s)) :
    ReadAnswers s (admitted test body s) := by
  cases test with
  | none => exact hb rfl
  | some st =>
    by_cases hst : st = .ioFailure
    · subst hst
      have hio := ht rfl
      exact ⟨s, .ioFailure, 0, rfl, ⟨(ReadFrame.refl s).egdecFrame, id, id,
        .inr ⟨rfl, hio, fun h => absurd (hio.symm.trans h) (by decide)⟩⟩, id, fun _ => rfl⟩
    · exact readAnswers_raiseStatus hst

/-- What the run of a command met is what the command answers. -/
theorem readAnswers_conclude {s : State} {r : Run Word64}
    (h : r.Meets (fun _ t => ReadsOn s .ok t ∧ (ReaderInv s → ReaderInv t)) fun st t =>
      ReadsOn s st t ∧ (ReaderInv s → ReaderInv t)) : ReadAnswers s (conclude r) := by
  rcases conclude_of_meets h with ⟨v, t, e, hr, hinv⟩ | ⟨st, t, e, hr, hinv⟩
  · exact ⟨t, .ok, v, e, hr, hinv, fun h => absurd rfl h⟩
  · exact ⟨t, st, 0, e, hr, hinv, fun _ => rfl⟩

theorem readerAdmission_eq_none_iff {s : State} : readerAdmission s = none ↔
    s.reader.ioFault = false ∧ s.reader.eos = false ∧ s.reader.closed = false := by
  simp [readerAdmission, ite_eq_iff]

theorem readerAdmission_ioFailure {s : State} (h : readerAdmission s = some .ioFailure) : s.reader.ioFault = true := by
  by_contra hio
  simp [readerAdmission, hio, ite_eq_iff] at h

/-- A read command: once admitted, its run, on a reader that is open if it has its invariant. -/
theorem answers_read {s : State} {body : State → Host.Outcome State Fault Refusal}
    (hb : (ReaderInv s → ReaderOpen s) → ReadAnswers s (body s)) :
    ReadAnswers s (admitted (readerAdmission s) body s) :=
  readAnswers_admitted readerAdmission_ioFailure fun h =>
    have ⟨hio, heos, hcl⟩ := readerAdmission_eq_none_iff.mp h
    hb fun hinv => ⟨hinv hio heos, hio, heos, hcl⟩

theorem ReaderRun.answers {s : State} {r : Run Word64} (h : ReaderRun s r) (hopen : ReaderInv s → ReaderOpen s) :
    ReadAnswers s (conclude r) :=
  readAnswers_conclude (h.imp (fun _ _ ⟨hr, ho⟩ => ⟨hr, fun hs _ _ => (ho (hopen hs)).1⟩)
    fun _ _ ⟨hr, hinv⟩ => ⟨hr, hinv ∘ hopen⟩)

theorem execRbit_answers (s : State) : ReadAnswers s (execRbit s) :=
  answers_read ((getBit_run s).andThen fun _ => readerRun_done _).answers

theorem execRbits_answers (a : BitVec 8) (s : State) : ReadAnswers s (execRbits a s) := by
  refine answers_read fun hopen => ?_
  split
  · exact ((getBits_run a.toNat 0 s).andThen fun _ => readerRun_done _).answers hopen
  · exact readAnswers_raiseStatus Status.noConfusion

/-- EGDEC's response is that of its fetch, its value the symbol of the code fetched. -/
theorem execEgdec_eq (s : State) : execEgdec s = admitted (readerAdmission s) (fun s =>
    conclude (andThen (egFetch s) fun c s => .done (codeSymbol c.1 c.2.1 c.2.2) s)) s := by
  unfold execEgdec
  congr 1
  funext s
  cases egFetch s <;> rfl

theorem execEgdec_answers (s : State) : ReadAnswers s (execEgdec s) := by
  rw [execEgdec_eq]
  exact answers_read ((egFetch_run s).andThen fun _ => readerRun_done _).answers

theorem execRclose_answers (s : State) : ReadAnswers s (execRclose s) := by
  refine readAnswers_admitted (fun h => ?_) fun _ => ?_
  · by_contra hio
    simp [readerFault, hio] at h
  dsimp only
  split
  · exact ⟨s, .ok, 0, rfl, ReadsOn.refl s Status.noConfusion, id, fun _ => rfl⟩
  · refine readAnswers_conclude (Run.Meets.andThen
      (P := fun _ t => ReadsOn s .ok t ∧ t = { s with env := t.env, source := { s.source with closed := true } }) ?_
      fun _ t ⟨hr, ht⟩ => ?_)
    · exact ((Reads.on (sourceClose_reads s)).and (sourceClose_done s)).imp (fun _ _ => id)
        fun _ _ ⟨⟨hr, hinv⟩, _⟩ => ⟨hr, fun _ => hinv⟩
    · refine ⟨hr.trans ⟨⟨⟨rfl, rfl, le_rfl⟩, id⟩, fun _ => rfl, id, .inl ⟨Status.noConfusion, rfl, Delivered.refl t⟩⟩, ?_⟩
      rw [ht]
      exact id

theorem execRcount_answers (s : State) : ReadAnswers s (execRcount s) := by
  unfold execRcount
  split
  · exact ⟨nextDraw s, .ok, _, rfl, ⟨⟨⟨rfl, rfl, le_rfl⟩, id⟩, id, id, .inl ⟨Status.noConfusion, rfl, Delivered.refl s⟩⟩, id,
      fun h => absurd rfl h⟩
  · exact ⟨s, .ok, _, rfl, ReadsOn.refl s Status.noConfusion, id, fun h => absurd rfl h⟩

/-- What each command of the reader's side answers and keeps. -/
theorem exec_readerCommand_answers {i : Instr} (h : readerCommand i = true) (s : State) : ReadAnswers s (exec i s) := by
  cases i with
  | rbit => exact execRbit_answers s
  | rbits a => exact execRbits_answers a s
  | rclose => exact execRclose_answers s
  | rcount => exact execRcount_answers s
  | egdec => exact execEgdec_answers s
  | _ => cases h

/-! ### The invariant -/

theorem ReaderInv.congr {s t : State} (h : ReaderInv s) (hr : SameReader s t) (hc : t.cfg = s.cfg) : ReaderInv t := by
  obtain ⟨hreader, hsource, hstarted⟩ := hr
  unfold ReaderInv ReaderOk
  rw [hreader, hsource, hstarted, hc]
  exact h

/-- A source attached before the first read: nothing has been delivered, so nothing is said of its bytes (70 R255). -/
theorem readerInv_attachSource {s : State} (h : ReaderInv s) (hs : s.sourceStarted = false) (bytes : List Byte) :
    ReaderInv { s with source := { s.source with bytes := bytes } } := by
  intro hio heos
  obtain ⟨hlen, hpos, hfill, hbit, hnext, -, -, hcount, hstart⟩ := h hio heos
  have hn := hstart hs
  have hf : s.reader.fill = 0 := by omega
  exact ⟨hlen, hpos, hfill, hbit, hnext, hn ▸ Nat.zero_le _, by rw [hf]; rfl, hcount, hstart⟩

/-- Settles O27: a command of the reader's side keeps the invariant, an attached source has delivered nothing, a reset gives
it, no other step reaches it. -/
theorem stepsKeepTheReaderInvariant : Obligations.StepsKeepTheReaderInvariant := by
  intro s t hs h
  cases step_streams h with
  | kept hk hc => exact hs.congr hk.sameReader hc
  | writer i u hi hu hc he =>
    obtain ⟨u', st, v, e, hw⟩ := exec_writerCommand hi u
    cases e.symm.trans he
    exact (hs.congr hu.sameReader hc).congr hw.sameReader hw.sameRest.2.1
  | reader i u hi hu hc he =>
    obtain ⟨u', st, v, e, -, hinv, -⟩ := exec_readerCommand_answers hi u
    cases e.symm.trans he
    exact hinv (hs.congr hu.sameReader hc)
  | attachSource bytes rest hstart h => subst h; exact readerInv_attachSource hs hstart bytes
  | reset e d source rest _ h => subst h; exact fun _ _ => readerOk_resetWith _ source

end Sys2Proof.Machine
end

section
/-! PROOFS. The sticky bits of STATUS over one step (10 R22) and the failures of the source (41 R128, 60 R222), from what a
command of each side keeps. -/

namespace Sys2Proof.Machine

/-! ### STATUS (10 R22) -/

/-- None of the six bits of STATUS cleared. -/
abbrev StickyKept (s t : State) : Prop :=
  (s.writer.closed = true → t.writer.closed = true) ∧ (s.reader.closed = true → t.reader.closed = true) ∧
  (s.writer.ioFault = true → t.writer.ioFault = true) ∧ (s.reader.ioFault = true → t.reader.ioFault = true) ∧
  (s.reader.eos = true → t.reader.eos = true) ∧ (s.egRangeSeen = true → t.egRangeSeen = true)

/-- STATUS bit by bit (10 R22). -/
theorem statusBits_getLsbD (s : State) :
    (statusBits s).getLsbD 0 = s.writer.closed ∧ (statusBits s).getLsbD 1 = s.reader.closed ∧
    (statusBits s).getLsbD 2 = s.writer.ioFault ∧ (statusBits s).getLsbD 3 = s.reader.ioFault ∧
    (statusBits s).getLsbD 4 = s.reader.eos ∧ (statusBits s).getLsbD 5 = s.egRangeSeen := by
  unfold statusBits
  generalize s.writer.closed = b0, s.reader.closed = b1, s.writer.ioFault = b2, s.reader.ioFault = b3,
    s.reader.eos = b4, s.egRangeSeen = b5
  revert b0 b1 b2 b3 b4 b5
  decide

theorem StickyKept.statusBits {s t : State} (h : StickyKept s t) {k : Nat} (hk : k < 6)
    (hs : (statusBits s).getLsbD k = true) : (statusBits t).getLsbD k = true := by
  obtain ⟨h0, h1, h2, h3, h4, h5⟩ := h
  obtain ⟨s0, s1, s2, s3, s4, s5⟩ := statusBits_getLsbD s
  obtain ⟨t0, t1, t2, t3, t4, t5⟩ := statusBits_getLsbD t
  match k with
  | 0 => rw [t0]; exact h0 (s0 ▸ hs)
  | 1 => rw [t1]; exact h1 (s1 ▸ hs)
  | 2 => rw [t2]; exact h2 (s2 ▸ hs)
  | 3 => rw [t3]; exact h3 (s3 ▸ hs)
  | 4 => rw [t4]; exact h4 (s4 ▸ hs)
  | 5 => rw [t5]; exact h5 (s5 ▸ hs)

theorem SameStreams.stickyKept {s t : State} (h : SameStreams s t) : StickyKept s t := by
  obtain ⟨hw, hr, hrange, -⟩ := h
  rw [StickyKept, hw, hr, hrange]
  exact ⟨id, id, id, id, id, id⟩

theorem StickyKept.trans {s t u : State} (h : StickyKept s t) (h' : StickyKept t u) : StickyKept s u := by
  obtain ⟨h0, h1, h2, h3, h4, h5⟩ := h
  obtain ⟨g0, g1, g2, g3, g4, g5⟩ := h'
  exact ⟨g0 ∘ h0, g1 ∘ h1, g2 ∘ h2, g3 ∘ h3, g4 ∘ h4, g5 ∘ h5⟩

theorem WritesOn.stickyKept {s t : State} (h : WritesOn s t) : StickyKept s t := by
  obtain ⟨hf, hio, hcl⟩ := h
  have hr : t.reader = s.reader := hf.sameReader.1
  have hrange : t.egRangeSeen = s.egRangeSeen := hf.sameRest.1
  rw [StickyKept, hr, hrange]
  exact ⟨hcl, id, hio, id, id, id⟩

theorem ReadsOn.stickyKept {s t : State} {st : Status} (h : ReadsOn s st t) : StickyKept s t := by
  obtain ⟨hf, hcl, heos, hend⟩ := h
  have hio : s.reader.ioFault = true → t.reader.ioFault = true := by
    rcases hend with ⟨-, hio, -⟩ | ⟨-, hio, -⟩
    · exact hio.trans
    · exact fun _ => hio
  have hw : t.writer = s.writer := hf.sameWriter.1
  rw [StickyKept, hw]
  exact ⟨id, hcl, id, hio, heos, hf.2⟩

/-- Settles O56: each side's commands clear no sticky bit, and no other step but a reset reaches one. -/
theorem statusBitsAreOneWay : Obligations.StatusBitsAreOneWay := by
  intro s t hno h k hk
  suffices hkept : StickyKept s t from hkept.statusBits hk
  cases step_streams h with
  | kept h _ => exact h.stickyKept
  | writer i u hi hu _ he =>
    obtain ⟨u', st, v, e, hw, -⟩ := exec_writerCommand_keeps hi u
    cases e.symm.trans he
    exact hu.stickyKept.trans hw.stickyKept
  | reader i u hi hu _ he =>
    obtain ⟨u', st, v, e, hr, -⟩ := exec_readerCommand_answers hi u
    cases e.symm.trans he
    exact hu.stickyKept.trans hr.stickyKept
  | attachSource bytes rest _ h => subst h; exact ⟨id, id, id, id, id, id⟩
  | reset e d source rest hi _ => exact absurd (by rw [hi]; rfl) (hno e d source)

/-! ### A failing source (41 R121, R128, 60 R222) -/

theorem EgdecFrame.responses {s t : State} (h : EgdecFrame s t) : t.responses = s.responses := by
  obtain ⟨⟨h, -⟩, -⟩ := h
  rw [h]

theorem EgdecFrame.source {s t : State} (h : EgdecFrame s t) :
    t.source.bytes = s.source.bytes ∧ s.source.next ≤ t.source.next := h.1.2

/-- A command that has met a failing answer ends as 41 R128 says. -/
theorem ReadsOn.readFailed {s u : State} (h : ReadsOn s .ioFailure u) : ReadFailed s (respond u .ioFailure 0) := by
  obtain ⟨hf, -, -, ⟨hst, -⟩ | ⟨-, hio, -⟩⟩ := h
  · exact absurd rfl hst
  · exact ⟨hio, congrArg (· ++ _) hf.responses, hf.sameWriter, hf.sameLz⟩

/-- On a reader without fault R_IOFAULT is set exactly by an IO_FAILURE. -/
theorem ReadsOn.ioFault_iff {s u : State} {st : Status} (h : ReadsOn s st u) (hio : s.reader.ioFault = false) :
    u.reader.ioFault = true ↔ st = .ioFailure := by
  obtain ⟨-, -, -, ⟨hst, hu, -⟩ | ⟨hst, hu, -⟩⟩ := h
  · rw [hu, hio]; exact ⟨fun h => (nomatch h), fun h => absurd h hst⟩
  · exact ⟨fun _ => hst, fun _ => hu⟩

/-- A failing answer among those taken is the last of them, and the command has ended with IO_FAILURE. -/
theorem ReadsOn.fail_taken {s u : State} {st : Status} {used : List Config.SourceAnswer} (h : ReadsOn s st u)
    (hio : s.reader.ioFault = false) (hused : s.env.sourceScript = used ++ u.env.sourceScript) {k : Nat}
    (hk : .fail k ∈ used) : st = .ioFailure ∧ ∃ before k, used = before ++ [.fail k] ∧ before.all delivers = true := by
  have nofail {l : List Config.SourceAnswer} (hl : l.all delivers = true) (he : used = l) : False := by
    subst he
    exact Bool.false_ne_true (List.all_eq_true.mp hl _ hk)
  obtain ⟨-, -, -, ⟨-, -, l, hs, hl⟩ | ⟨hst, -, hb⟩⟩ := h
  · exact (nofail hl (List.append_cancel_right (hused.symm.trans hs))).elim
  · obtain ⟨l, hl, ⟨j, hs⟩ | ⟨hs, hnil⟩⟩ := hb hio
    · refine ⟨hst, l, j, List.append_cancel_right (bs := u.env.sourceScript) ?_, hl⟩
      rw [← hused, hs, List.append_assoc]
      rfl
    · exact (nofail hl (by rw [← hs, hused, hnil, List.append_nil])).elim

/-- A run that has met a failing answer ends its command so. -/
theorem readFailed_of_raised {i : Instr} {s u : State} {α : Type} {r : Run α} (hr : ReaderRun s r)
    (h : r = .raised .ioFailure u) (he : exec i s = .next (respond u .ioFailure 0)) :
    ∃ t, exec i s = .next t ∧ ReadFailed s t := by
  subst h
  obtain ⟨hr, -⟩ := hr
  exact ⟨_, he, hr.readFailed⟩

theorem rclose_fails {s : State} {k : Nat} {rest : List Config.SourceAnswer} (hio : s.reader.ioFault = false)
    (hcl : s.reader.closed = false) (h : s.env.sourceScript = .fail k :: rest) :
    ∃ t, exec .rclose s = .next t ∧ ReadFailed s t := by
  obtain ⟨u, hu⟩ : ∃ u, sourceClose s = .raised .ioFailure u := by
    unfold sourceClose
    rw [drawSource_script s h]
    exact ⟨_, rfl⟩
  have hr := Reads.on (sourceClose_reads s)
  rw [hu] at hr
  obtain ⟨hr, -⟩ := hr
  exact ⟨_, by simp [exec, execRclose, readerFault, hio, hcl, admitted, hu], hr.readFailed⟩

theorem rbits_fails {s u : State} {a : BitVec 8} (hadm : readerAdmission s = none) (ha : 1 ≤ a.toNat ∧ a.toNat ≤ 64)
    (h : getBits a.toNat 0 s = .raised .ioFailure u) : ∃ t, exec (.rbits a) s = .next t ∧ ReadFailed s t := by
  have hlen : lengthOk a = true := by
    simp only [lengthOk, Bool.and_eq_true, decide_eq_true_eq]
    exact ha
  exact readFailed_of_raised (getBits_run _ _ s) h (by simp [exec, execRbits, hadm, admitted, hlen, h])

/-- A read command on an empty buffer meets the source's next answer. -/
theorem read_empty_fails {i : Instr} {s : State} {k : Nat} {rest : List Config.SourceAnswer}
    (hadm : readerAdmission s = none) (hp : s.reader.pos = s.reader.fill) (h : s.env.sourceScript = .fail k :: rest)
    (hi : readCommand i = true) (ha : ∀ a, i = .rbits a → 1 ≤ a.toNat ∧ a.toNat ≤ 64) :
    ∃ t, exec i s = .next t ∧ ReadFailed s t := by
  obtain ⟨u, hu⟩ := getBit_fails h hp
  cases i with
  | rbit => exact readFailed_of_raised (getBit_run s) hu (by simp [exec, execRbit, hadm, admitted, hu])
  | rbits a =>
    have hlen := ha a rfl
    refine rbits_fails (u := u) hadm hlen ?_
    obtain ⟨n, hn⟩ : ∃ n, a.toNat = n + 1 := ⟨a.toNat - 1, by omega⟩
    rw [hn, getBits, hu]
    rfl
  | egdec =>
    have hf : egFetch s = .raised .ioFailure u := by simp [egFetch, Config.egZeroLimit, egPrefix, hu]
    exact readFailed_of_raised (egFetch_run s) hf (by simp [exec, execEgdec_eq, hadm, admitted, hf])
  | _ => cases hi

/-- RBITS of more bits than the buffer holds meets it too. -/
theorem rbits_beyond_fails {s : State} {k : Nat} {rest : List Config.SourceAnswer} {a : BitVec 8} (ho : ReaderOpen s)
    (h : s.env.sourceScript = .fail k :: rest) (ha : a.toNat ≤ 64)
    (hb : 8 * (s.reader.fill - s.reader.pos) < a.toNat + (7 - s.reader.bit.toNat)) :
    ∃ t, exec (.rbits a) s = .next t ∧ ReadFailed s t := by
  obtain ⟨u, hu⟩ := getBits_fails a.toNat 0 ho h hb
  have hpos : a.toNat ≠ 0 := fun h0 => by rw [h0] at hu; cases hu
  obtain ⟨-, hio, heos, hcl⟩ := ho
  exact rbits_fails (readerAdmission_eq_none_iff.mpr ⟨hio, heos, hcl⟩) ⟨Nat.one_le_iff_ne_zero.mpr hpos, ha⟩ hu

/-- Settles O25: what a reader's command meets is what it answers; each command asks the source at its own request. -/
theorem sourceFailureIsRecorded : Obligations.SourceFailureIsRecorded := by
  refine ⟨fun i s t hi hio he => ?_, fun i s t used hi hio he hused ⟨k, hk⟩ => ?_, fun s k rest hio hcl h => ?_⟩
  · obtain ⟨u, st, v, e, hr, -, hv⟩ := exec_readerCommand_answers hi s
    cases e.symm.trans he
    refine ⟨(hr.ioFault_iff hio).trans ?_, hr.frame.source⟩
    rw [respond_responses, hr.frame.responses, List.append_cancel_left_eq]
    constructor
    · rintro rfl
      rw [hv Status.noConfusion]
    · rintro ⟨⟩
      rfl
  · obtain ⟨u, st, v, e, hr, -, hv⟩ := exec_readerCommand_answers hi s
    cases e.symm.trans he
    obtain ⟨rfl, hlast⟩ := hr.fail_taken hio hused hk
    rw [hv Status.noConfusion]
    exact ⟨hr.readFailed, hlast⟩
  · refine ⟨rclose_fails hio hcl h, fun heos hp i hi ha => ?_, fun heos hok a ha hb => ?_⟩
    · exact read_empty_fails (readerAdmission_eq_none_iff.mpr ⟨hio, heos, hcl⟩) hp h hi ha
    · exact rbits_beyond_fails ⟨hok, hio, heos, hcl⟩ h ha hb

end Sys2Proof.Machine
end

section
/-! PROOFS. LZFWD's block (43 R163 to R180): its length, the slots of HT it leaves, and that it depends on the span alone. -/

namespace Sys2Proof.Machine

/-! ### The pieces of a block (43 R167, 30 R75, R76) -/

/-- The extension of a length takes a byte for each 255 begun, and never more bytes than the length counts. -/
theorem length_lengthExtension_le (x : Nat) :
    (lengthExtension x).length ≤ x / 255 + 1 ∧ (lengthExtension x).length ≤ x := by
  unfold lengthExtension
  split
  · rename_i h
    simp only [Config.nibbleCap, writeLen, List.length_append, List.length_replicate, List.length_singleton] at h ⊢
    omega
  · simp

/-- A sequence is no longer than what it stands for, but for a byte for each 255 literals. -/
theorem length_sequenceBytes_le (lits : List Byte) (dist x : Nat) :
    (sequenceBytes lits dist x).length ≤ lits.length + Config.minMatch + x + lits.length / 255 := by
  have hlit := (length_lengthExtension_le lits.length).1
  have hmat := (length_lengthExtension_le x).2
  simp only [sequenceBytes, distBytes, List.length_append, List.length_cons, List.length_nil, Config.minMatch]
  omega

theorem length_lastSequenceBytes_le (lits : List Byte) :
    (lastSequenceBytes lits).length ≤ lits.length + lits.length / 255 + 2 := by
  have hlit := (length_lengthExtension_le lits.length).1
  simp only [lastSequenceBytes, List.length_append, List.length_cons]
  omega

theorem length_spanSlice_le (span : List Byte) (p len : Nat) : (spanSlice span p len).length ≤ len :=
  List.length_take_le _ _

/-! ### The length of the parse -/

/-- A search finds a match at or after the position it starts from, before the margin. -/
theorem searchFrom_range {span : List Byte} {hb mfl fuel att fip ip ref : Nat} {t u : HashTable}
    (h : searchFrom span hb mfl fuel att fip t = (some (ip, ref), u)) : fip ≤ ip ∧ ip ≤ mfl := by
  induction fuel generalizing att fip t with
  | zero => cases h
  | succ fuel ih =>
    simp only [searchFrom] at h
    split at h
    · cases h
    · rename_i hnext
      have hle := Nat.le_trans (Nat.le_add_right fip _) (Nat.le_of_not_gt hnext)
      split at h
      · cases h
        exact ⟨le_rfl, hle⟩
      · obtain ⟨hge, hle⟩ := ih h
        exact ⟨(Nat.le_add_right _ _).trans hge, hle⟩

theorem catchUp_le (span : List Byte) (room ip ref : Nat) : catchUp span room ip ref ≤ room := by
  induction room generalizing ip ref with
  | zero => exact le_rfl
  | succ room ih =>
    unfold catchUp
    split
    · exact Nat.succ_le_succ (ih _ _)
    · exact Nat.zero_le _

theorem extendBy_le (span : List Byte) (room ip ref : Nat) : extendBy span room ip ref ≤ room := by
  induction room generalizing ip ref with
  | zero => exact le_rfl
  | succ room ih =>
    unfold extendBy
    split
    · exact Nat.succ_le_succ (ih _ _)
    · exact Nat.zero_le _

/-- The parse stands at or after its anchor, at a match before the margin. -/
def ParsePoint.Within (mfl anchor : Nat) : ParsePoint → Prop
  | .search ip => anchor ≤ ip
  | .found ip _ => anchor ≤ ip ∧ ip ≤ mfl

/-- The sequences `bytes` stand for the span's bytes from `anchor` up to `stop`, and are longer by at most one byte for each
255 of them. -/
abbrev Covers (n anchor : Nat) (bytes : List Byte) (stop : Nat) : Prop :=
  anchor ≤ stop ∧ stop ≤ n ∧ bytes.length ≤ stop - anchor + (stop - anchor) / 255

theorem Covers.append {n a b c : Nat} {l m : List Byte} (h : Covers n a l b) (h' : Covers n b m c) :
    Covers n a (l ++ m) c := by
  obtain ⟨hab, -, hl⟩ := h
  obtain ⟨hbc, hc, hm⟩ := h'
  refine ⟨hab.trans hbc, hc, ?_⟩
  rw [List.length_append]
  omega

/-- The sequence of a match: its literals from the anchor on, then the match and its extension, which end in the span. -/
theorem covers_sequence {span : List Byte} {n mfl mlim anchor ip ref : Nat} (hmfl : mfl + Config.minMatch ≤ n)
    (hmlim : mlim ≤ n) (ha : anchor ≤ ip) (hip : ip ≤ mfl) :
    let x := extendBy span (mlim - (ip + Config.minMatch)) (ip + Config.minMatch) (ref + Config.minMatch)
    Covers n anchor (sequenceBytes (spanSlice span anchor (ip - anchor)) (ip - ref) x) (ip + Config.minMatch + x) := by
  intro x
  have hx : x ≤ mlim - (ip + Config.minMatch) := extendBy_le _ _ _ _
  have hlits := length_spanSlice_le span anchor (ip - anchor)
  have hlen := length_sequenceBytes_le (spanSlice span anchor (ip - anchor)) (ip - ref) x
  exact ⟨by omega, by omega, by omega⟩

/-- The sequences of the parse from a point on cover the span from the anchor to the anchor at the end. -/
theorem parseFrom_covers {span : List Byte} {n hb mfl mlim : Nat} (hmfl : mfl + Config.minMatch ≤ n) (hmlim : mlim ≤ n)
    (fuel : Nat) {point : ParsePoint} {anchor : Nat} (t : HashTable) (hp : point.Within mfl anchor) (ha : anchor ≤ n) :
    Covers n anchor (parseFrom span hb mfl mlim fuel point anchor t).1
      (parseFrom span hb mfl mlim fuel point anchor t).2.1 := by
  have stays : Covers n anchor [] anchor := ⟨le_rfl, ha, Nat.zero_le _⟩
  induction fuel generalizing point anchor t with
  | zero => cases point <;> exact stays
  | succ fuel ih =>
    cases point with
    | search ip =>
      simp only [parseFrom]
      split
      · exact stays
      · rename_i ip' ref u hfound
        obtain ⟨hge, hle⟩ := searchFrom_range hfound
        have hback := catchUp_le span (ip' - anchor) ip' ref
        simp only [ParsePoint.Within] at hp
        exact ih u ⟨by omega, by omega⟩ ha stays
    | found ip ref =>
      obtain ⟨hge, hle⟩ := hp
      have hseq := covers_sequence (span := span) (ref := ref) hmfl hmlim hge hle
      simp only [parseFrom]
      split
      · exact hseq
      · rename_i hstop
        refine hseq.append (ih _ ?_ hseq.2.1 ⟨le_rfl, hseq.2.1, Nat.zero_le _⟩)
        split
        · exact ⟨le_rfl, Nat.le_of_not_gt hstop⟩
        · exact Nat.le_succ _

/-- 43 R160, R180 (b): a block is no longer than MaxLen of its span. -/
theorem length_encodeBlock_le (span : List Byte) (t : HashTable) : (encodeBlock span t).1.length ≤ maxLen span.length := by
  unfold encodeBlock maxLen
  dsimp only
  split
  · have := length_lastSequenceBytes_le span
    dsimp only
    omega
  · rename_i hn
    simp only [Config.minLength, Config.mfLimit, Config.lastLiterals, not_lt] at hn ⊢
    obtain ⟨-, hstop, hlen⟩ := parseFrom_covers (span := span) (n := span.length) (hb := hashBits span.length)
      (mfl := span.length - 12) (mlim := span.length - 5) (by simp only [Config.minMatch]; omega) (Nat.sub_le _ _)
      (span.length + 1) (point := .search 1) (insertPosition span (hashBits span.length) [] 0) (Nat.zero_le 1)
      (Nat.zero_le _)
    generalize parseFrom span _ _ _ _ _ _ _ = r at hstop hlen ⊢
    obtain ⟨bytes, anchor, u⟩ := r
    have hlast := length_lastSequenceBytes_le (spanSlice span anchor (span.length - anchor))
    have hlits := length_spanSlice_le span anchor (span.length - anchor)
    dsimp only at hstop hlen ⊢
    rw [List.length_append]
    omega

/-! ### The hash table (43 R164 to R166) -/

/-- A hash table in canonical form that lists none but its 8192 slots (10 R18). -/
abbrev TableOk (t : HashTable) : Prop := HashTable.wf t = true ∧ ∀ e ∈ t, e.1 < 8192

theorem lzHash_lt {w hb : Nat} (h : hb ≤ 13) : lzHash w hb < 8192 := by
  have hpow : 2 ^ 19 ≤ 2 ^ (32 - hb) := Nat.pow_le_pow_right (by decide) (by omega)
  have hdiv := Nat.div_le_div_left (a := w * Config.hashMultiplier % 2 ^ 32) hpow (by decide)
  rw [lzHash, Nat.shiftRight_eq_div_pow]
  omega

theorem insertPosition_ok {span : List Byte} {hb p : Nat} {t : HashTable} (hhb : hb ≤ 13) (h : TableOk t) :
    TableOk (insertPosition span hb t p) := by
  obtain ⟨hwf, hkeys⟩ := h
  refine ⟨htWrite_wf _ _ hwf, fun e he => ?_⟩
  rcases mem_htWrite he with hslot | he
  · rw [hslot]
    exact lzHash_lt hhb
  · exact hkeys e he

theorem searchFrom_table {span : List Byte} {hb mfl : Nat} (hhb : hb ≤ 13) (fuel att fip : Nat) {t : HashTable}
    (h : TableOk t) : TableOk (searchFrom span hb mfl fuel att fip t).2 := by
  induction fuel generalizing att fip t with
  | zero => exact h
  | succ fuel ih =>
    have hins := insertPosition_ok (span := span) (p := fip) hhb h
    simp only [searchFrom]
    split
    · exact h
    · split
      · exact hins
      · exact ih _ _ hins

theorem parseFrom_table {span : List Byte} {hb mfl mlim : Nat} (hhb : hb ≤ 13) (fuel : Nat) (point : ParsePoint)
    (anchor : Nat) {t : HashTable} (h : TableOk t) : TableOk (parseFrom span hb mfl mlim fuel point anchor t).2.2 := by
  induction fuel generalizing point anchor t with
  | zero => cases point <;> exact h
  | succ fuel ih =>
    cases point with
    | search ip =>
      have hsearch := searchFrom_table (span := span) (mfl := mfl) hhb (span.length + 1) searchStart ip h
      simp only [parseFrom]
      split
      · rename_i u hu
        rw [hu] at hsearch
        exact hsearch
      · rename_i ip' ref u hu
        rw [hu] at hsearch
        exact ih _ _ hsearch
    | found ip ref =>
      simp only [parseFrom]
      split
      · exact h
      · exact ih _ _ (insertPosition_ok hhb (insertPosition_ok hhb h))

theorem hashBits_le (n : Nat) : hashBits n ≤ 13 := by
  unfold hashBits Config.hashLogSmall Config.hashLogLarge
  split <;> decide

theorem encodeBlock_table (span : List Byte) {t : HashTable} (h : TableOk t) : TableOk (encodeBlock span t).2 := by
  unfold encodeBlock
  dsimp only
  split
  · exact h
  · exact parseFrom_table (hashBits_le _) _ _ _ (insertPosition_ok (hashBits_le _) ⟨rfl, fun _ h => (nomatch h)⟩)

/-- 43 R165: LZFWD clears HT before it uses it, so the block does not depend on what HT held. -/
theorem encodeBlock_bytes (span : List Byte) (t u : HashTable) : (encodeBlock span t).1 = (encodeBlock span u).1 := by
  unfold encodeBlock
  dsimp only
  split
  · rfl
  · rfl

/-! ### The command (43 R178, R179) -/

/-- What LZFWD leaves once it has read the span: the block at the write cursor, both cursors moved on, HT as the parse left
it. -/
def forwarded (span : List Byte) (s : State) : State :=
  let block := encodeBlock span s.ht
  respond { s with
    ht := block.2
    dst := memWriteBytes s.dst s.dstPos.toNat block.1
    srcPos := BitVec.ofNat 32 (s.srcPos.toNat + span.length)
    dstPos := BitVec.ofNat 32 (s.dstPos.toNat + block.1.length) } .ok (BitVec.ofNat 64 block.1.length)

/-- With a legal span and room LZFWD that ends at all has written the block. -/
theorem execLzfwd_of_legal {v : Word64} {s t : State} (h : execLzfwd v s = .next t) (hspan : spanOk v.toNat s = true)
    (hroom : maxLen v.toNat ≤ destinationRoom s) :
    ∃ span, memReadBytes s.src s.srcPos.toNat v.toNat = some span ∧ t = forwarded span s := by
  simp only [execLzfwd, hspan, if_true, if_neg (Nat.not_lt.mpr hroom)] at h
  split at h
  · cases h
  · rename_i span hread
    cases h
    refine ⟨span, hread, ?_⟩
    unfold forwarded
    rw [length_of_memReadBytes hread]

/-- The block of a span with room for MaxLen of it fits (43 R162). -/
theorem length_encodeBlock_fits {span : List Byte} {s : State} (h : maxLen span.length ≤ destinationRoom s) :
    s.dstPos.toNat + (encodeBlock span s.ht).1.length ≤ s.dstLen.toNat := by
  have hlen := length_encodeBlock_le span s.ht
  have hpos : 16 ≤ maxLen span.length := Nat.le_add_left _ _
  unfold destinationRoom at h
  omega

theorem execLzfwd_cases {v : Word64} {s t : State} (h : execLzfwd v s = .next t) :
    (∃ st, t = respond s st 0) ∨
      ∃ span, s.srcPos.toNat + span.length ≤ s.srcLen.toNat ∧
        s.dstPos.toNat + (encodeBlock span s.ht).1.length ≤ s.dstLen.toNat ∧ t = forwarded span s := by
  by_cases hspan : spanOk v.toNat s = true
  · by_cases hroom : maxLen v.toNat ≤ destinationRoom s
    · obtain ⟨span, hread, ht⟩ := execLzfwd_of_legal h hspan hroom
      simp only [spanOk, Bool.and_eq_true, decide_eq_true_eq] at hspan
      rw [← length_of_memReadBytes hread] at hspan hroom
      exact .inr ⟨span, hspan.2, length_encodeBlock_fits hroom, ht⟩
    · simp only [execLzfwd, hspan, if_true, if_pos (Nat.not_le.mp hroom)] at h
      cases h; exact .inl ⟨_, rfl⟩
  · simp only [execLzfwd, hspan] at h
    cases h; exact .inl ⟨_, rfl⟩

theorem forwarded_dstPos {span : List Byte} {s : State}
    (h : s.dstPos.toNat + (encodeBlock span s.ht).1.length ≤ s.dstLen.toNat) :
    (forwarded span s).dstPos.toNat = s.dstPos.toNat + (encodeBlock span s.ht).1.length := by
  have hlt := s.dstLen.isLt
  exact (BitVec.toNat_ofNat _ _).trans (Nat.mod_eq_of_lt (by omega))

theorem forwarded_srcPos {span : List Byte} {s : State} (h : s.srcPos.toNat + span.length ≤ s.srcLen.toNat) :
    (forwarded span s).srcPos.toNat = s.srcPos.toNat + span.length := by
  have hlt := s.srcLen.isLt
  exact (BitVec.toNat_ofNat _ _).trans (Nat.mod_eq_of_lt (by omega))

/-- Settles O39: both machines write the block of the same span, which does not depend on their hash tables. -/
theorem lzfwdDependsOnTheSpanOnly : Obligations.LzfwdDependsOnTheSpanOnly := by
  intro v s s' t t' hsame hv hspan hspan' hroom hroom' h h'
  have legal {s : State} (hspan : s.srcPos.toNat + v.toNat ≤ s.srcLen.toNat) : spanOk v.toNat s = true := by
    simp only [spanOk, Bool.and_eq_true, decide_eq_true_eq]
    exact ⟨hv, hspan⟩
  obtain ⟨span, hread, rfl⟩ := execLzfwd_of_legal h (legal hspan) hroom
  obtain ⟨span', hread', rfl⟩ := execLzfwd_of_legal h' (legal hspan') hroom'
  obtain rfl : span = span' := Option.some.inj (hread.symm.trans (hsame.trans hread'))
  have hn : span.length = v.toNat := length_of_memReadBytes hread
  have hbytes := encodeBlock_bytes span s'.ht s.ht
  have hpos := forwarded_dstPos (length_encodeBlock_fits (hn ▸ hroom))
  have hpos' := forwarded_dstPos (length_encodeBlock_fits (s := s') (hn ▸ hroom'))
  have hrun : memReadBytes (forwarded span s).dst _ _ = _ := memReadBytes_memWriteBytes s.dst s.dstPos.toNat _
  have hrun' : memReadBytes (forwarded span s').dst _ _ = _ := memReadBytes_memWriteBytes s'.dst s'.dstPos.toNat _
  have hresp' : (forwarded span s').responses =
      s'.responses ++ [⟨.ok, BitVec.ofNat 64 (encodeBlock span s'.ht).1.length⟩] := rfl
  rw [hbytes] at hpos' hrun' hresp'
  exact ⟨_, hpos, hpos', hrun.trans hrun'.symm, rfl, hresp'⟩

end Sys2Proof.Machine
end

section
/-! PROOFS. The memories, the views and the hash table over one step (10 R18, R20, R25, 20 R55). -/

namespace Sys2Proof.Machine

/-! ### The canonical form (log entries 6 and 7) -/

theorem SameLz.canonical {s t : State} (h : SameLz s t) (hs : Canonical s) : Canonical t := by
  obtain ⟨hht, -, -, -, -, hsrc, hdst, -⟩ := h
  unfold Canonical
  rw [hht, hsrc, hdst]
  exact hs

theorem ElementFrame.canonical {s t : State} (h : ElementFrame s t) (hs : Canonical s) : Canonical t := by
  obtain ⟨e, hht, hwf⟩ := h
  obtain ⟨hsrc, hdst, htable⟩ := hs
  have hsrc' : t.src = s.src := by rw [e]
  unfold Canonical
  rw [hht, hsrc']
  exact ⟨hsrc, hwf hdst, htable⟩

theorem forwarded_canonical {s : State} (span : List Byte) (hs : Canonical s) : Canonical (forwarded span s) := by
  obtain ⟨hsrc, hdst, htable⟩ := hs
  exact ⟨hsrc, memWriteBytes_wf _ _ hdst, encodeBlock_table span htable⟩

/-- Every instruction keeps the canonical form, an element of a block from any state. -/
theorem exec_canonical {i : Instr} {s t : State} (hs : Canonical s) (h : exec i s = .next t) : Canonical t := by
  rcases exec_cases h with hw | hr | ⟨v, rfl⟩ | ⟨v, rfl⟩ | ⟨a, v, rfl⟩ | ⟨st, v, rfl⟩ | ⟨-, he⟩
  · obtain ⟨u, st, v, e, hu⟩ := exec_writerCommand hw s
    cases e.symm.trans h
    exact hu.sameLz.canonical hs
  · obtain ⟨u, st, v, e, hu, -⟩ := exec_readerCommand hr s
    cases e.symm.trans h
    exact hu.sameLz.canonical hs
  · rcases execLzfwd_cases h with ⟨st, rfl⟩ | ⟨span, -, -, rfl⟩
    · exact hs
    · exact forwarded_canonical span hs
  · exact (execLzinv_frame h).elementFrame.canonical hs
  · rw [execCrw_frame h]
    exact hs
  · exact hs
  · exact he.canonical hs

/-- Settles O59: every instruction keeps the form, as does a byte the host writes; a reset gives it. -/
theorem stepsKeepTheCanonicalForm : Obligations.StepsKeepTheCanonicalForm := by
  intro s t hs h
  cases step_cases h with
  | element i p he _ => exact exec_canonical (s := { s with srcPos := p }) hs he
  | command i rest _ he => exact exec_canonical (s := { s with inbox := rest }) hs he
  | illegal rest h => subst h; exact hs
  | idle h => subst h; exact hs
  | writeSrc a b rest _ h =>
    obtain ⟨hsrc, hrest⟩ := hs
    subst h; exact ⟨memWrite_wf a b hsrc, hrest⟩
  | writeDst a b rest _ h =>
    obtain ⟨hsrc, hdst, htable⟩ := hs
    subst h; exact ⟨hsrc, memWrite_wf a b hdst, htable⟩
  | attachSource bytes rest _ h => subst h; exact hs
  | reset e d source rest _ h => subst h; exact canonical_resetWith _ source

/-! ### The views (10 R20, R25) -/

/-- What is claimed of a state between commands. -/
abbrev ViewsBetween (s : State) : Prop := Between s ∧ ViewsOk s

theorem SameLz.viewsBetween {s t : State} (h : SameLz s t) (hc : t.cfg = s.cfg) (hs : ViewsBetween s) :
    ViewsBetween t := by
  obtain ⟨-, hsp, hsl, hdp, hdl, hsrc, hdst, hlzi, -⟩ := h
  unfold ViewsBetween Between ViewsOk
  rw [hsp, hsl, hdp, hdl, hsrc, hdst, hlzi, hc]
  exact hs

theorem toNat_ofNat_of_le {v : Nat} {x : Word32} (h : v ≤ x.toNat) : (BitVec.ofNat 32 v).toNat = v := by
  have := x.isLt
  rw [BitVec.toNat_ofNat, Nat.mod_eq_of_lt (by omega)]

theorem toNat_ofNat_of_le_maxSpan {v : Nat} (h : v ≤ Config.maxSpan) : (BitVec.ofNat 32 v).toNat = v := by
  unfold Config.maxSpan at h
  rw [BitVec.toNat_ofNat, Nat.mod_eq_of_lt (by omega)]

/-- A legal write of a control register keeps the cursors in their views and the views in their memories (45 R210). -/
theorem controlWrite_views {i v : Nat} {s u : State} (h : controlWrite i v s = some u) (hs : ViewsOk s) : ViewsOk u := by
  obtain ⟨hsp, hsl, hdp, hdl, hsrc, hdst⟩ := hs
  unfold controlWrite at h
  split at h
  · split at h
    · cases h
    · rename_i hv
      cases h
      exact ⟨by rw [toNat_ofNat_of_le (Nat.le_of_not_gt hv)]; exact Nat.le_of_not_gt hv, hsl, hdp, hdl, hsrc, hdst⟩
  · split at h
    · cases h
    · rename_i hv
      cases h
      simp only [not_or, not_lt, gt_iff_lt] at hv
      have e := toNat_ofNat_of_le_maxSpan (hv.2.trans s.cfg.srcMem_le)
      exact ⟨by rw [e]; exact hv.1, by rw [e]; exact hv.2, hdp, hdl, hsrc, hdst⟩
  · split at h
    · cases h
    · rename_i hv
      cases h
      exact ⟨hsp, hsl, by rw [toNat_ofNat_of_le (Nat.le_of_not_gt hv)]; exact Nat.le_of_not_gt hv, hdl, hsrc, hdst⟩
  · split at h
    · cases h
    · rename_i hv
      cases h
      simp only [not_or, not_lt, gt_iff_lt] at hv
      have e := toNat_ofNat_of_le_maxSpan (hv.2.trans s.cfg.dstMem_le)
      exact ⟨hsp, hsl, by rw [e]; exact hv.1, by rw [e]; exact hv.2, hsrc, hdst⟩
  · cases h

theorem execCrw_views {a : BitVec 8} {v : Word64} {s t : State} (h : execCrw a v s = .next t) (hs : ViewsBetween s) :
    ViewsBetween t := by
  obtain ⟨hb, hs⟩ := hs
  refine ⟨by rw [execCrw_frame h]; exact hb, ?_⟩
  unfold execCrw at h
  split at h
  · cases h; exact hs
  · rename_i u hu
    have hviews : ViewsOk u := controlWrite_views hu hs
    cases h; exact hviews

/-- The block lies in the destination view, so in DST (43 R162). -/
theorem forwarded_views {span : List Byte} {s : State} (hsp : s.srcPos.toNat + span.length ≤ s.srcLen.toNat)
    (hdp : s.dstPos.toNat + (encodeBlock span s.ht).1.length ≤ s.dstLen.toNat) (hs : ViewsBetween s) :
    ViewsBetween (forwarded span s) := by
  obtain ⟨hb, -, hsl, -, hdl, hsrc, hdst⟩ := hs
  refine ⟨hb, by rw [forwarded_srcPos hsp]; exact hsp, hsl, by rw [forwarded_dstPos hdp]; exact hdp, hdl, hsrc,
    fun e he => ?_⟩
  rcases mem_memWriteBytes he with ⟨-, hlt⟩ | he
  · exact hlt.trans_le (hdp.trans hdl)
  · exact hdst e he

/-- LZINV ends between commands, its read cursor in the source view (44 R193, R198). -/
theorem execLzinv_ends {v : Word64} {s t : State} (h : execLzinv v s = .next t) (hb : Between s)
    (hs : s.srcPos.toNat ≤ s.srcLen.toNat) : Between t ∧ t.srcPos.toNat ≤ s.srcLen.toNat := by
  simp only [execLzinv] at h
  split at h
  case isTrue hspan =>
    split at h
    case isTrue =>
      unfold lziFinish at h
      split at h
      · cases h; exact ⟨rfl, hs⟩
      · cases h; exact ⟨rfl, hs⟩
    case isFalse hn =>
      obtain ⟨hok, hph⟩ := lzinv_begins hspan hn
      simp only [spanOk, Bool.and_eq_true, decide_eq_true_eq] at hspan
      rcases lziRun_goes v.toNat hok hph rfl le_rfl with ⟨e, -⟩ | ⟨u, e, -, hidle, -, hend, -⟩
      · cases e.symm.trans h
      · cases e.symm.trans h
        exact ⟨hidle, hend.trans hspan.2⟩
  case isFalse => cases h; exact ⟨hb, hs⟩

theorem execLzinv_views {v : Word64} {s t : State} (h : execLzinv v s = .next t) (hs : ViewsBetween s) :
    ViewsBetween t := by
  obtain ⟨hb, hsp, hsl, hdp, hdl, hsrc, hdst⟩ := hs
  obtain ⟨hidle, hend⟩ := execLzinv_ends h hb hsp
  obtain ⟨e, -, hcursor, -, -, -, hwritten⟩ := execLzinv_frame h
  have hcfg : t.cfg = s.cfg := by rw [e]
  have hsrcLen : t.srcLen = s.srcLen := by rw [e]
  have hdstLen : t.dstLen = s.dstLen := by rw [e]
  have hsrc' : t.src = s.src := by rw [e]
  unfold ViewsBetween ViewsOk
  rw [hcfg, hsrcLen, hdstLen, hsrc']
  refine ⟨hidle, hend, hsl, ?_, hdl, hsrc, fun c hc => ?_⟩
  · rcases hcursor with hcursor | hcursor
    · rw [hcursor]; exact hdp
    · exact hcursor
  · rcases hwritten c hc with hlt | hc
    · exact hlt.trans_le hdl
    · exact hdst c hc

/-- Every command keeps the views and ends between commands. -/
theorem exec_views {i : Instr} {s t : State} (hs : ViewsBetween s) (hi : slotOf i = .command) (h : exec i s = .next t) :
    ViewsBetween t := by
  rcases exec_cases h with hw | hr | ⟨v, rfl⟩ | ⟨v, rfl⟩ | ⟨a, v, rfl⟩ | ⟨st, v, rfl⟩ | ⟨hne, -⟩
  · obtain ⟨u, st, v, e, hu⟩ := exec_writerCommand hw s
    cases e.symm.trans h
    exact hu.sameLz.viewsBetween hu.sameRest.2.1 hs
  · obtain ⟨u, st, v, e, hu, -⟩ := exec_readerCommand hr s
    cases e.symm.trans h
    exact hu.sameLz.viewsBetween hu.sameRest.1 hs
  · rcases execLzfwd_cases h with ⟨st, rfl⟩ | ⟨span, hsp, hdp, rfl⟩
    · exact hs
    · exact forwarded_views hsp hdp hs
  · exact execLzinv_views h hs
  · exact execCrw_views h hs
  · exact hs
  · exact absurd hi hne

theorem memWrite_below {m : Memory} {a n : Nat} {b : Byte} (hm : ∀ e ∈ m, e.1 < n) (ha : a < n) :
    ∀ e ∈ memWrite m a b, e.1 < n := fun e he => by
  rcases mem_storePut he with rfl | he
  · exact ha
  · exact hm e he

/-- Settles O58: every command keeps the views, as does a byte the host writes in its memory; a reset gives them. -/
theorem stepsKeepTheViews : Obligations.StepsKeepTheViews := by
  intro s t hb hv h
  have hs : ViewsBetween s := ⟨hb, hv⟩
  obtain ⟨hsp, hsl, hdp, hdl, hsrc, hdst⟩ := hv
  cases step_cases h with
  | element i p _ hl => exact absurd hb hl
  | command i rest hi he => exact exec_views (s := { s with inbox := rest }) hs hi he
  | illegal rest h => subst h; exact hs
  | idle h => subst h; exact hs
  | writeSrc a b rest ha h => subst h; exact ⟨hb, hsp, hsl, hdp, hdl, memWrite_below hsrc ha, hdst⟩
  | writeDst a b rest ha h => subst h; exact ⟨hb, hsp, hsl, hdp, hdl, hsrc, memWrite_below hdst ha⟩
  | attachSource bytes rest _ h => subst h; exact hs
  | reset e d source rest _ h => subst h; exact ⟨rfl, viewsOk_resetWith _ source⟩

end Sys2Proof.Machine
end

section
/-! PROOFS. 30 R60, R65, 10 R10: a command returns one response, and what it does depends on KZC's state, the parameters and
the environment's answers alone. -/

namespace Sys2Proof.Machine

/-! ### Ending alike -/

/-- The same response returned in states that agree. -/
theorem endsAlike_respond (st : Status) (v : Word64) {s t : State} (h : Alike s t) :
    EndsAlike s t (.next (respond s st v)) (.next (respond t st v)) := ⟨h, [_], rfl, rfl⟩

theorem nextDraw_alike {s t : State} (h : Alike s t) : Alike (nextDraw s) (nextDraw t) :=
  ⟨h.1, h.2.1, by simp only [nextDraw, h.2.2]⟩

/-- The same admission test, and what an admitted command does. -/
theorem admitted_alike {test test' : Option Status} {body : State → Host.Outcome State Fault Refusal} {s t : State}
    (h : Alike s t) (ht : test' = test) (hb : EndsAlike s t (body s) (body t)) :
    EndsAlike s t (admitted test body s) (admitted test' body t) := by
  subst ht
  cases test' with
  | none => exact hb
  | some st => exact endsAlike_respond st 0 h

theorem writerAdmission_alike {s t : State} (h : Alike s t) : writerAdmission t = writerAdmission s := by
  unfold writerAdmission
  rw [h.1]

theorem readerAdmission_alike {s t : State} (h : Alike s t) : readerAdmission t = readerAdmission s := by
  unfold readerAdmission
  rw [h.1]

/-! ### The writer's side -/

theorem putBits_answers_alike (bs : List Bool) (v : Word64) {s t : State} (h : Alike s t) :
    EndsAlike s t (conclude (andThen (putBits bs s) fun _ s => .done v s))
      (conclude (andThen (putBits bs t) fun _ s => .done v s)) :=
  conclude_alike (alike_andThen (putBits_alike bs h) fun _ _ _ => alike_done v)

theorem execWbit_alike (b : Bool) {s t : State} (h : Alike s t) : EndsAlike s t (execWbit b s) (execWbit b t) :=
  admitted_alike h (writerAdmission_alike h)
    (conclude_alike (alike_andThen (putBit_alike b h) fun _ _ _ => alike_done 0))

theorem execWbits_alike (a : BitVec 8) (v : Word64) {s t : State} (h : Alike s t) :
    EndsAlike s t (execWbits a v s) (execWbits a v t) := by
  refine admitted_alike h (writerAdmission_alike h) ?_
  split
  · exact putBits_answers_alike _ _ h
  · exact endsAlike_respond _ 0 h

theorem execWflush_alike {s t : State} (h : Alike s t) : EndsAlike s t (execWflush s) (execWflush t) :=
  admitted_alike h (writerAdmission_alike h)
    (conclude_alike (alike_andThen (flushBuffer_alike h) fun _ _ _ => alike_done 0))

theorem execWclose_alike {s t : State} (h : Alike s t) : EndsAlike s t (execWclose s) (execWclose t) := by
  refine admitted_alike h (by unfold writerFault; rw [h.1]) ?_
  dsimp only
  rw [show t.writer = s.writer by rw [h.1]]
  split
  · exact endsAlike_respond _ 0 h
  · refine conclude_alike (alike_andThen (putBits_alike _ h) fun _ u w g => ?_)
    rw [show w.writer = u.writer by rw [g.1]]
    refine alike_andThen (putBits_alike _ g) fun _ u w g => ?_
    refine alike_andThen (flushBuffer_alike g) fun _ u w g => ?_
    refine alike_andThen (sinkClose_alike g) fun _ u w g => ?_
    exact ⟨rfl, ⟨by rw [g.1], g.2⟩, rfl, rfl⟩

theorem execWcount_alike {s t : State} (h : Alike s t) : EndsAlike s t (execWcount s) (execWcount t) := by
  unfold execWcount
  rw [show t.writer = s.writer by rw [h.1], h.2.2]
  split
  · exact ⟨nextDraw_alike h, [_], rfl, rfl⟩
  · exact endsAlike_respond _ _ h

theorem execEgenc_alike (v : Word64) {s t : State} (h : Alike s t) : EndsAlike s t (execEgenc v s) (execEgenc v t) := by
  refine admitted_alike h (writerAdmission_alike h) ?_
  rw [h.2.1]
  split
  · exact putBits_answers_alike _ _ h
  · exact endsAlike_respond _ 0 h

/-! ### The reader's side -/

theorem execRbit_alike {s t : State} (h : Alike s t) : EndsAlike s t (execRbit s) (execRbit t) :=
  admitted_alike h (readerAdmission_alike h)
    (conclude_alike (alike_andThen (getBit_alike h) fun _ _ _ => alike_done _))

theorem execRbits_alike (a : BitVec 8) {s t : State} (h : Alike s t) : EndsAlike s t (execRbits a s) (execRbits a t) := by
  refine admitted_alike h (readerAdmission_alike h) ?_
  split
  · exact conclude_alike (alike_andThen (getBits_alike _ _ h) fun _ _ _ => alike_done _)
  · exact endsAlike_respond _ 0 h

theorem execRclose_alike {s t : State} (h : Alike s t) : EndsAlike s t (execRclose s) (execRclose t) := by
  refine admitted_alike h (by unfold readerFault; rw [h.1]) ?_
  dsimp only
  rw [show t.reader = s.reader by rw [h.1]]
  split
  · exact endsAlike_respond _ 0 h
  · exact conclude_alike (alike_andThen (sourceClose_alike h) fun _ u w g => ⟨rfl, ⟨by rw [g.1], g.2⟩, rfl, rfl⟩)

theorem execRcount_alike {s t : State} (h : Alike s t) : EndsAlike s t (execRcount s) (execRcount t) := by
  unfold execRcount
  rw [show t.reader = s.reader by rw [h.1], h.2.2]
  split
  · exact ⟨nextDraw_alike h, [_], rfl, rfl⟩
  · exact endsAlike_respond _ _ h

theorem egRange_alike {α : Type} {s t : State} (h : Alike s t) : RunsAlike s t (egRange s : Run α) (egRange t) :=
  ⟨rfl, ⟨by rw [h.1], h.2⟩, rfl, rfl⟩

theorem egPrefix_alike (left n : Nat) {s t : State} (h : Alike s t) :
    RunsAlike s t (egPrefix left n s) (egPrefix left n t) := by
  induction left generalizing n s t with
  | zero => exact egRange_alike h
  | succ left ih =>
    refine alike_andThen (getBit_alike h) fun b u w g => ?_
    cases b with
    | true => exact alike_done n g
    | false => exact ih (n + 1) g

theorem egFetch_alike {s t : State} (h : Alike s t) : RunsAlike s t (egFetch s) (egFetch t) := by
  refine alike_andThen (egPrefix_alike _ 0 h) fun n u w g => ?_
  refine alike_andThen (getBits_alike n 0 g) fun r u w g => ?_
  rw [g.2.1]
  split
  · exact egRange_alike g
  · split
    · exact alike_andThen (getBit_alike g) fun _ _ _ => alike_done _
    · exact alike_done _ g

theorem execEgdec_alike {s t : State} (h : Alike s t) : EndsAlike s t (execEgdec s) (execEgdec t) := by
  rw [execEgdec_eq, execEgdec_eq]
  exact admitted_alike h (readerAdmission_alike h)
    (conclude_alike (alike_andThen (egFetch_alike h) fun _ _ _ => alike_done _))

/-! ### The LZ units and the control registers -/

theorem spanOk_alike (n : Nat) {s t : State} (h : Alike s t) : spanOk n t = spanOk n s := by
  unfold spanOk
  rw [h.1]

theorem destinationRoom_alike {s t : State} (h : Alike s t) : destinationRoom t = destinationRoom s := by
  unfold destinationRoom
  rw [h.1]

theorem execLzfwd_alike (v : Word64) {s t : State} (h : Alike s t) : EndsAlike s t (execLzfwd v s) (execLzfwd v t) := by
  unfold execLzfwd
  dsimp only
  rw [spanOk_alike _ h, destinationRoom_alike h, h.1]
  split
  · split
    · exact endsAlike_respond _ 0 h
    · split
      · rfl
      · exact ⟨⟨rfl, h.2⟩, [_], rfl, rfl⟩
  · exact endsAlike_respond _ 0 h

theorem StepsAlike.ends {s t : State} {o o' : Host.Outcome State Fault Refusal} (h : StepsAlike s t o o') :
    EndsAlike s t o o' := by
  cases o <;> cases o'
  case next.next =>
    obtain ⟨halike, -, hresp⟩ := h
    exact ⟨halike, hresp⟩
  all_goals exact h

/-- LZINV sets its place before it reads it, so where it stood before does not matter. -/
theorem execLzinv_alike (v : Word64) {s t : State} (h : Alike s t) : EndsAlike s t (execLzinv v s) (execLzinv v t) := by
  have hspan := spanOk_alike v.toNat h
  obtain ⟨hk, hc⟩ := h
  unfold execLzinv
  dsimp only
  rw [hspan, hk]
  split
  · split
    · unfold lziFinish
      rw [hk]
      split
      · exact ⟨⟨hk, hc⟩, [_], rfl, rfl⟩
      · exact ⟨⟨rfl, hc⟩, [_], rfl, rfl⟩
    · exact StepsAlike.ends (steps_from (lziRun_alike _ _ _ ⟨rfl, hc⟩ rfl) rfl rfl)
  · exact endsAlike_respond _ 0 ⟨hk, hc⟩

theorem execLzmax_alike (v : Word64) {s t : State} (h : Alike s t) : EndsAlike s t (execLzmax v s) (execLzmax v t) := by
  unfold execLzmax
  split
  · exact endsAlike_respond _ 0 h
  · exact endsAlike_respond _ _ h

/-- A write of a control register is legal or not alike, and leaves states that agree. -/
theorem controlWrite_alike (i v : Nat) {s t : State} (h : Alike s t) :
    (controlWrite i v s = none ∧ controlWrite i v t = none) ∨
      ∃ u w, controlWrite i v s = some u ∧ controlWrite i v t = some w ∧ Alike u w := by
  unfold controlWrite
  rw [h.1, h.2.1]
  split
  case h_5 => exact .inl ⟨rfl, rfl⟩
  all_goals
    split
    · exact .inl ⟨rfl, rfl⟩
    · exact .inr ⟨_, _, rfl, rfl, rfl, rfl, h.2.2⟩

theorem execCrw_alike (a : BitVec 8) (v : Word64) {s t : State} (h : Alike s t) :
    EndsAlike s t (execCrw a v s) (execCrw a v t) := by
  unfold execCrw
  rcases controlWrite_alike a.toNat v.toNat h with ⟨hs, ht⟩ | ⟨u, w, hs, ht, hg⟩
  · rw [hs, ht]
    exact endsAlike_respond _ 0 h
  · rw [hs, ht]
    have hu : u.responses = s.responses := by rw [controlWrite_frame hs]
    have hw : w.responses = t.responses := by rw [controlWrite_frame ht]
    exact ⟨hg, [_], congrArg (· ++ _) hu, congrArg (· ++ _) hw⟩

theorem controlRead_alike (i : Nat) {s t : State} (h : Alike s t) : controlRead i t = controlRead i s := by
  unfold controlRead statusBits configBits
  rw [h.1, h.2.1]

theorem execCrr_alike (a : BitVec 8) {s t : State} (h : Alike s t) : EndsAlike s t (execCrr a s) (execCrr a t) := by
  unfold execCrr
  rw [controlRead_alike _ h]
  split
  · exact endsAlike_respond _ 0 h
  · exact endsAlike_respond _ _ h

/-- Every command ends alike on states that agree. -/
theorem exec_alike {i : Instr} {s t : State} (hi : slotOf i = .command) (h : Alike s t) :
    EndsAlike s t (exec i s) (exec i t) := by
  cases i with
  | wbit b => exact execWbit_alike b h
  | wbits a v => exact execWbits_alike a v h
  | wflush => exact execWflush_alike h
  | wclose => exact execWclose_alike h
  | wcount => exact execWcount_alike h
  | rbit => exact execRbit_alike h
  | rbits a => exact execRbits_alike a h
  | rclose => exact execRclose_alike h
  | rcount => exact execRcount_alike h
  | egenc v => exact execEgenc_alike v h
  | egdec => exact execEgdec_alike h
  | lzfwd v => exact execLzfwd_alike v h
  | lzinv v => exact execLzinv_alike v h
  | lzmax v => exact execLzmax_alike v h
  | crw a v => exact execCrw_alike a v h
  | crr a => exact execCrr_alike a h
  | _ => cases hi

/-! ### One response (30 R65) -/

theorem WriteFrame.responses {s t : State} (h : WriteFrame s t) : t.responses = s.responses := by
  obtain ⟨h, -⟩ := h
  rw [h]

theorem execLzinv_responds {v : Word64} {s t : State} (h : execLzinv v s = .next t) :
    ∃ r, t.responses = s.responses ++ [r] := by
  simp only [execLzinv] at h
  split at h
  case isTrue hspan =>
    split at h
    case isTrue =>
      unfold lziFinish at h
      split at h
      · cases h; exact ⟨_, rfl⟩
      · cases h; exact ⟨_, rfl⟩
    case isFalse hn =>
      obtain ⟨hok, hph⟩ := lzinv_begins hspan hn
      rcases lziRun_goes v.toNat hok hph rfl le_rfl with ⟨e, -⟩ | ⟨u, e, -, -, -, -, -, ⟨-, hr⟩ | hr⟩
      · cases e.symm.trans h
      · cases e.symm.trans h
        exact ⟨_, hr⟩
      · cases e.symm.trans h
        exact ⟨_, hr⟩
  case isFalse => cases h; exact ⟨_, rfl⟩

theorem execCrw_responds {a : BitVec 8} {v : Word64} {s t : State} (h : execCrw a v s = .next t) :
    ∃ r, t.responses = s.responses ++ [r] := by
  unfold execCrw at h
  split at h
  · cases h; exact ⟨_, rfl⟩
  · rename_i u hu
    have hr : u.responses = s.responses := by rw [controlWrite_frame hu]
    cases h; exact ⟨_, congrArg (· ++ _) hr⟩

theorem exec_responds {i : Instr} {s t : State} (hi : slotOf i = .command) (h : exec i s = .next t) :
    ∃ r, t.responses = s.responses ++ [r] := by
  rcases exec_cases h with hw | hr | ⟨v, rfl⟩ | ⟨v, rfl⟩ | ⟨a, v, rfl⟩ | ⟨st, v, rfl⟩ | ⟨hne, -⟩
  · obtain ⟨u, st, v, e, hu⟩ := exec_writerCommand hw s
    cases e.symm.trans h
    exact ⟨_, congrArg (· ++ _) hu.responses⟩
  · obtain ⟨u, st, v, e, hu, -⟩ := exec_readerCommand hr s
    cases e.symm.trans h
    exact ⟨_, congrArg (· ++ _) hu.responses⟩
  · rcases execLzfwd_cases h with ⟨st, rfl⟩ | ⟨span, -, -, rfl⟩
    · exact ⟨_, rfl⟩
    · exact ⟨_, rfl⟩
  · exact execLzinv_responds h
  · exact execCrw_responds h
  · exact ⟨_, rfl⟩
  · exact absurd hi hne

/-- Settles O5: a command adds one response, and ends alike on every state that agrees. -/
theorem everyCommandRespondsOnce : Obligations.EveryCommandRespondsOnce := by
  intro i s t hi h
  obtain ⟨r, hr⟩ := exec_responds hi h
  refine ⟨r, hr, fun s' hk hc he => ?_⟩
  have hends := exec_alike hi (s := s) (t := s') ⟨hk, hc, he⟩
  rw [h] at hends
  cases h' : exec i s' with
  | next t' =>
    rw [h'] at hends
    obtain ⟨⟨hk', hc', he'⟩, l, hl, hl'⟩ := hends
    obtain rfl : [r] = l := List.append_cancel_left (hr.symm.trans hl)
    exact ⟨t', rfl, hk', hc', he', hl'⟩
  | fault r => rw [h'] at hends; exact hends.elim
  | refused r => rw [h'] at hends; exact hends.elim

end Sys2Proof.Machine
end

section
/-! PROOFS. The failures of the sink (40 R109, 60 R222): what a command of the writer's side answers is what its run met. -/

namespace Sys2Proof.Machine

/-! ### What a run of the writer's side has met -/

/-- From `s` to `t` the writer's side has moved in its frame; it answers IO_FAILURE and records W_IOFAULT exactly where it
has met a failing answer. -/
abbrev SinkMet (s : State) (st : Status) (t : State) : Prop :=
  WriteFrame s t ∧
  (st ≠ .ioFailure ∧ t.writer.ioFault = s.writer.ioFault ∧ Answered s t ∨
    st = .ioFailure ∧ t.writer.ioFault = true ∧ Failed s t)

theorem SinkMet.refl (s : State) {st : Status} (h : st ≠ .ioFailure) : SinkMet s st s :=
  ⟨WriteFrame.refl s, .inl ⟨h, rfl, Answered.refl s⟩⟩

theorem SinkMet.trans {s t u : State} {st : Status} (h : SinkMet s .ok t) (h' : SinkMet t st u) : SinkMet s st u := by
  obtain ⟨hf, ⟨-, hio, ha⟩ | ⟨hst, -⟩⟩ := h
  · obtain ⟨hf', hend⟩ := h'
    exact ⟨hf.trans hf', hend.imp (fun ⟨hst, hio', ha'⟩ => ⟨hst, hio'.trans hio, ha.trans ha'⟩)
      fun ⟨hst, hio', hb⟩ => ⟨hst, hio', ha.failed hb⟩⟩
  · cases hst

/-- A run of the writer's side from `s`, with what it met. -/
abbrev SinkRun {α : Type} (s : State) (r : Run α) : Prop :=
  r.Meets (fun _ t => SinkMet s .ok t) fun st t => SinkMet s st t

theorem SinkRun.of_writes {α : Type} {s : State} {r : Run α} (h : Writes s r) : SinkRun s r :=
  h.imp (fun _ _ ⟨hf, hio, _, ha⟩ => ⟨hf, .inl ⟨Status.noConfusion, hio, ha⟩⟩)
    fun _ _ ⟨hst, hf, hio, _, hb⟩ => ⟨hf, .inr ⟨hst, hio, hb⟩⟩

theorem SinkRun.andThen {α β : Type} {s : State} {r : Run α} {f : α → State → Run β} (h : SinkRun s r)
    (hf : ∀ a t, SinkRun t (f a t)) : SinkRun s (andThen r f) :=
  Run.Meets.andThen h fun a t ht => (hf a t).imp (fun _ _ => ht.trans) fun _ _ => ht.trans

theorem sinkRun_done {α : Type} (a : α) (s : State) : SinkRun s (.done a s : Run α) := SinkMet.refl s Status.noConfusion

theorem putBits_sinkRun (bs : List Bool) (v : Word64) (s : State) :
    SinkRun s (andThen (putBits bs s) fun _ t => .done v t) :=
  (SinkRun.of_writes (putBits_writes bs s)).andThen fun _ => sinkRun_done v

/-- The run of WCLOSE on an open writer (40 R107). -/
def closing (s : State) : Run Word64 :=
  andThen (putBits (List.replicate (fillCount s.writer) Config.closePartialFill) s) fun _ s =>
    andThen (putBits (List.replicate (padCount s.writer) true) s) fun _ s =>
      andThen (flushBuffer s) fun _ s =>
        andThen (sinkClose s) fun _ s => .done 0 { s with writer := { s.writer with closed := true } }

theorem execWclose_eq (s : State) :
    execWclose s = admitted (writerFault s) (fun s => if s.writer.closed then returnOk 0 s else conclude (closing s)) s := rfl

theorem closing_sinkRun (s : State) : SinkRun s (closing s) := by
  refine .andThen (.of_writes (putBits_writes _ s)) fun _ t => .andThen (.of_writes (putBits_writes _ t)) fun _ t => ?_
  refine .andThen (.of_writes (flushBuffer_writes t)) fun _ t => .andThen (.of_writes (sinkClose_writes t)) fun _ t => ?_
  exact ⟨⟨rfl, List.prefix_rfl⟩, .inl ⟨Status.noConfusion, rfl, Answered.refl t⟩⟩

/-! ### The commands on a writer without fault -/

/-- A command of the writer's side ends with a response that says what its run met. -/
def SinkAnswers (s : State) (o : Host.Outcome State Fault Refusal) : Prop :=
  ∃ u st v, o = .next (respond u st v) ∧ SinkMet s st u ∧ (st ≠ .ok → v = 0)

theorem sinkAnswers_raiseStatus {s : State} {st : Status} (h : st ≠ .ioFailure) : SinkAnswers s (raiseStatus st s) :=
  ⟨s, st, 0, rfl, SinkMet.refl s h, fun _ => rfl⟩

theorem sinkAnswers_returnOk (v : Word64) (s : State) : SinkAnswers s (returnOk v s) :=
  ⟨s, .ok, v, rfl, SinkMet.refl s Status.noConfusion, fun h => absurd rfl h⟩

theorem SinkRun.answers {s : State} {r : Run Word64} (h : SinkRun s r) : SinkAnswers s (conclude r) := by
  rcases conclude_of_meets h with ⟨v, t, e, ht⟩ | ⟨st, t, e, ht⟩
  · exact ⟨t, .ok, v, e, ht, fun h => absurd rfl h⟩
  · exact ⟨t, st, 0, e, ht, fun _ => rfl⟩

theorem sinkAnswers_admitted {s : State} {test : Option Status} {body : State → Host.Outcome State Fault Refusal}
    (ht : test ≠ some .ioFailure) (hb : SinkAnswers s (body s)) : SinkAnswers s (admitted test body s) := by
  cases test with
  | none => exact hb
  | some st => exact sinkAnswers_raiseStatus fun h => ht (congrArg some h)

theorem writerFault_of_unfaulted {s : State} (hio : s.writer.ioFault = false) : writerFault s = none :=
  if_neg (Bool.eq_false_iff.mp hio)

theorem writerAdmission_ne_ioFailure {s : State} (hio : s.writer.ioFault = false) :
    writerAdmission s ≠ some .ioFailure := by
  simp [writerAdmission, hio, ite_eq_iff]

theorem writerAdmission_open {s : State} (hio : s.writer.ioFault = false) (hcl : s.writer.closed = false) :
    writerAdmission s = none := by
  simp [writerAdmission, hio, hcl]

/-- A write command refused on a writer without fault has met nothing; else it answers what its body does. -/
theorem sinkAnswers_write {s : State} {body : State → Host.Outcome State Fault Refusal} (hio : s.writer.ioFault = false)
    (hb : SinkAnswers s (body s)) : SinkAnswers s (admitted (writerAdmission s) body s) :=
  sinkAnswers_admitted (writerAdmission_ne_ioFailure hio) hb

theorem execWbit_sink (b : Bool) {s : State} (hio : s.writer.ioFault = false) : SinkAnswers s (execWbit b s) :=
  sinkAnswers_write hio ((SinkRun.of_writes (putBit_writes b s)).andThen fun _ => sinkRun_done 0).answers

theorem execWbits_sink (a : BitVec 8) (v : Word64) {s : State} (hio : s.writer.ioFault = false) :
    SinkAnswers s (execWbits a v s) := by
  refine sinkAnswers_write hio ?_
  split
  · exact (putBits_sinkRun _ _ s).answers
  · exact sinkAnswers_raiseStatus Status.noConfusion

theorem execWflush_sink {s : State} (hio : s.writer.ioFault = false) : SinkAnswers s (execWflush s) :=
  sinkAnswers_write hio ((SinkRun.of_writes (flushBuffer_writes s)).andThen fun _ => sinkRun_done 0).answers

theorem execWclose_sink {s : State} (hio : s.writer.ioFault = false) : SinkAnswers s (execWclose s) := by
  rw [execWclose_eq, writerFault_of_unfaulted hio]
  refine sinkAnswers_admitted (Option.some_ne_none _).symm ?_
  split
  · exact sinkAnswers_returnOk 0 s
  · exact (closing_sinkRun s).answers

theorem execWcount_sink {s : State} (hio : s.writer.ioFault = false) : SinkAnswers s (execWcount s) := by
  rw [execWcount, if_neg (Bool.eq_false_iff.mp hio)]
  exact sinkAnswers_returnOk _ s

theorem execEgenc_sink (v : Word64) {s : State} (hio : s.writer.ioFault = false) : SinkAnswers s (execEgenc v s) := by
  refine sinkAnswers_write hio ?_
  split
  · exact (putBits_sinkRun _ _ s).answers
  · exact sinkAnswers_raiseStatus Status.noConfusion

/-- What each command of the writer's side answers. -/
theorem exec_writerCommand_sink {i : Instr} (h : writerCommand i = true) {s : State} (hio : s.writer.ioFault = false) :
    SinkAnswers s (exec i s) := by
  cases i with
  | wbit b => exact execWbit_sink b hio
  | wbits a v => exact execWbits_sink a v hio
  | wflush => exact execWflush_sink hio
  | wclose => exact execWclose_sink hio
  | wcount => exact execWcount_sink hio
  | egenc v => exact execEgenc_sink v hio
  | _ => cases h

/-! ### What the answer says -/

/-- A writer without fault is faulted exactly by an IO_FAILURE. -/
theorem SinkMet.ioFault_iff {s u : State} {st : Status} (h : SinkMet s st u) (hio : s.writer.ioFault = false) :
    u.writer.ioFault = true ↔ st = .ioFailure := by
  obtain ⟨-, ⟨hst, hu, -⟩ | ⟨hst, hu, -⟩⟩ := h
  · exact iff_of_false (by rw [hu, hio]; exact Bool.false_ne_true) hst
  · exact iff_of_true hu hst

/-- A command that has met a failing answer ends as 40 R109 says. -/
theorem SinkMet.writeFailed {s u : State} (h : SinkMet s .ioFailure u) : WriteFailed s (respond u .ioFailure 0) := by
  obtain ⟨hf, ⟨hst, -⟩ | ⟨-, hio, -⟩⟩ := h
  · exact absurd rfl hst
  · exact ⟨hio, congrArg (· ++ _) hf.responses, hf.sameReader, hf.sameLz⟩

/-- A failing answer among those taken is the last of them, and the command has ended with IO_FAILURE. -/
theorem SinkMet.fail_taken {s u : State} {st : Status} {used : List Config.SinkAnswer} (h : SinkMet s st u)
    (hused : s.env.sinkScript = used ++ u.env.sinkScript) {k : Nat} (hk : .fail k ∈ used) :
    st = .ioFailure ∧ ∃ n k, used = List.replicate n .ok ++ [.fail k] := by
  have nofail {n : Nat} (he : used = List.replicate n .ok) : False := by
    subst he
    exact Config.SinkAnswer.noConfusion (List.eq_of_mem_replicate hk)
  obtain ⟨-, ⟨-, -, n, hs⟩ | ⟨hst, -, n, ⟨j, hs⟩ | ⟨hs, hnil⟩⟩⟩ := h
  · exact (nofail (List.append_cancel_right (hused.symm.trans hs))).elim
  · refine ⟨hst, n, j, List.append_cancel_right (bs := u.env.sinkScript) ?_⟩
    rw [← hused, hs, List.append_assoc]
    rfl
  · exact (nofail (by rw [← hs, hused, hnil, List.append_nil])).elim

/-- The response of a failure is that of no other ending. -/
theorem responses_eq_ioFailure_iff {s u : State} {st : Status} {v : Word64} (hr : u.responses = s.responses)
    (hv : st ≠ .ok → v = 0) :
    (respond u st v).responses = s.responses ++ [{ status := .ioFailure, val := 0 }] ↔ st = .ioFailure := by
  rw [respond_responses, hr, List.append_cancel_left_eq]
  constructor
  · rintro ⟨⟩
    rfl
  · rintro rfl
    rw [hv Status.noConfusion]

/-! ### Where each command meets the failure -/

theorem writeFailed_of_raised {α : Type} {s u : State} {r : Run α} (hr : SinkRun s r) (h : r = .raised .ioFailure u) :
    WriteFailed s (respond u .ioFailure 0) := by
  subst h
  exact SinkMet.writeFailed hr

/-- A push that fails first: the sink keeps a prefix of the bytes (20 R46). -/
theorem flushBuffer_push_fails {s : State} {k : Nat} {rest : List Config.SinkAnswer} (hp : 0 < s.writer.pos)
    (h : s.env.sinkScript = .fail k :: rest) :
    ∃ u, flushBuffer s = .raised .ioFailure u ∧ u.sink.bytes = s.sink.bytes ++ (s.writer.buf.take s.writer.pos).take k := by
  simp only [flushBuffer, gt_iff_lt, hp, if_true, sinkPush, drawSink_script s h]
  exact ⟨_, rfl, rfl⟩

/-- A flush that fails, after the push where there is one. -/
theorem flushBuffer_flush_fails {s : State} {k : Nat} {rest : List Config.SinkAnswer}
    (h : s.env.sinkScript = (if 0 < s.writer.pos then [.ok] else []) ++ .fail k :: rest) :
    ∃ u, flushBuffer s = .raised .ioFailure u ∧ u.sink.bytes = s.sink.bytes ++ s.writer.buf.take s.writer.pos := by
  by_cases hp : 0 < s.writer.pos
  · rw [if_pos hp, List.singleton_append] at h
    simp only [flushBuffer, gt_iff_lt, hp, if_true, sinkPush, drawSink, h, andThen_done, sinkFlush]
    exact ⟨_, rfl, rfl⟩
  · rw [if_neg hp, List.nil_append] at h
    simp only [flushBuffer, gt_iff_lt, hp, if_false, andThen_done, sinkFlush, drawSink, h]
    refine ⟨_, rfl, ?_⟩
    rw [Nat.eq_zero_of_not_pos hp]
    exact (List.append_nil _).symm

/-- FlushBuffer asks the sink at least once. -/
theorem flushBuffer_fails_first {s : State} {k : Nat} {rest : List Config.SinkAnswer}
    (h : s.env.sinkScript = .fail k :: rest) : ∃ u, flushBuffer s = .raised .ioFailure u := by
  by_cases hp : 0 < s.writer.pos
  · exact flushBuffer_fails ⟨k, rest, .inl h⟩ hp
  · obtain ⟨u, hu, -⟩ := flushBuffer_flush_fails (s := s) (by rw [if_neg hp]; exact h)
    exact ⟨u, hu⟩

/-- A failure to come is met by this operation of the writer's side or left to what follows it. -/
theorem andThen_fails {α β : Type} {s : State} {r : Run α} {f : α → State → Run β} {k : Nat}
    {rest : List Config.SinkAnswer} (hr : Writes s r) (h : s.env.sinkScript = .fail k :: rest)
    (hf : ∀ a t, t.env.sinkScript = .fail k :: rest → ∃ u, f a t = .raised .ioFailure u) :
    ∃ u, andThen r f = .raised .ioFailure u := by
  cases r with
  | done a t =>
    obtain ⟨-, -, -, n, hn⟩ := hr
    refine hf a t ?_
    cases n with
    | zero => exact hn.symm.trans h
    | succ n => rw [h] at hn; cases hn
  | raised st t =>
    obtain ⟨rfl, -⟩ := hr
    exact ⟨t, rfl⟩

theorem closing_fails {s : State} {k : Nat} {rest : List Config.SinkAnswer} (h : s.env.sinkScript = .fail k :: rest) :
    ∃ u, closing s = .raised .ioFailure u := by
  refine andThen_fails (putBits_writes _ s) h fun _ t h => andThen_fails (putBits_writes _ t) h fun _ t h => ?_
  obtain ⟨u, hu⟩ := flushBuffer_fails_first h
  exact ⟨u, by rw [hu]; rfl⟩

/-- A writer with nothing to write asks for a flush, then for the close. -/
theorem closing_close_fails {s : State} {k : Nat} {rest : List Config.SinkAnswer}
    (h : s.env.sinkScript = .ok :: .fail k :: rest) (hp : s.writer.pos = 0) (hb : s.writer.bit = 7)
    (hc : s.writer.count.toNat % 64 = 0) :
    ∃ u, closing s = .raised .ioFailure u ∧ u.sink.bytes = s.sink.bytes := by
  have hfill : fillCount s.writer = 0 := if_pos hb
  have hpad : padCount s.writer = 0 := by simp only [padCount, Config.padBits, hc]
  simp only [closing, hfill, hpad, List.replicate_zero, putBits, andThen_done, flushBuffer, gt_iff_lt, hp, Nat.lt_irrefl,
    if_false, sinkFlush, drawSink, h, sinkClose]
  exact ⟨_, rfl, rfl⟩

theorem exec_wflush_fails {s u : State} (hio : s.writer.ioFault = false) (hcl : s.writer.closed = false)
    (hu : flushBuffer s = .raised .ioFailure u) :
    exec .wflush s = .next (respond u .ioFailure 0) ∧ WriteFailed s (respond u .ioFailure 0) := by
  refine ⟨?_, writeFailed_of_raised (.of_writes (flushBuffer_writes s)) hu⟩
  simp only [exec, execWflush, writerAdmission_open hio hcl, admitted, hu, andThen_raised, conclude_raised]

theorem exec_wclose_fails {s u : State} (hio : s.writer.ioFault = false) (hcl : s.writer.closed = false)
    (hu : closing s = .raised .ioFailure u) :
    exec .wclose s = .next (respond u .ioFailure 0) ∧ WriteFailed s (respond u .ioFailure 0) := by
  refine ⟨?_, writeFailed_of_raised (closing_sinkRun s) hu⟩
  simp only [exec, execWclose_eq, writerFault_of_unfaulted hio, admitted, hcl, Bool.false_eq_true, if_false, hu,
    conclude_raised]

/-- A write command whose bits fill the buffer. -/
theorem exec_bits_fails {i : Instr} {bs : List Bool} {v : Word64} {s : State} (ho : WriterOpen s) (h : failsSoon s)
    (hb : bitsToFill s ≤ bs.length) (he : exec i s = conclude (andThen (putBits bs s) fun _ t => .done v t)) :
    ∃ t, exec i s = .next t ∧ WriteFailed s t := by
  obtain ⟨u, hu⟩ := putBits_fails bs ho h hb
  exact ⟨respond u .ioFailure 0, by rw [he, hu]; rfl, writeFailed_of_raised (.of_writes (putBits_writes bs s)) hu⟩

theorem putBits_singleton (b : Bool) (s : State) : putBits [b] s = putBit b s := by
  unfold putBits
  cases putBit b s <;> rfl

theorem exec_wbit_fails {b : Bool} {s : State} (hio : s.writer.ioFault = false) (ho : WriterOpen s) (h : failsSoon s)
    (hb : bitsToFill s ≤ 1) : ∃ t, exec (.wbit b) s = .next t ∧ WriteFailed s t := by
  refine exec_bits_fails (bs := [b]) (v := 0) ho h hb ?_
  simp only [exec, execWbit, writerAdmission_open hio ho.2, admitted, putBits_singleton]

theorem exec_wbits_fails {a : BitVec 8} {v : Word64} {s : State} (hio : s.writer.ioFault = false) (ho : WriterOpen s)
    (h : failsSoon s) (ha : lengthOk a = true) (hb : bitsToFill s ≤ a.toNat) :
    ∃ t, exec (.wbits a v) s = .next t ∧ WriteFailed s t := by
  refine exec_bits_fails (bs := bitsOf a.toNat v.toNat) (v := a.setWidth 64) ho h (by rwa [length_bitsOf]) ?_
  simp only [exec, execWbits, writerAdmission_open hio ho.2, admitted, ha, if_true]

theorem exec_egenc_fails {v : Word64} {s : State} (hio : s.writer.ioFault = false) (ho : WriterOpen s) (h : failsSoon s)
    (hv : symbolOk s.cfg.egeSigned v = true) (hb : bitsToFill s ≤ (symbolBits s.cfg.egeSigned v).length) :
    ∃ t, exec (.egenc v) s = .next t ∧ WriteFailed s t := by
  refine exec_bits_fails (bs := symbolBits s.cfg.egeSigned v) (v := 0) ho h hb ?_
  simp only [exec, execEgenc, writerAdmission_open hio ho.2, admitted, hv, if_true]

/-- Settles O18: what a writer's command meets is what it answers; each command asks the sink at its own request. -/
theorem sinkFailureIsRecorded : Obligations.SinkFailureIsRecorded := by
  refine ⟨fun i s t hi hio he => ?_, fun i s t used hi hio he hused ⟨k, hk⟩ => ?_, fun s k rest hio hcl => ?_⟩
  · obtain ⟨u, st, v, e, hm, hv⟩ := exec_writerCommand_sink hi hio
    cases e.symm.trans he
    have hf : WriteFrame s u := hm.1
    exact ⟨(hm.ioFault_iff hio).trans (responses_eq_ioFailure_iff hf.responses hv).symm, hf.2⟩
  · obtain ⟨u, st, v, e, hm, hv⟩ := exec_writerCommand_sink hi hio
    cases e.symm.trans he
    obtain ⟨rfl, hlast⟩ := hm.fail_taken hused hk
    rw [hv Status.noConfusion]
    exact ⟨hm.writeFailed, hlast⟩
  · refine ⟨fun hp h => ?_, fun h => ?_, fun h hok => ?_, fun h => ?_, fun h hp hb hc => ?_⟩
    · obtain ⟨u, hu, hbytes⟩ := flushBuffer_push_fails hp h
      obtain ⟨he, hfail⟩ := exec_wflush_fails hio hcl hu
      exact ⟨_, he, hfail, hbytes⟩
    · obtain ⟨u, hu, hbytes⟩ := flushBuffer_flush_fails h
      obtain ⟨he, hfail⟩ := exec_wflush_fails hio hcl hu
      exact ⟨_, he, hfail, hbytes⟩
    · have hsoon : failsSoon s := ⟨k, rest, h⟩
      refine ⟨fun b hb => exec_wbit_fails hio ⟨hok, hcl⟩ hsoon hb, fun a v ha hpos hb => ?_,
        fun v hv hb => exec_egenc_fails hio ⟨hok, hcl⟩ hsoon hv hb⟩
      have hlen : lengthOk a = true := by
        simp only [lengthOk, Bool.and_eq_true, decide_eq_true_eq]
        exact ⟨hpos, ha⟩
      exact exec_wbits_fails hio ⟨hok, hcl⟩ hsoon hlen hb
    · obtain ⟨u, hu⟩ := closing_fails h
      exact ⟨_, exec_wclose_fails hio hcl hu⟩
    · obtain ⟨u, hu, hbytes⟩ := closing_close_fails h hp hb hc
      obtain ⟨he, hfail⟩ := exec_wclose_fails hio hcl hu
      exact ⟨_, he, hfail, hbytes⟩

end Sys2Proof.Machine
end

section
/-! PROOFS. The LZ commands at bytes nothing has written (20 R57, 60 R229), and what LZINV leaves alone (44 R199). -/

namespace Sys2Proof.Machine

theorem spanOk_of_le {n : Nat} {s : State} (hn : n ≤ 2 ^ 31 - 1) (hspan : s.srcPos.toNat + n ≤ s.srcLen.toNat) :
    spanOk n s = true := by
  simp only [spanOk, Bool.and_eq_true, decide_eq_true_eq]
  exact ⟨hn, hspan⟩

/-- With a legal span and room LZFWD stops exactly where the span cannot be read (43 R178, log entry 18). -/
theorem execLzfwd_uninit_iff {v : Word64} {s : State} (hspan : spanOk v.toNat s = true)
    (hroom : maxLen v.toNat ≤ destinationRoom s) :
    execLzfwd v s = .fault .uninit ↔ memReadBytes s.src s.srcPos.toNat v.toNat = none := by
  simp only [execLzfwd, hspan, if_true, if_neg (Nat.not_lt.mpr hroom)]
  cases memReadBytes s.src s.srcPos.toNat v.toNat with
  | none => exact iff_of_true rfl rfl
  | some span => exact iff_of_false (fun h => nomatch h) (fun h => nomatch h)

/-- An element is not fetched if its first byte is unwritten, or the second byte of a distance. -/
theorem lziFetch_eq_none {phase : LziPhase} {s : State} (h : memRead s.src s.srcPos.toNat = none ∨
    (∃ mat, phase = .dist mat) ∧ memRead s.src (s.srcPos + 1).toNat = none) : lziFetch phase s = none := by
  cases hb : memRead s.src s.srcPos.toNat with
  | none => simp only [lziFetch, lziByte, hb, Option.map_none]
  | some b =>
    rcases h with h | ⟨⟨mat, rfl⟩, h⟩
    · exact absurd (hb.symm.trans h) (Option.some_ne_none b)
    · simp only [lziFetch, lziByte, hb, h, Option.map_some, Option.map_none]

/-- LZINV of a span whose first byte is unwritten stops at its first token. -/
theorem execLzinv_unwritten_first {v : Word64} {s : State} (hspan : spanOk v.toNat s = true) (hv : 1 ≤ v.toNat)
    (h : memRead s.src s.srcPos.toNat = none) : execLzinv v s = .fault .uninit := by
  obtain ⟨n, hn⟩ : ∃ n, v.toNat = n + 1 := ⟨v.toNat - 1, by omega⟩
  have hfetch := lziFetch_eq_none (phase := .token)
    (s := { s with lzi := .active (s.srcPos.toNat + (n + 1)) s.dstPos.toNat .token }) (.inl h)
  rw [hn] at hspan
  simp only [execLzinv, hn, hspan, if_true, Nat.add_one_ne_zero, if_false, lziRun, lziStep, hfetch]

/-- LZINV of a legal span stops at an unwritten byte of it, or ends with every byte it took written (44 R197). -/
theorem execLzinv_reads {v : Word64} {s : State} (hspan : spanOk v.toNat s = true) :
    (execLzinv v s = .fault .uninit ∧ ∃ i < v.toNat, memRead s.src (s.srcPos.toNat + i) = none) ∨
      ∃ t, execLzinv v s = .next t ∧
        ∀ i < t.srcPos.toNat - s.srcPos.toNat, memRead s.src (s.srcPos.toNat + i) ≠ none := by
  by_cases hn : v.toNat = 0
  · obtain ⟨t, e, -, ht, -⟩ := lziFinish_goes s.srcPos.toNat s.dstPos.toNat s
    refine .inr ⟨t, ?_, fun i hi => absurd hi (by rw [ht, Nat.sub_self]; exact Nat.not_lt_zero i)⟩
    simpa only [execLzinv, if_pos hspan, if_pos hn] using e
  · obtain ⟨hok, hph⟩ := lzinv_begins hspan hn
    have hrun : execLzinv v s = lziRun v.toNat
        { s with lzi := .active (s.srcPos.toNat + v.toNat) s.dstPos.toNat .token } := by
      simp only [execLzinv, if_pos hspan, if_neg hn]
    rw [hrun]
    rcases lziRun_goes v.toNat hok hph rfl le_rfl with ⟨e, a, hle, hlt, ha⟩ | ⟨t, e, -, -, -, -, hread, -⟩
    · obtain ⟨i, rfl⟩ := Nat.exists_eq_add_of_le hle
      exact .inl ⟨e, i, Nat.lt_of_add_lt_add_left hlt, ha⟩
    · exact .inr ⟨t, e, fun i hi => hread _ (Nat.le_add_right _ _) (Nat.add_lt_of_lt_sub' hi)⟩

/-- Inside LZINV an element that cannot be fetched stops the machine. -/
theorem step_unfetched {sEnd d0 : Nat} {phase : LziPhase} {s : State} (hl : s.lzi = .active sEnd d0 phase)
    (h : lziFetch phase s = none) : step s = .fault .uninit := by
  simp only [step, hl, h]

/-- Settles O40: LZFWD reads its whole span at once, LZINV byte by byte. -/
theorem lzCommandsFaultOnUnwrittenBytes : Obligations.LzCommandsFaultOnUnwrittenBytes := by
  refine ⟨fun v s hv hspan hroom => ?_, fun v s hv hspan => ?_, fun sEnd d0 phase s hl h => ?_⟩
  · exact (execLzfwd_uninit_iff (spanOk_of_le hv hspan) hroom).trans (memReadBytes_eq_none _ _ _)
  · have hok := spanOk_of_le hv hspan
    refine ⟨fun hpos => execLzinv_unwritten_first hok hpos, fun hfault => ?_, fun t hnext => ?_⟩
    · rcases execLzinv_reads hok with ⟨-, hun⟩ | ⟨t, e, -⟩
      · exact hun
      · cases e.symm.trans hfault
    · rcases execLzinv_reads hok with ⟨e, -⟩ | ⟨u, e, hread⟩
      · cases e.symm.trans hnext
      · cases e.symm.trans hnext
        exact hread
  · exact step_unfetched hl (lziFetch_eq_none h)

/-- Settles O44: LZINV's own frame, read off part by part. -/
theorem lzinvChangesOnlyItsOutput : Obligations.LzinvChangesOnlyItsOutput := by
  intro v s t h
  have hframe := execLzinv_frame h
  obtain ⟨hstreams, hcfg, hinbox⟩ := hframe.lzFrame.sameStreams
  obtain ⟨e, -, -, hdst, -⟩ := hframe
  have hsrc : t.src = s.src := by rw [e]
  exact ⟨hdst, fun a => congrArg (memRead · a) hsrc, by rw [e], by rw [e], by rw [e], hcfg, hinbox, hstreams⟩

end Sys2Proof.Machine
end

section
/-! PROOFS. The decoder reads every encoding back (30 R61 to R83). -/

namespace Sys2Proof

/-! ### Bits as numbers (30 R70) -/

theorem foldl_bitsOf (n v x : Nat) :
    (bitsOf n v).foldl (fun x b => 2 * x + b.toNat) x = x * 2 ^ n + v % 2 ^ n := by
  induction n generalizing x with
  | zero => simp [bitsOf, Nat.mod_one]
  | succ n ih =>
    rw [bitsOf, List.foldl_cons, ih, Nat.mod_pow_succ, ← Nat.toNat_testBit, Nat.pow_succ]
    ring

theorem ofBits_bitsOf (n v : Nat) : ofBits (bitsOf n v) = v % 2 ^ n := by
  rw [ofBits, foldl_bitsOf, Nat.zero_mul, Nat.zero_add]

/-- A bit sequence of `n` bits in front is taken off whole. -/
theorem takeBits_append {n : Nat} {bits : List Bool} (h : bits.length = n) (rest : List Bool) :
    takeBits n (bits ++ rest) = .ok (ofBits bits, rest) := by
  have hlen : ¬ (bits ++ rest).length < n := by rw [List.length_append]; omega
  rw [takeBits, if_neg hlen, List.take_left' h, List.drop_left' h]

/-- The bits of a number, taken off the front of a bit sequence, are that number again. -/
theorem takeBits_bitsOf {n v : Nat} (h : v < 2 ^ n) (rest : List Bool) :
    takeBits n (bitsOf n v ++ rest) = .ok (v, rest) := by
  rw [takeBits_append (length_bitsOf n v), ofBits_bitsOf, Nat.mod_eq_of_lt h]

theorem takeBits_toNat {n : Nat} (x : BitVec n) (rest : List Bool) :
    takeBits n (bitsOf n x.toNat ++ rest) = .ok (x.toNat, rest) := takeBits_bitsOf x.isLt rest

/-! ### Command words (30 R61, R62) -/

@[simp] theorem opField_commandWord (op a : BitVec 8) (v : Word64) : opField (commandWord op a v) = op := by
  unfold opField commandWord
  rw [BitVec.extractLsb'_append_eq_of_le (by decide)]
  exact BitVec.extractLsb'_append_eq_left

@[simp] theorem aField_commandWord (op a : BitVec 8) (v : Word64) : aField (commandWord op a v) = a := by
  unfold aField commandWord
  rw [BitVec.extractLsb'_append_eq_of_le (by decide)]
  exact BitVec.extractLsb'_append_eq_right

@[simp] theorem vField_commandWord (op a : BitVec 8) (v : Word64) : vField (commandWord op a v) = v :=
  BitVec.extractLsb'_append_eq_right

theorem decode_commandBits {op a : BitVec 8} {v : Word64} {i : Instr} (h : decodeCommand (commandWord op a v) = .ok i)
    (rest : List Bool) : decode .command (commandBits op a v ++ rest) = .ok (i, rest) := by
  simp only [decode, commandBits, takeBits_toNat, BitVec.ofNat_toNat, BitVec.setWidth_eq, h]
  rfl

/-! ### The bytes of an LZ77 block (30 R75 to R79) -/

@[simp] theorem decodeToken_tokenByte (lit mat : BitVec 4) : decodeToken (tokenByte lit mat) = .lzToken lit mat :=
  congrArg₂ Instr.lzToken BitVec.extractLsb'_append_eq_left BitVec.extractLsb'_append_eq_right

@[simp] theorem decodeDist_distBytes (d : BitVec 16) :
    decodeDist (d.extractLsb' 0 8) (d.extractLsb' 8 8) = .lzDist16 d :=
  congrArg Instr.lzDist16 BitVec.extractLsb'_append_extractLsb'

theorem takeBits_byte (b : Byte) (rest : List Bool) :
    takeBits 8 (bitsOf 8 b.toNat ++ rest) = .ok (b.toNat, rest) := takeBits_toNat b rest

/-- Two bytes in a row are one number, the first byte its high part (30 R70). -/
theorem takeBits_two_bytes (a b : Byte) (rest : List Bool) :
    takeBits 16 (bitsOf 8 a.toNat ++ bitsOf 8 b.toNat ++ rest) = .ok (a.toNat * 256 + b.toNat, rest) := by
  have hbits : ofBits (bitsOf 8 a.toNat ++ bitsOf 8 b.toNat) = a.toNat * 256 + b.toNat := by
    have ha := ofBits_bitsOf 8 a.toNat
    rw [ofBits] at ha
    rw [ofBits, List.foldl_append, ha, foldl_bitsOf, Nat.mod_eq_of_lt a.isLt, Nat.mod_eq_of_lt b.isLt]
    rfl
  rw [takeBits_append (by simp), hbits]

theorem decode_lzDist (d : BitVec 16) (rest : List Bool) :
    decode .lzDist (encode (.lzDist16 d) ++ rest) = .ok (.lzDist16 d, rest) := by
  have henc : encode (.lzDist16 d) = bitsOf 8 (d.extractLsb' 0 8).toNat ++ bitsOf 8 (d.extractLsb' 8 8).toNat := by
    simp [encode, distBytes]
  have hlo (a b : Byte) : BitVec.ofNat 8 ((a.toNat * 256 + b.toNat) / 256) = a := by
    have ha := a.isLt
    have hb := b.isLt
    exact BitVec.eq_of_toNat_eq (by rw [BitVec.toNat_ofNat]; omega)
  have hhi (a b : Byte) : BitVec.ofNat 8 (a.toNat * 256 + b.toNat) = b := by
    have hb := b.isLt
    exact BitVec.eq_of_toNat_eq (by rw [BitVec.toNat_ofNat]; omega)
  rw [henc, decode, takeBits_two_bytes]
  simp only [hlo, hhi, decodeDist_distBytes]

/-! ### Exp-Golomb codes (30 R72, R73) -/

/-- Up to eight zeros before the first one are counted (42 R143). -/
theorem egZeros_replicate {k n : Nat} (h : n + k < Config.egZeroLimit) (rest : List Bool) :
    egZeros (List.replicate k false ++ true :: rest) n = .ok (n + k, rest) := by
  induction k generalizing n with
  | zero => rfl
  | succ k ih =>
    rw [List.replicate_succ, List.cons_append, egZeros, if_neg (by omega), ih (by omega)]
    congr 2
    omega

/-- A code in range is read back with its count of zeros, remainder and sign bit (30 R72). -/
theorem decodeEg_egCodeBits {signed neg : Bool} {n r : Nat} (hr : r < 2 ^ n) (hmag : 2 ^ n - 1 + r ≤ Config.egMaxMag)
    (hneg : neg = true → (signed && n != 0) = true) (rest : List Bool) :
    decodeEg signed (egCodeBits signed n r neg ++ rest) = .ok (egInstr signed n r neg, rest) := by
  have hn : n < Config.egZeroLimit := by
    by_contra hge
    have := Nat.pow_le_pow_right (n := 2) (by decide) (Nat.not_lt.mp hge)
    simp only [Config.egZeroLimit, Config.egMaxMag] at this hmag
    omega
  have hcode : egCodeBits signed n r neg ++ rest =
      List.replicate n false ++ true :: (bitsOf n r ++ ((if signed && n != 0 then [neg] else []) ++ rest)) := by
    simp [egCodeBits]
  rw [hcode, decodeEg, egZeros_replicate (by omega)]
  simp only [Nat.zero_add, takeBits_bitsOf hr, if_neg (Nat.not_lt.mpr hmag)]
  cases hs : signed && n != 0 with
  | true => rfl
  | false =>
    obtain rfl : neg = false := Bool.eq_false_iff.mpr fun h => Bool.false_ne_true (hs.symm.trans (hneg h))
    rfl

theorem decode_egCode {i : Instr} {signed neg : Bool} {n r : Nat} (hi : egInstr signed n r neg = i) (hr : r < 2 ^ n)
    (hmag : 2 ^ n - 1 + r ≤ Config.egMaxMag) (hneg : neg = true → (signed && n != 0) = true) (rest : List Bool) :
    decode (.egCode signed) (egCodeBits signed n r neg ++ rest) = .ok (i, rest) :=
  hi ▸ decodeEg_egCodeBits hr hmag hneg rest

/-- With fewer than eight zeros every remainder is in range (30 R72). -/
theorem egMag_le {n : Nat} (hn : n ≤ 7) (x : BitVec n) : 2 ^ n - 1 + x.toNat ≤ Config.egMaxMag := by
  have hx := x.isLt
  have hpow := Nat.pow_le_pow_right (n := 2) (by decide) hn
  simp only [Config.egMaxMag]
  omega

/-- Settles O4: a command by its three fields, an element by its bytes, a code by its count of zeros. -/
theorem encodedInstructionsDecode : Obligations.EncodedInstructionsDecode := by
  intro i rest _
  cases i with
  | wbit b => exact decode_commandBits (by cases b <;> rfl) rest
  | wbits a v | crw a v => exact decode_commandBits (by simp [decodeCommand]) rest
  | egenc v | lzfwd v | lzinv v | lzmax v => exact decode_commandBits (by simp [decodeCommand]) rest
  | rbits a | crr a => exact decode_commandBits (by simp [decodeCommand]) rest
  | wflush | wclose | wcount | rbit | rclose | rcount | egdec => exact decode_commandBits rfl rest
  | lzToken lit mat => simp [slotOf, encode, decode, takeBits_byte]
  | lzLenExt e => simp [slotOf, encode, decode, takeBits_byte]
  | lzLiteral b => simp [slotOf, encode, decode, takeBits_byte]
  | lzDist16 d => exact decode_lzDist d rest
  | eguN0 | eguN8 | egsN0 => exact decode_egCode rfl (by decide) (by decide) (absurd · Bool.false_ne_true) rest
  | egsN8 neg => exact decode_egCode rfl (by decide) (by decide) (fun _ => rfl) rest
  | eguN1 x | eguN2 x | eguN3 x | eguN4 x | eguN5 x | eguN6 x | eguN7 x =>
    exact decode_egCode (by simp [egInstr]) x.isLt (egMag_le (by decide) x) (absurd · Bool.false_ne_true) rest
  | egsN1 x neg | egsN2 x neg | egsN3 x neg | egsN4 x neg | egsN5 x neg | egsN6 x neg | egsN7 x neg =>
    exact decode_egCode (by simp [egInstr]) x.isLt (egMag_le (by decide) x) (fun _ => rfl) rest

end Sys2Proof
end

section
/-! PROOFS. The command port (30 R60 to R66): the step a command word makes, reserved ops, the answers of the codes, and that
a response with a status other than OK carries 0. -/

namespace Sys2Proof.Machine

/-! ### The step of a command word (30 R60, R62, R63) -/

theorem step_command {s : State} {w : CommandWord} {rest : List HostMove} (hl : s.lzi = .idle)
    (hi : s.inbox = .command w :: rest) : step s = runCommand w { s with inbox := rest } := by
  simp only [step, hl, hi]

theorem step_element {s s1 : State} {sEnd d0 : Nat} {phase : LziPhase} {i : Instr}
    (hl : s.lzi = .active sEnd d0 phase) (hf : lziFetch phase s = some (i, s1)) : step s = exec i s1 := by
  simp only [step, hl, hf]

theorem runCommand_of_ok {w : CommandWord} {i : Instr} (h : decodeCommand w = .ok i) (s : State) :
    runCommand w s = exec i s := by
  simp only [runCommand, h]

/-- Settles O1: the step of a word is its command's run, the step inside LZINV its element's. -/
theorem stepRunsDecodedInstruction : Obligations.StepRunsDecodedInstruction :=
  ⟨fun _ _ _ _ hl hi hd => (step_command hl hi).trans (runCommand_of_ok hd _), fun _ _ _ _ _ _ => step_element⟩

theorem toNat_opField (w : CommandWord) : (opField w).toNat = w.toNat / 2 ^ 72 := by
  have hw := w.isLt
  rw [opField, BitVec.extractLsb'_toNat, Nat.shiftRight_eq_div_pow]
  omega

/-- A word whose op is none of the sixteen decodes to no command (30 R63). -/
theorem decodeCommand_reserved {w : CommandWord}
    (h : w.toNat / 2 ^ 72 ∉ [0x01, 0x02, 0x03, 0x04, 0x05, 0x11, 0x12, 0x14, 0x15, 0x21, 0x22, 0x31, 0x32, 0x33, 0x41, 0x42]) :
    decodeCommand w = .error (.reservedOp (opField w)) := by
  rw [← toNat_opField] at h
  unfold decodeCommand
  dsimp only
  split
  case h_17 => rfl
  all_goals
    rename_i hop
    exact absurd (by rw [hop]; decide) h

/-- Settles O2: such a word is answered as an illegal command. -/
theorem reservedOpIsIllegal : Obligations.ReservedOpIsIllegal := by
  intro s w rest hl hi h
  rw [step_command hl hi, runCommand, decodeCommand_reserved h]
  rfl

/-- Settles O3: each word by evaluation. -/
theorem sampleWordsDecode : Obligations.SampleWordsDecode :=
  ⟨rfl, rfl, rfl, rfl, rfl, rfl, rfl, rfl, rfl⟩

/-! ### The answers of the codes (30 R72, R73, 42 R143) -/

theorem codeSymbol_eq (n r : Nat) (neg : Bool) : codeSymbol n r neg =
    if neg then -(BitVec.ofNat 64 (2 ^ n - 1) + BitVec.ofNat 64 r) else BitVec.ofNat 64 (2 ^ n - 1) + BitVec.ofNat 64 r := by
  cases neg with
  | true => simp only [codeSymbol, if_true, BitVec.ofInt_neg, BitVec.ofInt_natCast, BitVec.ofNat_add]
  | false => simp only [codeSymbol, Bool.false_eq_true, if_false, BitVec.ofInt_natCast, BitVec.ofNat_add]

theorem egReturn_eq {w : Nat} (n : Nat) (x : BitVec w) (neg : Bool) (s : State) : egReturn n x.toNat neg s =
    returnOk (if neg then -(BitVec.ofNat 64 (2 ^ n - 1) + x.setWidth 64) else BitVec.ofNat 64 (2 ^ n - 1) + x.setWidth 64) s := by
  rw [egReturn, codeSymbol_eq, setWidth_eq_ofNat]

/-- Settles O32: each code by its count of zeros. -/
theorem codesReturnTheirSymbols : Obligations.CodesReturnTheirSymbols := by
  intro s answer signed
  exact ⟨rfl, fun x => egReturn_eq 1 x false s, fun x => egReturn_eq 2 x false s, fun x => egReturn_eq 3 x false s,
    fun x => egReturn_eq 4 x false s, fun x => egReturn_eq 5 x false s, fun x => egReturn_eq 6 x false s,
    fun x => egReturn_eq 7 x false s, rfl, rfl, fun x neg => egReturn_eq 1 x neg s, fun x neg => egReturn_eq 2 x neg s,
    fun x neg => egReturn_eq 3 x neg s, fun x neg => egReturn_eq 4 x neg s, fun x neg => egReturn_eq 5 x neg s,
    fun x neg => egReturn_eq 6 x neg s, fun x neg => egReturn_eq 7 x neg s, fun neg => egReturn_eq 8 0#0 neg s⟩

/-! ### A response that is not OK carries 0 (30 R65, 60 R220) -/

/-- Of an outcome that is a next state: if no response carried a value with another status than OK before, none does now. -/
def KeepsResponses (s : State) (o : Host.Outcome State Fault Refusal) : Prop :=
  ∀ t, o = .next t → ResponsesOk s → ResponsesOk t

theorem ResponsesOk.append {s t : State} {r : Response} (hs : ResponsesOk s) (ht : t.responses = s.responses ++ [r])
    (hr : r.status ≠ .ok → r.val = 0) : ResponsesOk t := by
  intro x hx
  rw [ht, List.mem_append, List.mem_singleton] at hx
  rcases hx with hx | rfl
  · exact hs x hx
  · exact hr

theorem keepsResponses_respond {s u : State} {st : Status} {v : Word64} (hu : u.responses = s.responses)
    (hv : st ≠ .ok → v = 0) : KeepsResponses s (.next (respond u st v)) := by
  rintro _ ⟨⟩ hs
  exact hs.append (congrArg (· ++ _) hu) hv

theorem keepsResponses_raise {s u : State} (st : Status) (hu : u.responses = s.responses) :
    KeepsResponses s (raiseStatus st u) := keepsResponses_respond hu fun _ => rfl

theorem keepsResponses_ok {s u : State} (v : Word64) (hu : u.responses = s.responses) :
    KeepsResponses s (returnOk v u) := keepsResponses_respond hu fun h => absurd rfl h

theorem keepsResponses_same {s u : State} (hu : u.responses = s.responses) : KeepsResponses s (.next u) := by
  rintro _ ⟨⟩ hs
  unfold ResponsesOk
  rw [hu]
  exact hs

theorem keepsResponses_fault (s : State) (r : Fault) : KeepsResponses s (.fault r) := fun _ h => nomatch h

theorem keepsResponses_refused (s : State) (r : Refusal) : KeepsResponses s (.refused r) := fun _ h => nomatch h

/-! #### LZINV and its elements, from any state -/

theorem LziGoes.keepsResponses {sEnd d0 : Nat} {s : State} {o : Host.Outcome State Fault Refusal}
    (h : LziGoes sEnd d0 s o) : KeepsResponses s o := by
  obtain ⟨t, rfl, -, -, ⟨hr, -⟩ | ⟨-, ⟨-, hr⟩ | hr⟩⟩ := h
  · exact keepsResponses_same hr
  · rintro _ ⟨⟩ hs
    exact hs.append hr fun h => absurd rfl h
  · rintro _ ⟨⟩ hs
    exact hs.append hr fun _ => rfl

theorem lziExtension_responses (sEnd d0 : Nat) (phase : LziPhase) (s : State) :
    KeepsResponses s (lziExtension sEnd d0 phase s) := by
  unfold lziExtension
  split
  · exact (lziCorrupt_goes sEnd d0 s).keepsResponses
  · exact keepsResponses_same rfl

theorem lziMatch_responses (sEnd d0 dist len : Nat) (s : State) : KeepsResponses s (lziMatch sEnd d0 dist len s) := by
  unfold lziMatch
  dsimp only
  split
  · exact (lziCorrupt_goes sEnd d0 s).keepsResponses
  · split
    · exact keepsResponses_fault s .uninit
    · split
      · exact (lziFinish_goes sEnd d0 { s with dst := _, dstPos := _ }).keepsResponses
      · exact keepsResponses_same rfl

theorem lziToken_responses (lit mat : BitVec 4) (s : State) : KeepsResponses s (lziToken lit mat s) := by
  unfold lziToken
  split
  · split
    · exact lziExtension_responses _ _ _ s
    · exact (lziLiterals_goes _ _ _ _ s).keepsResponses
  · exact keepsResponses_refused s _

theorem lziLenExt_responses (e : Byte) (s : State) : KeepsResponses s (lziLenExt e s) := by
  unfold lziLenExt
  split
  · split
    · exact lziExtension_responses _ _ _ s
    · exact (lziLiterals_goes _ _ _ _ s).keepsResponses
  · split
    · exact lziExtension_responses _ _ _ s
    · exact lziMatch_responses _ _ _ _ s
  · exact keepsResponses_refused s _

theorem lziLiteral_responses (b : Byte) (s : State) : KeepsResponses s (lziLiteral b s) := by
  unfold lziLiteral
  split
  · dsimp only
    split
    · exact (lziAfterLiterals_goes _ _ _ { s with dst := _, dstPos := _ }).keepsResponses
    · exact keepsResponses_same rfl
  · exact keepsResponses_refused s _

theorem lziDist_responses (d : BitVec 16) (s : State) : KeepsResponses s (lziDist d s) := by
  unfold lziDist
  split
  · split
    · exact lziExtension_responses _ _ _ s
    · exact lziMatch_responses _ _ _ _ s
  · exact keepsResponses_refused s _

theorem execLzinv_responses (v : Word64) (s : State) : KeepsResponses s (execLzinv v s) := by
  unfold execLzinv
  dsimp only
  split
  case isTrue hspan =>
    split
    case isTrue => exact (lziFinish_goes _ _ s).keepsResponses
    case isFalse hn =>
      obtain ⟨hok, hph⟩ := lzinv_begins hspan hn
      rcases lziRun_goes v.toNat hok hph rfl le_rfl with ⟨e, -⟩ | ⟨t, e, -, -, -, -, -, ⟨-, hr⟩ | hr⟩
      · rw [e]; exact keepsResponses_fault s _
      · rw [e]
        rintro _ ⟨⟩ hs
        exact hs.append hr fun h => absurd rfl h
      · rw [e]
        rintro _ ⟨⟩ hs
        exact hs.append hr fun _ => rfl
  case isFalse => exact keepsResponses_raise _ rfl

/-! #### Every instruction, every step -/

/-- A command of the writer's side on a faulted writer (40 R102, R108): refused with IO_FAILURE, but for WCOUNT. -/
theorem exec_writerCommand_faulted {i : Instr} (h : writerCommand i = true) {s : State} (hio : s.writer.ioFault = true) :
    exec i s = raiseStatus .ioFailure s ∨ ∃ v, exec i s = returnOk v (nextDraw s) := by
  have hadm : writerAdmission s = some .ioFailure := if_pos hio
  have hfault : writerFault s = some .ioFailure := if_pos hio
  cases i with
  | wbit | wbits | wflush | egenc =>
    exact .inl (by simp only [exec, execWbit, execWbits, execWflush, execEgenc, hadm, admitted])
  | wclose => exact .inl (by simp only [exec, execWclose, hfault, admitted])
  | wcount => exact .inr ⟨_, if_pos hio⟩
  | _ => cases h

theorem exec_writerCommand_responses {i : Instr} (h : writerCommand i = true) (s : State) :
    KeepsResponses s (exec i s) := by
  cases hio : s.writer.ioFault with
  | true =>
    rcases exec_writerCommand_faulted h hio with e | ⟨v, e⟩
    · rw [e]; exact keepsResponses_raise _ rfl
    · rw [e]; exact keepsResponses_ok v rfl
  | false =>
    obtain ⟨u, st, v, e, ⟨hf, -⟩, hv⟩ := exec_writerCommand_sink h hio
    rw [e]
    exact keepsResponses_respond hf.responses hv

theorem exec_readerCommand_responses {i : Instr} (h : readerCommand i = true) (s : State) :
    KeepsResponses s (exec i s) := by
  obtain ⟨u, st, v, e, hr, -, hv⟩ := exec_readerCommand_answers h s
  rw [e]
  exact keepsResponses_respond hr.frame.responses hv

theorem execLzfwd_responses (v : Word64) (s : State) : KeepsResponses s (execLzfwd v s) := by
  unfold execLzfwd
  dsimp only
  split
  · split
    · exact keepsResponses_raise _ rfl
    · split
      · exact keepsResponses_fault s _
      · exact keepsResponses_ok _ rfl
  · exact keepsResponses_raise _ rfl

theorem execLzmax_responses (v : Word64) (s : State) : KeepsResponses s (execLzmax v s) := by
  unfold execLzmax
  split
  · exact keepsResponses_raise _ rfl
  · exact keepsResponses_ok _ rfl

theorem execCrw_responses (a : BitVec 8) (v : Word64) (s : State) : KeepsResponses s (execCrw a v s) := by
  unfold execCrw
  split
  · exact keepsResponses_raise _ rfl
  · rename_i u hu
    exact keepsResponses_ok 0 (by rw [controlWrite_frame hu])

theorem execCrr_responses (a : BitVec 8) (s : State) : KeepsResponses s (execCrr a s) := by
  unfold execCrr
  split
  · exact keepsResponses_raise _ rfl
  · exact keepsResponses_ok _ rfl

/-- Every instruction, an element of a block from any state too. -/
theorem exec_responses (i : Instr) (s : State) : KeepsResponses s (exec i s) := by
  cases i with
  | wbit | wbits | wflush | wclose | wcount | egenc => exact exec_writerCommand_responses rfl s
  | rbit | rbits | rclose | rcount | egdec => exact exec_readerCommand_responses rfl s
  | lzfwd v => exact execLzfwd_responses v s
  | lzinv v => exact execLzinv_responses v s
  | lzmax v => exact execLzmax_responses v s
  | crw a v => exact execCrw_responses a v s
  | crr a => exact execCrr_responses a s
  | lzToken lit mat => exact lziToken_responses lit mat s
  | lzLenExt e => exact lziLenExt_responses e s
  | lzLiteral b => exact lziLiteral_responses b s
  | lzDist16 d => exact lziDist_responses d s
  | _ => exact keepsResponses_ok _ rfl

/-- Settles O6: every instruction keeps it; a reset empties the list, no other step but an illegal command adds to it. -/
theorem refusedCommandsReturnZero : Obligations.RefusedCommandsReturnZero := by
  intro s t hs h
  cases step_cases h with
  | element i p he _ => exact exec_responses i { s with srcPos := p } t he hs
  | command i rest _ he => exact exec_responses i { s with inbox := rest } t he hs
  | illegal rest h => subst h; exact keepsResponses_raise (u := { s with inbox := rest }) .illegalCommand rfl _ rfl hs
  | idle h => subst h; exact hs
  | writeSrc a b rest _ h => subst h; exact hs
  | writeDst a b rest _ h => subst h; exact hs
  | attachSource bytes rest _ h => subst h; exact hs
  | reset e d source rest _ h => subst h; exact fun _ h => nomatch h

end Sys2Proof.Machine
end

section
/-! PROOFS. The writer's commands with a sink that answers (40 R107, R110, 42 R142): EGENC and WCLOSE as what they add to the
stream of bits. -/

namespace Sys2Proof.Machine

/-! ### Bits put with a sink that answers -/

/-- With answers enough for the bytes they complete, the bits are put and the writer has no fault still. -/
theorem putBits_answered {bs : List Bool} {m : Nat} {s : State} (ho : WriterOpen s) (hio : s.writer.ioFault = false)
    (h : sinkReady (m + 2 * completed s.writer.bit bs.length) s) :
    ∃ t, putBits bs s = .done () t ∧ sinkReady m t ∧ BitsPut bs s t ∧ WriteFrame s t ∧ t.writer.ioFault = false := by
  obtain ⟨t, ht, hready⟩ := putBits_ready bs h
  have hput := putBits_stream bs ho
  have hwrites := putBits_writes bs s
  rw [ht] at hput hwrites
  obtain ⟨hframe, hfault, -, -⟩ := hwrites
  exact ⟨t, ht, hready, hput, hframe, hfault.trans hio⟩

/-- A write command that puts some bits and answers. -/
theorem exec_bits_answered {i : Instr} {bs : List Bool} {v : Word64} {s : State} (ho : WriterOpen s)
    (hio : s.writer.ioFault = false) (h : sinkReady (2 * completed s.writer.bit bs.length) s)
    (he : exec i s = conclude (andThen (putBits bs s) fun _ t => .done v t)) :
    ∃ t, exec i s = .next t ∧ BitsPut bs s t ∧ t.writer.ioFault = false ∧
      t.responses = s.responses ++ [{ status := .ok, val := v }] := by
  obtain ⟨t, ht, -, hput, hframe, hfault⟩ := putBits_answered (m := 0) ho hio (by rwa [Nat.zero_add])
  exact ⟨respond t .ok v, by rw [he, ht]; rfl, hput, hfault, congrArg (· ++ _) hframe.responses⟩

/-! ### EGENC (42 R142) -/

/-- The bits of a number, written out place by place. -/
theorem bitsOf_eq_map (n v : Nat) : bitsOf n v = (List.range n).reverse.map fun i => v.testBit i := by
  induction n with
  | zero => rfl
  | succ n ih => rw [bitsOf, ih, List.range_succ, List.reverse_append]; rfl

/-- `prefixLength` of a magnitude is the `n` with 2^n - 1 ≤ m ≤ 2^(n+1) - 2 (42 R141). -/
theorem prefixLength_eq {m n : Nat} (hlo : 2 ^ n - 1 ≤ m) (hhi : m ≤ 2 ^ (n + 1) - 2) : prefixLength m = n := by
  have hpos : 1 ≤ 2 ^ n := Nat.one_le_two_pow
  have hsucc : 2 ^ (n + 1) = 2 ^ n * 2 := Nat.pow_succ ..
  exact (Nat.log2_eq_iff (Nat.succ_ne_zero m)).mpr ⟨by omega, by omega⟩

theorem symbolBits_eq {signed : Bool} {v : Word64} {n : Nat} (hlo : 2 ^ n - 1 ≤ v.toInt.natAbs)
    (hhi : v.toInt.natAbs ≤ 2 ^ (n + 1) - 2) : symbolBits signed v =
      List.replicate n false ++ [true] ++ (List.range n).reverse.map (fun i => (v.toInt.natAbs - (2 ^ n - 1)).testBit i) ++
        (if signed = true ∧ v.toInt ≠ 0 then [decide (v.toInt < 0)] else []) := by
  have hn : prefixLength v.toInt.natAbs = n := prefixLength_eq hlo hhi
  have hzero : v.toInt ≠ 0 ↔ n ≠ 0 := by
    rw [ne_eq, ← Int.natAbs_eq_zero]
    constructor
    · rintro hm rfl
      omega
    · intro hn0 hm
      have := Nat.one_lt_two_pow hn0
      omega
  have hsign : (signed && n != 0) = true ↔ signed = true ∧ v.toInt ≠ 0 := by simp [hzero]
  simp only [symbolBits, symbolOf, remainderOf, hn, egCodeBits, bitsOf_eq_map, hsign, List.append_assoc,
    List.cons_append, List.nil_append]
  rfl

/-- A symbol of the mode's domain is accepted (42 R140). -/
theorem symbolOk_of_natAbs {signed : Bool} {v : Word64} (hmag : v.toInt.natAbs ≤ 255)
    (hsign : signed = false → 0 ≤ v.toInt) : symbolOk signed v = true := by
  have hhi : v.toInt ≤ 255 := by omega
  cases signed with
  | true =>
    have hlo : -255 ≤ v.toInt := by omega
    exact Bool.and_eq_true_iff.mpr ⟨decide_eq_true hlo, decide_eq_true hhi⟩
  | false => exact Bool.and_eq_true_iff.mpr ⟨decide_eq_true (hsign rfl), decide_eq_true hhi⟩

/-- A code has at most 18 bits, which complete at most three bytes (30 R73). -/
theorem completed_symbolBits {signed : Bool} {v : Word64} {n : Nat} (hmag : v.toInt.natAbs ≤ 255)
    (hlo : 2 ^ n - 1 ≤ v.toInt.natAbs) (hhi : v.toInt.natAbs ≤ 2 ^ (n + 1) - 2) (bit : BitVec 3) :
    completed bit (symbolBits signed v).length ≤ 3 := by
  have hn : n ≤ 8 := by
    by_contra hgt
    have := Nat.pow_le_pow_right (n := 2) (by decide) (Nat.succ_le_of_lt (Nat.not_le.mp hgt))
    omega
  have hlen : (symbolBits signed v).length ≤ 18 := by
    rw [symbolBits, length_egCodeBits, show prefixLength (symbolOf v).natAbs = n from prefixLength_eq hlo hhi]
    split <;> omega
  unfold completed
  omega

theorem exec_egenc_open {v : Word64} {s : State} (hio : s.writer.ioFault = false) (hcl : s.writer.closed = false)
    (hv : symbolOk s.cfg.egeSigned v = true) :
    exec (.egenc v) s = conclude (andThen (putBits (symbolBits s.cfg.egeSigned v) s) fun _ t => .done 0 t) := by
  simp only [exec, execEgenc, writerAdmission_open hio hcl, admitted, hv, if_true]

/-- Settles O29: the bits of the symbol are put, and they are its code. -/
theorem egencAppendsTheCode : Obligations.EgencAppendsTheCode := by
  intro v n s hok hio hcl hmag hsign hready hlo hhi
  have hcode := symbolBits_eq (signed := s.cfg.egeSigned) hlo hhi
  have hanswers := completed_symbolBits (signed := s.cfg.egeSigned) hmag hlo hhi s.writer.bit
  obtain ⟨t, he, ⟨⟨hok', hcl'⟩, hbits, -⟩, hio', hresp⟩ := exec_bits_answered ⟨hok, hcl⟩ hio
    (sinkReady_mono hready (by omega)) (exec_egenc_open hio hcl (symbolOk_of_natAbs hmag hsign))
  refine ⟨t, he, ?_, hok', hio', hcl', hresp⟩
  rw [hbits, hcode]
  simp only [List.append_assoc]

/-! ### WCLOSE (40 R107) -/

/-- The bits that complete the byte being filled bring the writer to a byte boundary. -/
theorem fillCount_bit (w : Writer) : w.bit - BitVec.ofNat 3 (fillCount w) = 7 := by
  unfold fillCount
  generalize w.bit = bit
  revert bit
  decide

theorem completed_fillCount (w : Writer) : completed w.bit (fillCount w) ≤ 1 := by
  have := w.bit.isLt
  unfold completed fillCount
  split <;> omega

/-- Filling the byte and padding the count together bring the count to the next multiple of 64 (30 R71, 40 R107). -/
theorem fillCount_add_padCount {s t : State} (h : WriterOk s)
    (ht : t.writer.count = s.writer.count + BitVec.ofNat 64 (fillCount s.writer)) :
    fillCount s.writer + padCount t.writer = padCount s.writer ∧ padCount t.writer ≤ 56 := by
  obtain ⟨-, -, -, -, hcount, -⟩ := h
  have hbit := s.writer.bit.isLt
  have hs : s.writer.count.toNat % 8 = 7 - s.writer.bit.toNat := by
    rw [hcount, BitVec.toNat_ofNat]
    omega
  have hfill : fillCount s.writer = (8 - s.writer.count.toNat % 8) % 8 := by
    have heq : s.writer.bit = 7 ↔ s.writer.bit.toNat = 7 := (BitVec.toNat_inj (y := 7)).symm
    unfold fillCount
    by_cases h7 : s.writer.bit = 7
    · rw [if_pos h7]
      have := heq.mp h7
      omega
    · rw [if_neg h7]
      have := mt heq.mpr h7
      omega
  have ht' : t.writer.count.toNat = (s.writer.count.toNat + fillCount s.writer) % 2 ^ 64 := by
    rw [ht, BitVec.toNat_add, BitVec.toNat_ofNat]
    omega
  simp only [padCount, Config.padBits]
  omega

/-- WCLOSE's padding with a sink that answers: a whole number of bytes, the count a multiple of 64. -/
theorem padding_answered {m : Nat} {s : State} (ho : WriterOpen s) (hio : s.writer.ioFault = false)
    (h : sinkReady (m + 16) s) :
    ∃ t u, putBits (List.replicate (fillCount s.writer) Config.closePartialFill) s = .done () t ∧
      putBits (List.replicate (padCount t.writer) true) t = .done () u ∧ sinkReady m u ∧
      BitsPut (List.replicate (padCount s.writer) true) s u ∧ WriteFrame s u ∧ u.writer.ioFault = false := by
  have hfill := completed_fillCount s.writer
  obtain ⟨t, ht, hready, ⟨hot, hbits, hcount, hbit, hfl, hcl⟩, hframe, hiot⟩ :=
    putBits_answered (bs := List.replicate (fillCount s.writer) Config.closePartialFill) (m := m + 14) ho hio
      (sinkReady_mono h (by rw [List.length_replicate]; omega))
  rw [List.length_replicate] at hcount hbit
  obtain ⟨hpad, hpad56⟩ := fillCount_add_padCount ho.1 hcount
  have hseven : t.writer.bit = 7 := hbit.trans (fillCount_bit s.writer)
  have hcomp : completed t.writer.bit (padCount t.writer) ≤ 7 := by
    rw [hseven]
    unfold completed
    have : (7 : BitVec 3).toNat = 7 := rfl
    omega
  obtain ⟨u, hu, hready', ⟨hou, hbits', hcount', hbit', hfl', hcl'⟩, hframe', hiou⟩ :=
    putBits_answered (bs := List.replicate (padCount t.writer) true) (m := m) hot hiot
      (sinkReady_mono hready (by rw [List.length_replicate]; omega))
  refine ⟨t, u, ht, hu, hready', ⟨hou, ?_, ?_, ?_, hfl.trans hfl', hcl'.trans hcl⟩, hframe.trans hframe', hiou⟩
  · rw [hbits', hbits, List.append_assoc, ← hpad, List.replicate_add]
    rfl
  · rw [hcount', hcount, ← hpad]
    simp only [List.length_replicate, BitVec.ofNat_add, BitVec.add_assoc]
  · rw [hbit', hbit, ← hpad]
    simp only [List.length_replicate, BitVec.ofNat_add, sub_sub]

theorem sinkClose_ready {s : State} (h : sinkReady 1 s) : sinkClose s = .done () { s with
    sink := { s.sink with closed := true }, env := { s.env with sinkScript := s.env.sinkScript.drop 1 } } := by
  obtain ⟨hdraw, -⟩ := drawSink_ready (n := 0) h
  simp only [sinkClose, hdraw]

/-- At a byte boundary the bits written are the bytes that a flush pushes and those before (40 R110). -/
theorem writtenBits_boundary {s : State} (hb : s.writer.bit = 7) :
    writtenBits s = (s.sink.bytes ++ s.writer.buf.take s.writer.pos).flatMap byteBits := by
  simp only [writtenBits, hb, show 7 - (7 : BitVec 3).toNat = 0 from rfl, List.take_zero, List.append_nil]

theorem compacted_boundary {w : Writer} (hb : w.bit = 7) :
    compacted w = { w with buf := List.replicate w.buf.length 0, pos := 0 } := by
  have hbuf : (List.replicate w.buf.length (0 : Byte)).set 0 0 = List.replicate w.buf.length 0 := by
    cases w.buf.length <;> rfl
  simp only [compacted, if_pos hb, hbuf]

/-- The run of WCLOSE at a byte boundary behind the padding: the buffer flushed, sink and writer closed. -/
theorem close_answered {s : State} (hb : s.writer.bit = 7) (h : sinkReady 3 s) :
    ∃ t, (andThen (flushBuffer s) fun _ s =>
        andThen (sinkClose s) fun _ s => .done (0 : Word64) { s with writer := { s.writer with closed := true } }) =
          .done 0 t ∧
      t.writer = { s.writer with buf := List.replicate s.writer.buf.length 0, pos := 0, closed := true } ∧
      t.sink = { bytes := s.sink.bytes ++ s.writer.buf.take s.writer.pos, flushes := s.sink.flushes + 1, closed := true } ∧
      t.responses = s.responses := by
  obtain ⟨hflush, hready⟩ := flushBuffer_ready (n := 1) h
  rw [hflush, andThen_done, sinkClose_ready hready, andThen_done, compacted_boundary hb]
  exact ⟨_, rfl, rfl, rfl, rfl⟩

theorem exec_wclose_open {s : State} (hio : s.writer.ioFault = false) (hcl : s.writer.closed = false) :
    exec .wclose s = conclude (closing s) := by
  simp only [exec, execWclose_eq, writerFault_of_unfaulted hio, admitted, hcl, Bool.false_eq_true, if_false]

/-- Settles O14: the padding is put, and at the byte boundary it reaches all that was written is in the sink. -/
theorem wclosePadsAndCloses : Obligations.WclosePadsAndCloses := by
  intro s hok hio hcl hready pad
  have hpads : padCount s.writer = pad := rfl
  obtain ⟨t, u, hfill, hpad, hready', ⟨⟨hoku, -⟩, hbits, hcount, -, hfl, -⟩, hframe, hiou⟩ :=
    padding_answered (m := 3) ⟨hok, hcl⟩ hio (sinkReady_mono hready (by decide))
  rw [List.length_replicate] at hcount
  have hmod : u.writer.count.toNat % 64 = 0 := by rw [hcount]; exact padCount_count s.writer
  have hb := bit_of_count_mod hoku hmod
  have hlen : u.writer.buf.length = s.cfg.wBufsz := by rw [hoku.1, hframe.sameRest.2.1]
  obtain ⟨w, hw, hwriter, hsink, hresp⟩ := close_answered hb hready'
  have hrun : closing s = .done 0 w := by simp only [closing, hfill, hpad, andThen_done, hw]
  refine ⟨respond w .ok 0, by rw [exec_wclose_open hio hcl, hrun]; rfl, ?_⟩
  simp only [respond_sink, respond_writer, respond_responses, hwriter, hsink, hresp, hlen, hframe.responses]
  refine ⟨?_, hcount, hmod, trivial, trivial, hb, trivial, hiou, trivial, Nat.lt_succ_of_le hfl, trivial⟩
  rw [← writtenBits_boundary hb, hbits, hpads]

end Sys2Proof.Machine
end

section
/-! PROOFS. The bound of a block (30 R84, 43 R160). -/

namespace Sys2Proof.Machine

/-- Settles O38: what `length_encodeBlock_le` says of MaxLen, MaxLen written out. -/
theorem blocksKeepTheSizeBound : Obligations.BlocksKeepTheSizeBound := length_encodeBlock_le

end Sys2Proof.Machine
end

section
/-! PROOFS. The elements of a block at their places (30 R75 to R80, 44 R191 to R196): what each operation of LZINV does, case
by case, and from it what each element does. -/

namespace Sys2Proof.Machine

/-! ### LZINV's operations, case by case -/

variable {sEnd d0 : Nat} {s : State}

theorem lziExtension_of_lt (phase : LziPhase) (h : s.srcPos.toNat < sEnd) :
    lziExtension sEnd d0 phase s = lziAt sEnd d0 phase s := if_neg (Nat.not_le.mpr h)

theorem lziExtension_of_le (phase : LziPhase) (h : sEnd ≤ s.srcPos.toNat) :
    lziExtension sEnd d0 phase s = lziCorrupt s := if_pos h

theorem lziFinish_at_end (h : s.srcPos.toNat = sEnd) :
    lziFinish sEnd d0 s = returnOk (BitVec.ofNat 64 (s.dstPos.toNat - d0)) { s with lzi := .idle } :=
  if_neg (not_not.mpr h)

theorem lziAfterLiterals_at_end (mat : Nat) (h : s.srcPos.toNat = sEnd) : lziAfterLiterals sEnd d0 mat s =
    returnOk (BitVec.ofNat 64 (s.dstPos.toNat - d0)) { s with lzi := .idle } :=
  (if_pos h.ge).trans (lziFinish_at_end h)

theorem lziAfterLiterals_one_left (mat : Nat) (h : s.srcPos.toNat + 1 = sEnd) :
    lziAfterLiterals sEnd d0 mat s = lziCorrupt s :=
  (if_neg (by omega)).trans (if_pos (by omega))

theorem lziAfterLiterals_goes_on (mat : Nat) (h : s.srcPos.toNat + 2 ≤ sEnd) :
    lziAfterLiterals sEnd d0 mat s = lziAt sEnd d0 (.dist mat) s :=
  (if_neg (by omega)).trans (if_neg (by omega))

theorem lziLiterals_unfit {len : Nat} (mat : Nat)
    (h : sEnd < s.srcPos.toNat + len ∨ s.dstLen.toNat < s.dstPos.toNat + len) :
    lziLiterals sEnd d0 len mat s = lziCorrupt s := if_pos h

theorem lziLiterals_fit {len : Nat} (mat : Nat) (hsrc : s.srcPos.toNat + len ≤ sEnd)
    (hdst : s.dstPos.toNat + len ≤ s.dstLen.toNat) (h : len ≠ 0) :
    lziLiterals sEnd d0 len mat s = lziAt sEnd d0 (.literals len mat) s :=
  (if_neg (by omega)).trans (if_neg h)

theorem lziLiterals_zero (mat : Nat) (hsrc : s.srcPos.toNat ≤ sEnd) (hdst : s.dstPos.toNat ≤ s.dstLen.toNat) :
    lziLiterals sEnd d0 0 mat s = lziAfterLiterals sEnd d0 mat s :=
  (if_neg (by omega)).trans (if_pos rfl)

theorem lziMatch_unfit {dist len : Nat}
    (h : dist = 0 ∨ s.dstPos.toNat - d0 < dist ∨ s.dstLen.toNat < s.dstPos.toNat + (len + 4)) :
    lziMatch sEnd d0 dist len s = lziCorrupt s := if_pos h

/-- DST as a match of `n` bytes left it, the write cursor behind the match (44 R196). -/
def matchWritten (m : Memory) (n : Nat) (s : State) : State :=
  { s with dst := m, dstPos := BitVec.ofNat 32 (s.dstPos.toNat + n) }

theorem lziMatch_written {dist len : Nat} {m : Memory} (hdist : dist ≠ 0) (hback : dist ≤ s.dstPos.toNat - d0)
    (hfit : s.dstPos.toNat + (len + 4) ≤ s.dstLen.toNat) (hcopy : copyMatch s.dst s.dstPos.toNat dist (len + 4) = some m) :
    lziMatch sEnd d0 dist len s =
      if s.srcPos.toNat ≥ sEnd then lziFinish sEnd d0 (matchWritten m (len + 4) s)
      else lziAt sEnd d0 .token (matchWritten m (len + 4) s) := by
  unfold lziMatch
  dsimp only [Config.minMatch]
  rw [if_neg (by omega), hcopy]
  rfl

/-- A match of `len` plus 4 bytes from inside what is written (44 R196, R193). -/
theorem lziMatch_copies {dist len : Nat} (hdist : dist ≠ 0) (hback : dist ≤ s.dstPos.toNat - d0)
    (hfit : s.dstPos.toNat + (len + 4) ≤ s.dstLen.toNat)
    (hw : ∀ a, d0 ≤ a → a < s.dstPos.toNat → hostReadDst s a ≠ none) (hend : s.srcPos.toNat ≤ sEnd) :
    ∃ t, lziMatch sEnd d0 dist len s = .next t ∧ MatchCopied sEnd d0 dist (len + 4) s t := by
  obtain ⟨m, hcopy, hrun, hframe, -⟩ := copyMatch_spec s.dst s.dstPos.toNat dist (len + 4) (by omega) (by omega)
    fun a ha hlt => hw a (by omega) hlt
  have hpos : (matchWritten m (len + 4) s).dstPos.toNat = s.dstPos.toNat + (len + 4) := toNat_ofNat_of_le hfit
  have hrest : SameButOutput s (matchWritten m (len + 4) s) :=
    ⟨rfl, rfl, rfl, rfl, rfl, rfl, rfl, rfl, rfl, rfl, rfl, rfl, rfl, rfl⟩
  rw [lziMatch_written hdist hback hfit hcopy]
  by_cases h : s.srcPos.toNat = sEnd
  · rw [if_pos h.ge, lziFinish_at_end (s := matchWritten m (len + 4) s) h, hpos]
    exact ⟨_, rfl, hpos, hrun, hframe, hrest, (if_pos h).symm, by rw [if_pos h]; rfl⟩
  · rw [if_neg (by omega)]
    exact ⟨_, rfl, hpos, hrun, hframe, hrest, (if_neg h).symm, by rw [if_neg h]; exact (List.append_nil _).symm⟩

/-- A match whose first byte nothing has written (20 R57). -/
theorem lziMatch_unwritten {dist len : Nat} (hdist : dist ≠ 0) (hback : dist ≤ s.dstPos.toNat - d0)
    (hfit : s.dstPos.toNat + (len + 4) ≤ s.dstLen.toNat) (hun : memRead s.dst (s.dstPos.toNat - dist) = none) :
    lziMatch sEnd d0 dist len s = .fault .uninit := by
  unfold lziMatch
  dsimp only [Config.minMatch]
  rw [if_neg (by omega), show copyMatch s.dst s.dstPos.toNat dist (len + 4) = none by simp only [copyMatch, hun]]

/-! ### The elements at their places -/

theorem lziToken_at (lit mat : BitVec 4) (hl : s.lzi = .active sEnd d0 .token) : lziToken lit mat s =
    if lit = 15 then lziExtension sEnd d0 (.litExt 15 mat.toNat) s else lziLiterals sEnd d0 lit.toNat mat.toNat s := by
  have heq : lit.toNat = Config.nibbleCap ↔ lit = 15 := BitVec.toNat_inj (y := 15)
  simp only [lziToken, hl, heq]
  rfl

theorem lziLenExt_at_literals {len mat : Nat} (e : Byte) (hl : s.lzi = .active sEnd d0 (.litExt len mat)) : lziLenExt e s =
    if e = 255 then lziExtension sEnd d0 (.litExt (len + 255) mat) s else lziLiterals sEnd d0 (len + e.toNat) mat s := by
  have heq : e.toNat = 255 ↔ e = 255 := BitVec.toNat_inj (y := 255)
  simp only [lziLenExt, hl]
  by_cases h : e = 255
  · rw [if_pos h, if_pos (heq.mpr h), heq.mpr h]
  · rw [if_neg h, if_neg (mt heq.mp h)]

theorem lziLenExt_at_match {dist len : Nat} (e : Byte) (hl : s.lzi = .active sEnd d0 (.matchExt dist len)) : lziLenExt e s =
    if e = 255 then lziExtension sEnd d0 (.matchExt dist (len + 255)) s else lziMatch sEnd d0 dist (len + e.toNat) s := by
  have heq : e.toNat = 255 ↔ e = 255 := BitVec.toNat_inj (y := 255)
  simp only [lziLenExt, hl]
  by_cases h : e = 255
  · rw [if_pos h, if_pos (heq.mpr h), heq.mpr h]
  · rw [if_neg h, if_neg (mt heq.mp h)]

theorem lziDist_at {mat : Nat} (d : BitVec 16) (hl : s.lzi = .active sEnd d0 (.dist mat)) : lziDist d s =
    if mat = 15 then lziExtension sEnd d0 (.matchExt d.toNat 15) s else lziMatch sEnd d0 d.toNat mat s := by
  simp only [lziDist, hl, Config.nibbleCap]
  rfl

/-- DST with a byte written at the write cursor, the cursor one on (30 R78). -/
def literalCopied (b : Byte) (s : State) : State :=
  { s with dst := memWrite s.dst s.dstPos.toNat b, dstPos := s.dstPos + 1 }

theorem toNat_dstPos_literalCopied (b : Byte) (h : s.dstPos.toNat + 1 < 2 ^ 32) :
    (literalCopied b s).dstPos.toNat = s.dstPos.toNat + 1 := by
  rw [literalCopied, BitVec.toNat_add]
  exact Nat.mod_eq_of_lt h

theorem lziLiteral_at {left mat : Nat} (b : Byte) (hl : s.lzi = .active sEnd d0 (.literals left mat)) : lziLiteral b s =
    if left ≤ 1 then lziAfterLiterals sEnd d0 mat (literalCopied b s)
    else lziAt sEnd d0 (.literals (left - 1) mat) (literalCopied b s) := by
  simp only [lziLiteral, hl, literalCopied]

/-- Settles O47: a token by its high nibble, then by whether its literals fit and by what is left of the span. -/
theorem tokensOpenASequence : Obligations.TokensOpenASequence := by
  intro lit mat sEnd d0 s hl corrupt
  have hexec : exec (.lzToken lit mat) s = _ := lziToken_at lit mat hl
  refine ⟨fun h hlt => ?_, fun h hle => ?_, fun h hfit => ?_, fun h hpos hsrc hdst => ?_, fun h hend hdst => ?_,
    fun h hend => ?_, fun h hend hdst => ?_⟩
  · rw [hexec, if_pos h, lziExtension_of_lt _ hlt]; rfl
  · rw [hexec, if_pos h, lziExtension_of_le _ hle]; rfl
  · rw [hexec, if_neg h, lziLiterals_unfit _ hfit]; rfl
  · have hne : lit.toNat ≠ 0 := fun h0 => hpos (BitVec.eq_of_toNat_eq h0)
    rw [hexec, if_neg h, lziLiterals_fit _ hsrc hdst hne]; rfl
  · subst h
    rw [hexec, if_neg (by decide)]
    exact (lziLiterals_zero _ hend.le hdst).trans (lziAfterLiterals_at_end _ hend)
  · subst h
    rw [hexec, if_neg (by decide)]
    by_cases hdst : s.dstPos.toNat ≤ s.dstLen.toNat
    · exact (lziLiterals_zero _ (by omega) hdst).trans (lziAfterLiterals_one_left _ hend)
    · exact lziLiterals_unfit _ (.inr (Nat.not_le.mp hdst))
  · subst h
    rw [hexec, if_neg (by decide)]
    exact (lziLiterals_zero _ (by omega) hdst).trans (lziAfterLiterals_goes_on _ hend)

/-- Settles O48: an extension byte by whether it is 0xFF, then by whether what its length asks for fits. -/
theorem extensionBytesAddUp : Obligations.ExtensionBytesAddUp := by
  intro e sEnd d0 s corrupt
  refine ⟨fun len mat hl => ?_, fun dist len hl => ?_⟩
  · have hexec : exec (.lzLenExt e) s = _ := lziLenExt_at_literals e hl
    refine ⟨fun h hlt => ?_, fun h hle => ?_, fun h hpos hsrc hdst => ?_, fun h hfit => ?_⟩
    · rw [hexec, if_pos h, lziExtension_of_lt _ hlt]; rfl
    · rw [hexec, if_pos h, lziExtension_of_le _ hle]; rfl
    · rw [hexec, if_neg h, lziLiterals_fit _ hsrc hdst hpos.ne']; rfl
    · rw [hexec, if_neg h, lziLiterals_unfit _ hfit]; rfl
  · have hexec : exec (.lzLenExt e) s = _ := lziLenExt_at_match e hl
    refine ⟨fun h hlt => ?_, fun h hle => ?_, fun h hfit => ?_, fun h hdist hback hfit hw hend => ?_⟩
    · rw [hexec, if_pos h, lziExtension_of_lt _ hlt]; rfl
    · rw [hexec, if_pos h, lziExtension_of_le _ hle]; rfl
    · rw [hexec, if_neg h, lziMatch_unfit hfit]; rfl
    · rw [hexec, if_neg h]
      exact lziMatch_copies hdist hback hfit hw hend

/-- Settles O50: a distance by the token's low nibble, then by whether the match fits. -/
theorem distancesCopyTheMatch : Obligations.DistancesCopyTheMatch := by
  intro d sEnd d0 mat s hl corrupt
  have hexec : exec (.lzDist16 d) s = _ := lziDist_at d hl
  have hzero : d = 0 ↔ d.toNat = 0 := (BitVec.toNat_inj (y := 0)).symm
  refine ⟨fun h hlt => ?_, fun h hle => ?_, fun h hfit => ?_, fun h hdist hback hfit hw hend => ?_⟩
  · rw [hexec, if_pos h, lziExtension_of_lt _ hlt]; rfl
  · rw [hexec, if_pos h, lziExtension_of_le _ hle]; rfl
  · rw [hexec, if_neg h.ne, lziMatch_unfit (by rwa [← hzero])]; rfl
  · rw [hexec, if_neg h.ne]
    exact lziMatch_copies (mt hzero.mpr hdist) hback hfit hw hend

/-- Settles O49: the byte is copied; what comes next is told by the literals and the bytes of the span that are left. -/
theorem literalsAreCopied : Obligations.LiteralsAreCopied := by
  intro b sEnd d0 left mat s hl hroom hend hleft
  have hexec : exec (.lzLiteral b) s = _ := lziLiteral_at b hl
  have hpos := toNat_dstPos_literalCopied b (s := s) (by have := s.dstLen.isLt; omega)
  have hread : hostReadDst (literalCopied b s) s.dstPos.toNat = some b := memRead_memWrite_same _ _ _
  have hframe : ∀ a, a ≠ s.dstPos.toNat → hostReadDst (literalCopied b s) a = hostReadDst s a :=
    fun a ha => memRead_memWrite_other _ _ ha.symm
  have hrest : SameButOutput s (literalCopied b s) :=
    ⟨rfl, rfl, rfl, rfl, rfl, rfl, rfl, rfl, rfl, rfl, rfl, rfl, rfl, rfl⟩
  have hsrc : (literalCopied b s).srcPos.toNat = s.srcPos.toNat := rfl
  have hnone : (literalCopied b s).responses = s.responses ++ [] := (List.append_nil _).symm
  rw [hexec]
  by_cases hmore : 2 ≤ left
  · rw [if_neg (by omega), if_pos hmore, if_pos (.inl hmore)]
    exact ⟨_, rfl, hpos, hread, hframe, hrest, rfl, hnone⟩
  · rw [if_pos (by omega), if_neg hmore]
    by_cases hgo : s.srcPos.toNat + 2 ≤ sEnd
    · rw [lziAfterLiterals_goes_on (s := literalCopied b s) mat hgo, if_pos hgo, if_pos (.inr hgo)]
      exact ⟨_, rfl, hpos, hread, hframe, hrest, rfl, hnone⟩
    · rw [if_neg hgo, if_neg (not_or.mpr ⟨hmore, hgo⟩)]
      by_cases hat : s.srcPos.toNat = sEnd
      · rw [lziAfterLiterals_at_end (s := literalCopied b s) mat hat, if_pos hat, hpos]
        exact ⟨_, rfl, hpos, hread, hframe, hrest, rfl, rfl⟩
      · rw [lziAfterLiterals_one_left (s := literalCopied b s) mat (by rw [hsrc]; omega), if_neg hat]
        exact ⟨_, rfl, hpos, hread, hframe, hrest, rfl, rfl⟩

/-! ### Elements out of place (log entry 11) -/

theorem lziToken_misplaced (lit mat : BitVec 4) (h : ∀ sEnd d0, s.lzi ≠ .active sEnd d0 .token) :
    lziToken lit mat s = .refused .wireOutOfPlace := by
  unfold lziToken
  split
  case h_1 hat => exact absurd hat (h _ _)
  case h_2 => rfl

theorem lziLenExt_misplaced (e : Byte) (hlit : ∀ sEnd d0 len mat, s.lzi ≠ .active sEnd d0 (.litExt len mat))
    (hmatch : ∀ sEnd d0 dist len, s.lzi ≠ .active sEnd d0 (.matchExt dist len)) :
    lziLenExt e s = .refused .wireOutOfPlace := by
  unfold lziLenExt
  split
  case h_1 hat => exact absurd hat (hlit _ _ _ _)
  case h_2 hat => exact absurd hat (hmatch _ _ _ _)
  case h_3 => rfl

theorem lziLiteral_misplaced (b : Byte) (h : ∀ sEnd d0 left mat, s.lzi ≠ .active sEnd d0 (.literals left mat)) :
    lziLiteral b s = .refused .wireOutOfPlace := by
  unfold lziLiteral
  split
  case h_1 hat => exact absurd hat (h _ _ _ _)
  case h_2 => rfl

theorem lziDist_misplaced (d : BitVec 16) (h : ∀ sEnd d0 mat, s.lzi ≠ .active sEnd d0 (.dist mat)) :
    lziDist d s = .refused .wireOutOfPlace := by
  unfold lziDist
  split
  case h_1 hat => exact absurd hat (h _ _ _)
  case h_2 => rfl

/-- Settles O51: each element is refused where LZINV does not stand before it; a match of an unwritten byte stops. -/
theorem elementsStopOutOfPlace : Obligations.ElementsStopOutOfPlace := by
  refine ⟨fun s lit mat hl => ?_, fun s e hlit hmatch => ?_, fun s b hl => ?_, fun s d hl => ?_,
    fun s d sEnd d0 mat hl hmat hd hback hfit hun => ?_⟩
  · exact lziToken_misplaced lit mat hl
  · exact lziLenExt_misplaced e hlit hmatch
  · exact lziLiteral_misplaced b hl
  · exact lziDist_misplaced d hl
  · have hexec : exec (.lzDist16 d) s = _ := lziDist_at d hl
    have hne : d.toNat ≠ 0 := fun h0 => hd (BitVec.eq_of_toNat_eq h0)
    rw [hexec, if_neg hmat.ne, lziMatch_unwritten hne hback hfit hun]

end Sys2Proof.Machine
end

section
/-! PROOFS. LZINV as the run of its elements (44 R197, 30 R83), and the run over one sequence of a block: its token, its length
extensions, its literals and its match. -/

namespace Sys2Proof.Machine

/-! ### The command is its elements (30 R83, 44 R197) -/

/-- Inside LZINV a step of the machine is LZINV's own step. -/
theorem step_eq_lziStep {sEnd d0 : Nat} {phase : LziPhase} {s : State} (hl : s.lzi = .active sEnd d0 phase) :
    step s = lziStep phase s := by
  simp only [step, hl, lziStep, lziFetch]
  cases lziByte s with
  | none => rfl
  | some x =>
    obtain ⟨b, s1⟩ := x
    cases phase with
    | dist mat =>
      dsimp only
      cases lziByte s1 <;> rfl
    | _ => rfl

/-- What is left of LZINV's run after the outcome `o` of an element. -/
def lziGoOn (fuel : Nat) (o : Host.Outcome State Fault Refusal) : Host.Outcome State Fault Refusal :=
  match o with
  | .next s => lziRun fuel s
  | .fault r => .fault r
  | .refused r => .refused r

theorem lziRun_active {sEnd d0 : Nat} {phase : LziPhase} {s : State} (hl : s.lzi = .active sEnd d0 phase) (fuel : Nat) :
    lziRun (fuel + 1) s = lziGoOn fuel (lziStep phase s) := by
  simp only [lziRun, hl]
  cases lziStep phase s <;> rfl

/-- LZINV's run stops by itself where LZINV is idle, so it is a number of the machine's steps. -/
theorem lziRun_eq_run (fuel : Nat) (s : State) : ∃ k ≤ fuel, lziRun fuel s = core.run k s := by
  induction fuel generalizing s with
  | zero => exact ⟨0, le_rfl, rfl⟩
  | succ fuel ih =>
    cases hl : s.lzi with
    | idle => exact ⟨0, Nat.zero_le _, by simp only [lziRun, hl]; rfl⟩
    | active sEnd d0 phase =>
      have hstep : core.step s = lziStep phase s := step_eq_lziStep hl
      rw [lziRun_active hl]
      cases ho : lziStep phase s with
      | next t =>
        obtain ⟨k, hk, hrun⟩ := ih t
        exact ⟨k + 1, Nat.succ_le_succ hk, by simp only [Host.Core.run, hstep, ho]; exact hrun⟩
      | fault r => exact ⟨1, Nat.succ_le_succ (Nat.zero_le _), by simp only [Host.Core.run, hstep, ho]; rfl⟩
      | refused r => exact ⟨1, Nat.succ_le_succ (Nat.zero_le _), by simp only [Host.Core.run, hstep, ho]; rfl⟩

/-- LZINV of a legal span that is not empty. -/
theorem exec_lzinv_legal {v : Word64} {s : State} (hspan : spanOk v.toNat s = true) (hv : 1 ≤ v.toNat) :
    exec (.lzinv v) s =
      lziRun v.toNat { s with lzi := .active (s.srcPos.toNat + v.toNat) s.dstPos.toNat .token } := by
  simp only [exec, execLzinv, if_pos hspan, if_neg (Nat.one_le_iff_ne_zero.mp hv)]

/-- Settles O46: LZINV's run is a number of steps of the machine. -/
theorem lzinvIsItsElements : Obligations.LzinvIsItsElements := by
  intro v s hv hmax hspan
  obtain ⟨k, hk, hrun⟩ := lziRun_eq_run v.toNat { s with lzi := .active (s.srcPos.toNat + v.toNat) s.dstPos.toNat .token }
  exact ⟨k, hk, (exec_lzinv_legal (spanOk_of_le hmax hspan) hv).trans hrun⟩

/-! ### Runs of elements -/

/-- LZINV gets from the outcome `o` to the outcome `o'` in at most `n` elements. -/
def GetsTo (n : Nat) (o o' : Host.Outcome State Fault Refusal) : Prop :=
  ∃ k ≤ n, ∀ fuel, lziGoOn (fuel + k) o = lziGoOn fuel o'

theorem GetsTo.refl (o : Host.Outcome State Fault Refusal) : GetsTo 0 o o := ⟨0, le_rfl, fun _ => rfl⟩

theorem GetsTo.trans {m n : Nat} {o o' o'' : Host.Outcome State Fault Refusal} (h : GetsTo m o o') (h' : GetsTo n o' o'') :
    GetsTo (m + n) o o'' := by
  obtain ⟨j, hj, hrun⟩ := h
  obtain ⟨k, hk, hrun'⟩ := h'
  exact ⟨k + j, by omega, fun fuel => by rw [← Nat.add_assoc, hrun, hrun']⟩

theorem getsTo_step {sEnd d0 : Nat} {phase : LziPhase} {s : State} (hl : s.lzi = .active sEnd d0 phase) :
    GetsTo 1 (.next s) (lziStep phase s) := ⟨1, le_rfl, fun fuel => lziRun_active hl fuel⟩

/-- From where LZINV is put before an element to what the element comes to. -/
theorem getsTo_at {sEnd d0 : Nat} {phase : LziPhase} {s : State} {o : Host.Outcome State Fault Refusal}
    (h : lziStep phase { s with lzi := .active sEnd d0 phase } = o) : GetsTo 1 (lziAt sEnd d0 phase s) o :=
  h ▸ getsTo_step (s := { s with lzi := .active sEnd d0 phase }) rfl

/-- A run that gets to a state between commands within its fuel ends there. -/
theorem GetsTo.lziRun_eq {n fuel : Nat} {s t : State} (h : GetsTo n (.next s) (.next t)) (hidle : t.lzi = .idle)
    (hn : n ≤ fuel) : lziRun fuel s = .next t := by
  obtain ⟨k, hk, hrun⟩ := h
  have hstop : lziRun (fuel - k) t = .next t := by cases fuel - k <;> simp only [lziRun, hidle]
  have := hrun (fuel - k)
  rw [Nat.sub_add_cancel (hk.trans hn)] at this
  exact this.trans hstop

/-! ### Bytes ahead of the read cursor -/

/-- The bytes stand at the read cursor, inside the 32 bits the cursor can count. -/
def Ahead (bytes : List Byte) (s : State) : Prop :=
  memReadBytes s.src s.srcPos.toNat bytes.length = some bytes ∧ s.srcPos.toNat + bytes.length < 2 ^ 32

theorem Ahead.read {bytes : List Byte} {s : State} (h : Ahead bytes s) {i : Nat} (hi : i < bytes.length) :
    memRead s.src (s.srcPos.toNat + i) = bytes[i]? := ((memReadBytes_eq_some _ _ _ _).mp h.1).2 i hi

theorem Ahead.head {b : Byte} {bytes : List Byte} {s : State} (h : Ahead (b :: bytes) s) :
    memRead s.src s.srcPos.toNat = some b := h.read (Nat.zero_lt_succ _)

theorem Ahead.srcPos {l m : List Byte} {s : State} (h : Ahead (l ++ m) s) :
    (stepOver l.length s).srcPos.toNat = s.srcPos.toNat + l.length := by
  obtain ⟨-, hlt⟩ := h
  rw [List.length_append] at hlt
  exact stepOver_srcPos (by omega)

/-- Of bytes ahead the first are ahead. -/
theorem Ahead.left {l m : List Byte} {s : State} (h : Ahead (l ++ m) s) : Ahead l s := by
  refine ⟨(memReadBytes_eq_some _ _ _ _).mpr ⟨rfl, fun i hi => ?_⟩, ?_⟩
  · rw [h.read (by rw [List.length_append]; omega), List.getElem?_append_left hi]
  · obtain ⟨-, hlt⟩ := h
    rw [List.length_append] at hlt
    omega

/-- Behind the first bytes ahead the others are ahead. -/
theorem Ahead.right {l m : List Byte} {s : State} (h : Ahead (l ++ m) s) : Ahead m (stepOver l.length s) := by
  refine ⟨(memReadBytes_eq_some _ _ _ _).mpr ⟨rfl, fun i hi => ?_⟩, ?_⟩
  · rw [h.srcPos, Nat.add_assoc]
    have := h.read (i := l.length + i) (by rw [List.length_append]; omega)
    rw [List.getElem?_append_right (Nat.le_add_right _ _), Nat.add_sub_cancel_left] at this
    exact this
  · obtain ⟨-, hlt⟩ := id h
    rw [h.srcPos]
    rw [List.length_append] at hlt
    omega

theorem Ahead.tail {b : Byte} {bytes : List Byte} {s : State} (h : Ahead (b :: bytes) s) : Ahead bytes (stepOver 1 s) :=
  Ahead.right (l := [b]) h

theorem stepOver_zero (s : State) : stepOver 0 s = s := by
  simp [stepOver]

theorem stepOver_stepOver (j k : Nat) (s : State) : stepOver k (stepOver j s) = stepOver (j + k) s := by
  simp only [stepOver, BitVec.ofNat_add, BitVec.add_assoc]

/-! ### The fetch of one element -/

theorem lziByte_eq {s : State} {b : Byte} (h : memRead s.src s.srcPos.toNat = some b) :
    lziByte s = some (b, stepOver 1 s) := by
  rw [lziByte, h]
  rfl

theorem lziStep_token {lit mat : BitVec 4} {s : State} (h : memRead s.src s.srcPos.toNat = some (tokenByte lit mat)) :
    lziStep .token s = lziToken lit mat (stepOver 1 s) := by
  simp only [lziStep, lziFetch, lziByte_eq h, decodeToken_tokenByte]

theorem lziStep_litExt {len mat : Nat} {e : Byte} {s : State} (h : memRead s.src s.srcPos.toNat = some e) :
    lziStep (.litExt len mat) s = lziLenExt e (stepOver 1 s) := by
  simp only [lziStep, lziFetch, lziByte_eq h]

theorem lziStep_matchExt {dist len : Nat} {e : Byte} {s : State} (h : memRead s.src s.srcPos.toNat = some e) :
    lziStep (.matchExt dist len) s = lziLenExt e (stepOver 1 s) := by
  simp only [lziStep, lziFetch, lziByte_eq h]

theorem lziStep_literals {left mat : Nat} {b : Byte} {s : State} (h : memRead s.src s.srcPos.toNat = some b) :
    lziStep (.literals left mat) s = lziLiteral b (stepOver 1 s) := by
  simp only [lziStep, lziFetch, lziByte_eq h]

theorem lziStep_dist {mat : Nat} {d : BitVec 16} {s : State} (h : Ahead (distBytes d) s) :
    lziStep (.dist mat) s = lziDist d (stepOver 2 s) := by
  simp only [lziStep, lziFetch, lziByte_eq h.head, lziByte_eq h.tail.head, decodeDist_distBytes, stepOver_stepOver]

/-! ### The length extensions (30 R76, R77) -/

theorem writeLen_of_lt {n : Nat} (h : n < 255) : writeLen n = [BitVec.ofNat 8 n] := by
  rw [writeLen, Nat.div_eq_of_lt h, Nat.mod_eq_of_lt h]
  rfl

theorem writeLen_add (n : Nat) : writeLen (n + 255) = 255 :: writeLen n := by
  rw [writeLen, Nat.add_div_right n (by decide), Nat.add_mod_right]
  rfl

/-- The two extensions of a sequence: `phase` is where LZINV stands before a byte of the one, `after` what it does once the
length is known, wherever it stands (44 R192, R194). -/
structure IsExtension (sEnd d0 : Nat) (phase : Nat → LziPhase)
    (after : Nat → State → Host.Outcome State Fault Refusal) : Prop where
  step : ∀ (len : Nat) (e : Byte) (s : State), s.lzi = .active sEnd d0 (phase len) →
    memRead s.src s.srcPos.toNat = some e → lziStep (phase len) s =
      if e = 255 then lziExtension sEnd d0 (phase (len + 255)) (stepOver 1 s) else after (len + e.toNat) (stepOver 1 s)
  anywhere : ∀ (len : Nat) (s : State) (l : Lzi), after len { s with lzi := l } = after len s

theorem isExtension_literals (sEnd d0 mat : Nat) :
    IsExtension sEnd d0 (.litExt · mat) (lziLiterals sEnd d0 · mat) where
  step _ e _ hl h := (lziStep_litExt h).trans (lziLenExt_at_literals e hl)
  anywhere _ _ _ := rfl

theorem isExtension_match (sEnd d0 dist : Nat) :
    IsExtension sEnd d0 (.matchExt dist ·) (lziMatch sEnd d0 dist ·) where
  step _ e _ hl h := (lziStep_matchExt h).trans (lziLenExt_at_match e hl)
  anywhere _ _ _ := rfl

/-- One byte of an extension. -/
theorem getsTo_extension_byte {sEnd d0 : Nat} {phase : Nat → LziPhase}
    {after : Nat → State → Host.Outcome State Fault Refusal} (hext : IsExtension sEnd d0 phase after) (len : Nat) {e : Byte}
    {s : State} (h : memRead s.src s.srcPos.toNat = some e) (hend : s.srcPos.toNat < sEnd) :
    GetsTo 1 (lziExtension sEnd d0 (phase len) s)
      (if e = 255 then lziExtension sEnd d0 (phase (len + 255)) (stepOver 1 s) else after (len + e.toNat) (stepOver 1 s)) := by
  have hstep := hext.step len e { s with lzi := .active sEnd d0 (phase len) } rfl h
  have hafter : after (len + e.toNat) (stepOver 1 { s with lzi := .active sEnd d0 (phase len) }) = _ :=
    hext.anywhere (len + e.toNat) (stepOver 1 s) _
  rw [hafter] at hstep
  rw [lziExtension_of_lt _ hend]
  exact getsTo_at hstep

/-- Over the bytes of an extension the length grows by the number they stand for (30 R76, R77). -/
theorem getsTo_extension {sEnd d0 : Nat} {phase : Nat → LziPhase}
    {after : Nat → State → Host.Outcome State Fault Refusal} (hext : IsExtension sEnd d0 phase after) (n len : Nat)
    {s : State} (h : Ahead (writeLen n) s) (hend : s.srcPos.toNat + (writeLen n).length ≤ sEnd) :
    GetsTo (writeLen n).length (lziExtension sEnd d0 (phase len) s) (after (len + n) (stepOver (writeLen n).length s)) := by
  induction n using Nat.strong_induction_on generalizing len s with
  | _ n ih =>
    by_cases hn : n < 255
    · have hbyte : (BitVec.ofNat 8 n).toNat = n := by rw [BitVec.toNat_ofNat, Nat.mod_eq_of_lt (by omega)]
      have hne : BitVec.ofNat 8 n ≠ 255 := fun he => by
        rw [he] at hbyte
        exact absurd hbyte.symm hn.ne
      rw [writeLen_of_lt hn] at h hend ⊢
      have hgo := getsTo_extension_byte hext len h.head (Nat.lt_of_succ_le hend)
      rwa [if_neg hne, hbyte] at hgo
    · obtain ⟨m, rfl⟩ : ∃ m, n = m + 255 := ⟨n - 255, by omega⟩
      rw [writeLen_add] at h hend ⊢
      rw [List.length_cons] at hend ⊢
      have hpos : (stepOver 1 s).srcPos.toNat = s.srcPos.toNat + 1 := Ahead.srcPos (l := [255]) h
      have hgo := (getsTo_extension_byte hext len h.head (by omega)).trans
        (ih m (by omega) (len + 255) h.tail (by omega))
      rwa [stepOver_stepOver, Nat.add_assoc len, Nat.add_comm 255 m, Nat.add_comm 1] at hgo

/-! ### The literals (30 R78, 44 R192) -/

/-- DST with the bytes written from the write cursor on, the cursor behind them. -/
def literalsCopied (bytes : List Byte) (s : State) : State :=
  { s with dst := memWriteBytes s.dst s.dstPos.toNat bytes, dstPos := s.dstPos + BitVec.ofNat 32 bytes.length }

theorem literalsCopied_nil (s : State) : literalsCopied [] s = s := by
  simp [literalsCopied, memWriteBytes]

theorem literalsCopied_cons {b : Byte} {bytes : List Byte} {s : State} (h : s.dstPos.toNat + 1 < 2 ^ 32) :
    literalsCopied bytes (literalCopied b s) = literalsCopied (b :: bytes) s := by
  have hpos : (s.dstPos + 1).toNat = s.dstPos.toNat + 1 := toNat_dstPos_literalCopied b h
  simp only [literalsCopied, literalCopied, memWriteBytes, hpos, List.length_cons, BitVec.add_assoc,
    Nat.add_comm bytes.length 1, BitVec.ofNat_add]
  rfl

/-- One literal. -/
theorem getsTo_literal {sEnd d0 left mat : Nat} {b : Byte} {s : State} (h : memRead s.src s.srcPos.toNat = some b) :
    GetsTo 1 (lziAt sEnd d0 (.literals left mat) s)
      (if left ≤ 1 then lziAfterLiterals sEnd d0 mat (literalCopied b (stepOver 1 s))
      else lziAt sEnd d0 (.literals (left - 1) mat) (literalCopied b (stepOver 1 s))) :=
  have hat : (stepOver 1 { s with lzi := .active sEnd d0 (.literals left mat) }).lzi =
    .active sEnd d0 (.literals left mat) := rfl
  getsTo_at ((lziStep_literals (by exact h)).trans (lziLiteral_at b hat))

/-- Over the literals ahead LZINV gets behind them, each copied. -/
theorem getsTo_literals {sEnd d0 mat : Nat} {lits : List Byte} {s : State} (hne : lits ≠ []) (h : Ahead lits s)
    (hdst : s.dstPos.toNat + lits.length < 2 ^ 32) :
    GetsTo lits.length (lziAt sEnd d0 (.literals lits.length mat) s)
      (lziAfterLiterals sEnd d0 mat (literalsCopied lits (stepOver lits.length s))) := by
  induction lits generalizing s with
  | nil => exact absurd rfl hne
  | cons b lits ih =>
    rw [List.length_cons] at hdst ⊢
    have hgo := getsTo_literal (sEnd := sEnd) (d0 := d0) (left := lits.length + 1) (mat := mat) h.head
    rw [← literalsCopied_cons (s := stepOver (lits.length + 1) s) (by change s.dstPos.toNat + 1 < _; omega)]
    cases hl : lits with
    | nil =>
      subst hl
      rw [literalsCopied_nil]
      exact hgo
    | cons c rest =>
      rw [← hl]
      have hpos := toNat_dstPos_literalCopied b (s := stepOver 1 s) (by change s.dstPos.toNat + 1 < _; omega)
      change _ = s.dstPos.toNat + 1 at hpos
      have hrest := ih (s := literalCopied b (stepOver 1 s)) (by rw [hl]; exact List.cons_ne_nil _ _) h.tail (by omega)
      rw [if_neg (by rw [hl, List.length_cons]; omega), Nat.add_sub_cancel] at hgo
      rw [Nat.add_comm lits.length 1] at hgo ⊢
      rw [← stepOver_stepOver]
      exact hgo.trans hrest

/-- With the literals' length known, LZINV gets behind them where they fit. -/
theorem getsTo_afterLiterals {sEnd d0 mat : Nat} {lits : List Byte} {s : State} (h : Ahead lits s)
    (hsrc : s.srcPos.toNat + lits.length ≤ sEnd) (hdst : s.dstPos.toNat + lits.length ≤ s.dstLen.toNat) :
    GetsTo lits.length (lziLiterals sEnd d0 lits.length mat s)
      (lziAfterLiterals sEnd d0 mat (literalsCopied lits (stepOver lits.length s))) := by
  have hlen := s.dstLen.isLt
  by_cases hne : lits = []
  · subst hne
    rw [literalsCopied_nil, List.length_nil, stepOver_zero, lziLiterals_zero _ hsrc hdst]
    exact GetsTo.refl _
  · rw [lziLiterals_fit mat hsrc hdst (mt List.length_eq_zero_iff.mp hne)]
    exact getsTo_literals hne h (by omega)

/-! ### One sequence (30 R74, 44 R192, R194) -/

theorem lengthNibble_of_lt {x : Nat} (h : x < 15) : (lengthNibble x).toNat = x ∧ lengthNibble x ≠ 15 := by
  have hx : (lengthNibble x).toNat = x := by
    simp only [lengthNibble, Config.nibbleCap, BitVec.toNat_ofNat]
    omega
  exact ⟨hx, fun he => by rw [he] at hx; exact absurd hx.symm h.ne⟩

theorem lengthNibble_of_le {x : Nat} (h : 15 ≤ x) : lengthNibble x = 15 := by
  rw [lengthNibble, Config.nibbleCap, Nat.min_eq_right h]
  rfl

/-- A length in two parts, the nibble and its extension: LZINV gets to what it does with the length (30 R75 to R77). -/
theorem getsTo_length {sEnd d0 : Nat} {phase : Nat → LziPhase}
    {after : Nat → State → Host.Outcome State Fault Refusal} (hext : IsExtension sEnd d0 phase after) (x : Nat)
    {s : State} (h : Ahead (lengthExtension x) s) (hend : s.srcPos.toNat + (lengthExtension x).length ≤ sEnd) :
    GetsTo (lengthExtension x).length
      (if lengthNibble x = 15 then lziExtension sEnd d0 (phase 15) s else after (lengthNibble x).toNat s)
      (after x (stepOver (lengthExtension x).length s)) := by
  by_cases hx : 15 ≤ x
  · have hbytes : lengthExtension x = writeLen (x - 15) := if_pos hx
    rw [hbytes] at h hend ⊢
    rw [if_pos (lengthNibble_of_le hx)]
    have hgo := getsTo_extension hext (x - 15) 15 h hend
    rwa [Nat.add_sub_of_le hx] at hgo
  · obtain ⟨hval, hne⟩ := lengthNibble_of_lt (Nat.not_le.mp hx)
    have hbytes : lengthExtension x = [] := if_neg hx
    rw [hbytes, if_neg hne, hval, List.length_nil, stepOver_zero]
    exact GetsTo.refl _

/-- The bytes of a sequence up to its last literal. -/
def literalPart (lits : List Byte) (mat : BitVec 4) : List Byte :=
  tokenByte (lengthNibble lits.length) mat :: lengthExtension lits.length ++ lits

theorem length_literalPart (lits : List Byte) (mat : BitVec 4) :
    (literalPart lits mat).length = 1 + (lengthExtension lits.length).length + lits.length := by
  rw [literalPart, List.length_append, List.length_cons, Nat.add_comm 1]

/-- From a token LZINV gets behind the literals it announces, each copied. -/
theorem getsTo_literalPart {sEnd d0 : Nat} {mat : BitVec 4} {lits : List Byte} {s : State}
    (hl : s.lzi = .active sEnd d0 .token) (h : Ahead (literalPart lits mat) s)
    (hsrc : s.srcPos.toNat + (literalPart lits mat).length ≤ sEnd) (hdst : s.dstPos.toNat + lits.length ≤ s.dstLen.toNat) :
    GetsTo (literalPart lits mat).length (.next s)
      (lziAfterLiterals sEnd d0 mat.toNat (literalsCopied lits (stepOver (literalPart lits mat).length s))) := by
  have hbytes : Ahead (lengthExtension lits.length ++ lits) (stepOver 1 s) := Ahead.tail h
  have hpos : (stepOver 1 s).srcPos.toNat = s.srcPos.toNat + 1 := Ahead.srcPos (l := [_]) h
  have htoken : lziStep .token s = _ := (lziStep_token (Ahead.head h)).trans (lziToken_at _ _ (s := stepOver 1 s) hl)
  rw [length_literalPart] at hsrc ⊢
  have hlen := getsTo_length (isExtension_literals sEnd d0 mat.toNat) lits.length hbytes.left (by omega)
  have hlits := getsTo_afterLiterals (sEnd := sEnd) (d0 := d0) (mat := mat.toNat) hbytes.right
    (by rw [hbytes.srcPos]; omega) hdst
  rw [stepOver_stepOver, stepOver_stepOver] at hlits
  rw [stepOver_stepOver] at hlen
  exact ((htoken ▸ getsTo_step hl).trans hlen).trans hlits

theorem toNat_dstPos_literalsCopied {lits : List Byte} {s : State} (h : s.dstPos.toNat + lits.length ≤ s.dstLen.toNat) :
    (literalsCopied lits s).dstPos.toNat = s.dstPos.toNat + lits.length := by
  have hlen := s.dstLen.isLt
  rw [literalsCopied, BitVec.toNat_add, BitVec.toNat_ofNat]
  omega

/-- From the distance on: LZINV gets to the match of the length the token and its extension say (44 R194). -/
theorem getsTo_match {sEnd d0 dist x : Nat} {s : State} (hdist : dist ≤ 65535)
    (h : Ahead (distBytes (BitVec.ofNat 16 dist) ++ lengthExtension x) s)
    (hsrc : s.srcPos.toNat + (2 + (lengthExtension x).length) ≤ sEnd) :
    GetsTo (1 + (lengthExtension x).length) (lziAfterLiterals sEnd d0 (lengthNibble x).toNat s)
      (lziMatch sEnd d0 dist x (stepOver (2 + (lengthExtension x).length) s)) := by
  have hval : (BitVec.ofNat 16 dist).toNat = dist := by rw [BitVec.toNat_ofNat, Nat.mod_eq_of_lt (by omega)]
  have hnib : (lengthNibble x).toNat = 15 ↔ lengthNibble x = 15 := BitVec.toNat_inj (y := 15)
  have hpos : (stepOver 2 s).srcPos.toNat = s.srcPos.toNat + 2 := h.srcPos
  have hat : (stepOver 2 { s with lzi := .active sEnd d0 (.dist (lengthNibble x).toNat) }).lzi =
    .active sEnd d0 (.dist (lengthNibble x).toNat) := rfl
  have hstep := getsTo_at ((lziStep_dist (by exact h.left)).trans (lziDist_at _ hat))
  have hlen := getsTo_length (isExtension_match sEnd d0 dist) x h.right
    (by change (stepOver 2 s).srcPos.toNat + _ ≤ _; omega)
  rw [lziAfterLiterals_goes_on _ (by omega)]
  rw [stepOver_stepOver] at hlen
  simp only [hval, hnib] at hstep
  exact hstep.trans hlen

/-! ### LZINV of a block of one sequence (44 R197) -/

/-- LZINV at the first byte of its span. -/
def lzinvStart (n : Nat) (s : State) : State := { s with lzi := .active (s.srcPos.toNat + n) s.dstPos.toNat .token }

/-- A legal span that holds the bytes: LZINV of it is the run of its elements, the bytes ahead. -/
theorem lzinv_starts {v : Word64} {bytes : List Byte} {s : State} (hmax : v.toNat ≤ 2 ^ 31 - 1)
    (hspan : s.srcPos.toNat + v.toNat ≤ s.srcLen.toNat) (hread : memReadBytes s.src s.srcPos.toNat v.toNat = some bytes)
    (hne : bytes ≠ []) :
    bytes.length = v.toNat ∧ Ahead bytes (lzinvStart v.toNat s) ∧
      exec (.lzinv v) s = lziRun v.toNat (lzinvStart v.toNat s) := by
  have hlen := length_of_memReadBytes hread
  have hpos := List.length_pos_of_ne_nil hne
  have hlt := s.srcLen.isLt
  refine ⟨hlen, ⟨hlen ▸ hread, ?_⟩, exec_lzinv_legal (spanOk_of_le hmax hspan) (by omega)⟩
  change s.srcPos.toNat + bytes.length < 2 ^ 32
  omega

/-- LZINV over a block that begins with the literal part of a sequence: what it has done behind the literals. -/
theorem lzinvStart_getsTo {n : Nat} {mat : BitVec 4} {lits rest : List Byte} {s : State}
    (h : Ahead (literalPart lits mat ++ rest) (lzinvStart n s)) (hn : (literalPart lits mat).length ≤ n)
    (hroom : s.dstPos.toNat + lits.length ≤ s.dstLen.toNat) :
    ∃ u, GetsTo (literalPart lits mat).length (.next (lzinvStart n s))
        (lziAfterLiterals (s.srcPos.toNat + n) s.dstPos.toNat mat.toNat u) ∧
      u = { s with srcPos := u.srcPos, dst := u.dst, dstPos := u.dstPos, lzi := u.lzi } ∧
      u.srcPos.toNat = s.srcPos.toNat + (literalPart lits mat).length ∧
      u.dstPos.toNat = s.dstPos.toNat + lits.length ∧
      memReadBytes u.dst s.dstPos.toNat lits.length = some lits ∧ Ahead rest u :=
  ⟨_, getsTo_literalPart (s := lzinvStart n s) rfl h.left (Nat.add_le_add_left hn _) hroom, rfl, h.srcPos,
    toNat_dstPos_literalsCopied hroom, memReadBytes_memWriteBytes _ _ _, h.right⟩

/-- Settles O41: the token, the extension and the literals take the whole span, and the command ends there. -/
theorem lzinvExpandsALiteralRun : Obligations.LzinvExpandsALiteralRun := by
  intro v lits s hmax hspan hroom hread
  obtain ⟨hlen, hahead, hexec⟩ := lzinv_starts hmax hspan hread (List.cons_ne_nil _ _)
  have hlit : lastSequenceBytes lits = literalPart lits 0 ++ [] := (List.append_nil _).symm
  have hn : (literalPart lits 0).length = v.toNat := by rw [← hlen, hlit, List.append_nil]
  rw [hlit] at hahead
  obtain ⟨u, hgo, hu, hsrc, hdst, hlits, -⟩ := lzinvStart_getsTo hahead hn.le hroom
  rw [hn] at hgo hsrc
  rw [lziAfterLiterals_at_end _ hsrc, hdst, Nat.add_sub_cancel_left] at hgo
  refine ⟨_, hexec.trans (hgo.lziRun_eq rfl le_rfl), hlits, hsrc, hdst, rfl, ?_⟩
  rw [respond_responses, hu]

theorem written_of_memReadBytes {m : Memory} {a n x : Nat} {bytes : List Byte} (h : memReadBytes m a n = some bytes)
    (hle : a ≤ x) (hlt : x < a + n) : memRead m x ≠ none := by
  obtain ⟨hlen, hread⟩ := (memReadBytes_eq_some m a n bytes).mp h
  obtain ⟨i, rfl⟩ := Nat.exists_eq_add_of_le hle
  rw [hread i (by omega), ne_eq, List.getElem?_eq_none_iff]
  omega

theorem memReadBytes_congr {m m' : Memory} {a n : Nat} {bytes : List Byte}
    (hsame : ∀ i < n, memRead m' (a + i) = memRead m (a + i)) (h : memReadBytes m a n = some bytes) :
    memReadBytes m' a n = some bytes := by
  obtain ⟨hlen, hread⟩ := (memReadBytes_eq_some m a n bytes).mp h
  exact (memReadBytes_eq_some m' a n bytes).mpr ⟨hlen, fun i hi => (hsame i hi).trans (hread i hi)⟩

/-- Settles O42: behind the literals the distance and the extension take the rest of the span, and the match is copied. -/
theorem lzinvRepeatsTheMatch : Obligations.LzinvRepeatsTheMatch := by
  intro v lits dist x s hmax hspan hpos hmaxdist hdist hroom hread
  obtain ⟨hlen, hahead, hexec⟩ := lzinv_starts hmax hspan hread (List.cons_ne_nil _ _)
  have hseq : sequenceBytes lits dist x = literalPart lits (lengthNibble x) ++
      (distBytes (BitVec.ofNat 16 dist) ++ lengthExtension x) := List.append_assoc _ _ _
  have hn : (literalPart lits (lengthNibble x)).length + (2 + (lengthExtension x).length) = v.toNat := by
    rw [← hlen, hseq, List.length_append, List.length_append]
    rfl
  rw [hseq] at hahead
  obtain ⟨u, hgo, hu, hsrc, hdst, hlits, hrest⟩ := lzinvStart_getsTo hahead (by omega) (by omega)
  have hmatch := getsTo_match (sEnd := s.srcPos.toNat + v.toNat) (d0 := s.dstPos.toNat) hmaxdist hrest (by omega)
  generalize hw : stepOver (2 + (lengthExtension x).length) u = w at hmatch
  have hcursor : w.dstPos.toNat = s.dstPos.toNat + lits.length := by rw [← hw]; exact hdst
  have hbytes : memReadBytes w.dst s.dstPos.toNat lits.length = some lits := by rw [← hw]; exact hlits
  have hview : w.dstLen = s.dstLen := by rw [← hw, hu]; rfl
  have hresp : w.responses = s.responses := by rw [← hw, hu]; rfl
  have hend : w.srcPos.toNat = s.srcPos.toNat + v.toNat := by
    have hlt := s.srcLen.isLt
    rw [← hw, stepOver_srcPos (by omega)]
    omega
  obtain ⟨t, ht, hcursor', hrun, hframe, -, hlzi, hresp'⟩ := lziMatch_copies (sEnd := s.srcPos.toNat + v.toNat)
    (d0 := s.dstPos.toNat) (s := w) (len := x) (Nat.one_le_iff_ne_zero.mp hpos) (by omega)
    (by rw [hcursor, hview]; exact hroom)
    (fun a hle hlt => written_of_memReadBytes hbytes hle (hcursor ▸ hlt)) hend.le
  rw [if_pos hend] at hlzi hresp'
  rw [hcursor] at hcursor' hrun hframe hresp'
  have hgets := hgo.trans (ht ▸ hmatch)
  refine ⟨t, hexec.trans (hgets.lziRun_eq hlzi (by omega)), ?_, hrun, hcursor', hlzi, ?_⟩
  · exact memReadBytes_congr (fun i hi => hframe _ (.inl (by omega))) hbytes
  · rw [hresp', hresp, Nat.add_assoc, Nat.add_sub_cancel_left]

end Sys2Proof.Machine
end

section
/-! PROOFS. Admission (40 R102, 41 R122, 60 R230): what the stream commands answer on a unit that is faulted or closed and on
operands out of range, each with nothing changed, and WCOUNT (40 R108). -/

namespace Sys2Proof.Machine

/-! ### The admission tests -/

theorem writerAdmission_faulted {s : State} (hio : s.writer.ioFault = true) : writerAdmission s = some .ioFailure :=
  if_pos hio

theorem writerAdmission_closed {s : State} (hio : s.writer.ioFault = false) (hcl : s.writer.closed = true) :
    writerAdmission s = some .streamClosed := by
  simp only [writerAdmission, hio, Bool.false_eq_true, if_false, hcl, if_true]

theorem writerFault_faulted {s : State} (hio : s.writer.ioFault = true) : writerFault s = some .ioFailure := if_pos hio

theorem readerFault_faulted {s : State} (hio : s.reader.ioFault = true) : readerFault s = some .ioFailure := if_pos hio

theorem readerFault_of_unfaulted {s : State} (hio : s.reader.ioFault = false) : readerFault s = none :=
  if_neg (Bool.eq_false_iff.mp hio)

theorem admitted_refused {test : Option Status} {body : State → Host.Outcome State Fault Refusal} {s : State}
    {st : Status} (h : test = some st) : admitted test body s = .next (respond s st 0) := by
  rw [h]
  rfl

/-- Every write command begins with the writer's admission test. -/
theorem exec_writeCommand_refused {i : Instr} {s : State} {st : Status} (h : writeCommand i = true)
    (ht : writerAdmission s = some st) : exec i s = .next (respond s st 0) := by
  cases i with
  | wbit b => simp only [exec, execWbit, admitted_refused ht]
  | wbits a v => simp only [exec, execWbits, admitted_refused ht]
  | wflush => simp only [exec, execWflush, admitted_refused ht]
  | egenc v => simp only [exec, execEgenc, admitted_refused ht]
  | _ => cases h

/-! ### WCLOSE, RCLOSE and WCOUNT -/

theorem exec_wclose_faulted {s : State} (hio : s.writer.ioFault = true) :
    exec .wclose s = .next (respond s .ioFailure 0) := by
  simp only [exec, execWclose_eq, admitted_refused (writerFault_faulted hio)]

theorem exec_wclose_closed {s : State} (hio : s.writer.ioFault = false) (hcl : s.writer.closed = true) :
    exec .wclose s = .next (respond s .ok 0) := by
  simp only [exec, execWclose_eq, writerFault_of_unfaulted hio, admitted, hcl, if_true]
  rfl

theorem exec_rclose_faulted {s : State} (hio : s.reader.ioFault = true) :
    exec .rclose s = .next (respond s .ioFailure 0) := by
  simp only [exec, execRclose, admitted_refused (readerFault_faulted hio)]

theorem exec_rclose_closed {s : State} (hio : s.reader.ioFault = false) (hcl : s.reader.closed = true) :
    exec .rclose s = .next (respond s .ok 0) := by
  simp only [exec, execRclose, readerFault_of_unfaulted hio, admitted, hcl, if_true]
  rfl

theorem exec_wcount_unfaulted {s : State} (hio : s.writer.ioFault = false) :
    exec .wcount s = .next (respond s .ok s.writer.count) :=
  if_neg (Bool.eq_false_iff.mp hio)

theorem exec_wcount_faulted {s : State} (hio : s.writer.ioFault = true) :
    exec .wcount s = .next (respond (nextDraw s) .ok (Config.freeWCount s.env.draws)) :=
  if_pos hio

/-- Settles O10: the writer's admission test decides every write command; WCLOSE and WCOUNT do not make it. -/
theorem writersAreAdmitted : Obligations.WritersAreAdmitted := by
  intro i s hi
  refine ⟨fun hio => ?_, fun hio hcl => ⟨?_, exec_wclose_closed hio hcl, exec_wcount_unfaulted hio⟩⟩
  · exact exec_writeCommand_refused hi (writerAdmission_faulted hio)
  · exact exec_writeCommand_refused hi (writerAdmission_closed hio hcl)

/-- Settles O15: the fault is tested first, then whether the unit is closed. -/
theorem closesAreIdempotent : Obligations.ClosesAreIdempotent := fun _ =>
  ⟨exec_wclose_faulted, exec_wclose_closed, exec_rclose_faulted, exec_rclose_closed⟩

/-- Settles O17: the counter where it has a value, else a free value drawn. -/
theorem wcountReturnsTheCount : Obligations.WcountReturnsTheCount := fun s =>
  ⟨exec_wcount_unfaulted, fun hio => ⟨Config.freeWCount s.env.draws, s.env.draws + 1, exec_wcount_faulted hio⟩⟩

/-! ### Operands out of range (60 R225) -/

theorem lengthOk_iff {a : BitVec 8} : lengthOk a = true ↔ 1 ≤ a.toNat ∧ a.toNat ≤ 64 := by
  rw [lengthOk, Bool.and_eq_true, decide_eq_true_eq, decide_eq_true_eq]
  rfl

theorem lengthOk_eq_false {a : BitVec 8} (h : a.toNat < 1 ∨ 64 < a.toNat) : lengthOk a = false := by
  rw [Bool.eq_false_iff, ne_eq, lengthOk_iff]
  omega

theorem symbolOk_iff {signed : Bool} {v : Word64} :
    symbolOk signed v = true ↔ (if signed then -255 else 0) ≤ v.toInt ∧ v.toInt ≤ 255 := by
  cases signed <;> exact Bool.and_eq_true_iff.trans (and_congr decide_eq_true_iff decide_eq_true_iff)

theorem symbolOk_eq_false {signed : Bool} {v : Word64} (h : 255 < v.toInt ∨ v.toInt < (if signed then -255 else 0)) :
    symbolOk signed v = false := by
  rw [Bool.eq_false_iff, ne_eq, symbolOk_iff]
  omega

/-- Settles O54: the operand is tested once the unit has admitted the command, and a bad one ends it. -/
theorem badOperandsChangeNothing : Obligations.BadOperandsChangeNothing := by
  refine ⟨fun a v s hio hcl ha => ?_, fun a s hio heos hcl ha => ?_, fun v s hio hcl hv => ?_⟩
  · simp only [exec, execWbits, writerAdmission_open hio hcl, admitted, lengthOk_eq_false ha]
    rfl
  · simp only [exec, execRbits, readerAdmission_eq_none_iff.mpr ⟨hio, heos, hcl⟩, admitted, lengthOk_eq_false ha]
    rfl
  · simp only [exec, execEgenc, writerAdmission_open hio hcl, admitted, symbolOk_eq_false hv]
    rfl

end Sys2Proof.Machine
end

section
/-! PROOFS. The write commands on an open writer, the sink answering (40 R100 to R106, R110), and the writer once it is closed
(40 R112). -/

namespace Sys2Proof.Machine

/-! ### WBIT (40 R103) -/

theorem exec_wbit_open {b : Bool} {s : State} (hio : s.writer.ioFault = false) (hcl : s.writer.closed = false) :
    exec (.wbit b) s = conclude (andThen (putBit b s) fun _ t => .done 0 t) := by
  simp only [exec, execWbit, writerAdmission_open hio hcl, admitted]

theorem packed_pos (b : Bool) (w : Writer) : (packed b w).pos = if w.bit = 0 then w.pos + 1 else w.pos := by
  by_cases hb : w.bit = 0
  · rw [packed_of_zero b hb, if_pos hb]
  · rw [packed_of_ne b hb, if_neg hb]

/-- Shifted as a number or as a byte: a bit in its place. -/
theorem ofNat_toNat_shiftLeft (b : Bool) (n : Nat) :
    BitVec.ofNat 8 b.toNat <<< n = (((if b then 1 else 0) <<< n : Nat) : Byte) := by
  have hb : b.toNat = if b then 1 else 0 := by cases b <;> rfl
  refine BitVec.eq_of_toNat_eq ?_
  rw [BitVec.natCast_eq_ofNat, BitVec.toNat_shiftLeft, BitVec.toNat_ofNat, BitVec.toNat_ofNat, hb, Nat.shiftLeft_eq,
    Nat.shiftLeft_eq, Nat.mod_mul_mod]

/-- The writer with one more bit, field by field (40 R100). -/
theorem packed_eq (b : Bool) (w : Writer) : packed b w = { w with
    buf := w.buf.set w.pos (w.buf.getD w.pos 0 ||| (((if b then 1 else 0) <<< w.bit.toNat : Nat) : Byte))
    count := w.count + 1
    bit := if w.bit = 0 then 7 else w.bit - 1
    pos := if w.bit = 0 then w.pos + 1 else w.pos } := by
  by_cases hb : w.bit = 0
  · rw [packed_of_zero b hb, ofNat_toNat_shiftLeft, if_pos hb, if_pos hb]
  · rw [packed_of_ne b hb, ofNat_toNat_shiftLeft, if_neg hb, if_neg hb]

/-- A bit that does not complete the buffer's last byte asks the sink for nothing. -/
theorem putBit_kept (b : Bool) {s : State} (h : ¬ (s.writer.bit = 0 ∧ s.writer.pos + 1 = s.cfg.wBufsz)) :
    putBit b s = .done () { s with writer := packed b s.writer } := by
  refine if_neg fun ⟨hb, hp⟩ => h ⟨hb, ?_⟩
  rw [packed_pos, if_pos hb] at hp
  exact hp

/-- The bit that completes the buffer's last byte flushes the buffer. -/
theorem putBit_full (b : Bool) {s : State} (hb : s.writer.bit = 0) (hp : s.writer.pos + 1 = s.cfg.wBufsz) :
    putBit b s = flushBuffer { s with writer := packed b s.writer } := by
  refine if_pos ⟨hb, ?_⟩
  rw [packed_pos, if_pos hb]
  exact hp

/-- Settles O11: the bit is packed; where it fills the buffer, all of the buffer is pushed, and an empty one is left. -/
theorem wbitPacksOneBit : Obligations.WbitPacksOneBit := by
  intro b s hok hio hcl buf
  refine ⟨fun hroom => ?_, fun hb hp hready => ?_⟩
  · rw [exec_wbit_open hio hcl, putBit_kept b hroom, packed_eq]
    rfl
  · have hflush := (flushBuffer_ready (n := 0) (s := { s with writer := packed b s.writer }) hready).1
    have hlen : buf.length = s.cfg.wBufsz := (List.length_set ..).trans hok.1
    have hall : buf.take s.cfg.wBufsz = buf := List.take_of_length_le hlen.le
    have hpacked := packed_eq b s.writer
    rw [if_pos hb, if_pos hb, hp] at hpacked
    have hcompacted := compacted_boundary (w := packed b s.writer) (by rw [hpacked])
    rw [exec_wbit_open hio hcl, putBit_full b hb hp, hflush, hcompacted, hpacked]
    simp only [Nat.ne_of_gt s.cfg.wBufsz_pos, if_false, andThen_done, conclude_done]
    rw [hall, hlen]
    rfl

/-! ### WFLUSH (40 R106) -/

theorem exec_wflush_open {s : State} (hio : s.writer.ioFault = false) (hcl : s.writer.closed = false) :
    exec .wflush s = conclude (andThen (flushBuffer s) fun _ t => .done 0 t) := by
  simp only [exec, execWflush, writerAdmission_open hio hcl, admitted]

/-- The writer once its complete bytes are gone, for a buffer that has room for the partial one (40 R101). -/
theorem compacted_eq {w : Writer} {n : Nat} (hlen : w.buf.length = n) (hn : 1 ≤ n) : compacted w = { w with
    buf := (if w.bit = 7 then 0 else w.buf.getD w.pos 0) :: List.replicate (n - 1) 0, pos := 0 } := by
  obtain ⟨n, rfl⟩ := Nat.exists_eq_add_of_le' hn
  simp only [compacted, hlen, List.replicate_succ, List.set_cons_zero, Nat.add_sub_cancel]

/-- Settles O13: FlushBuffer with a sink that answers, the buffer compacted. -/
theorem wflushPushesCompleteBytes : Obligations.WflushPushesCompleteBytes := by
  intro s hok hio hcl hready
  rw [exec_wflush_open hio hcl, (flushBuffer_ready (n := 0) hready).1, compacted_eq hok.1 s.cfg.wBufsz_pos]
  rfl

/-! ### WBITS (40 R104) -/

theorem exec_wbits_open {a : BitVec 8} {v : Word64} {s : State} (hio : s.writer.ioFault = false)
    (hcl : s.writer.closed = false) (ha : 1 ≤ a.toNat ∧ a.toNat ≤ 64) :
    exec (.wbits a v) s = conclude (andThen (putBits (bitsOf a.toNat v.toNat) s) fun _ t => .done (a.setWidth 64) t) := by
  simp only [exec, execWbits, writerAdmission_open hio hcl, admitted, lengthOk_iff.mpr ha, if_true]

/-- 64 bits complete at most eight bytes. -/
theorem completed_le {n : Nat} (hn : n ≤ 64) (bit : BitVec 3) : completed bit n ≤ 8 := by
  unfold completed
  omega

/-- WBITS with a sink that answers: its bits are put, sixteen answers are enough, the others are left. -/
theorem exec_wbits_answered {a : BitVec 8} {v : Word64} {m : Nat} {s : State} (ho : WriterOpen s)
    (hio : s.writer.ioFault = false) (ha : 1 ≤ a.toNat ∧ a.toNat ≤ 64) (h : sinkReady (m + 16) s) :
    ∃ t, exec (.wbits a v) s = .next t ∧ BitsPut (bitsOf a.toNat v.toNat) s t ∧ t.writer.ioFault = false ∧
      sinkReady m t ∧ t.responses = s.responses ++ [{ status := .ok, val := BitVec.ofNat 64 a.toNat }] := by
  have hanswers := completed_le ha.2 s.writer.bit
  obtain ⟨t, ht, hready, hput, hframe, hfault⟩ := putBits_answered (bs := bitsOf a.toNat v.toNat) (m := m) ho hio
    (sinkReady_mono h (by rw [length_bitsOf]; omega))
  refine ⟨respond t .ok (BitVec.ofNat 64 a.toNat), ?_, hput, hfault, hready, congrArg (· ++ _) hframe.responses⟩
  rw [exec_wbits_open hio ho.2 ha, ht, BitVec.ofNat_toNat]
  rfl

/-- Settles O12: the bits WBITS puts are the low bits of its value. -/
theorem wbitsAppendsTheLowBits : Obligations.WbitsAppendsTheLowBits := by
  intro a v s hok hio hcl hlo hhi hready
  obtain ⟨t, he, ⟨⟨hok', hcl'⟩, hbits, hcount, -⟩, hio', -, hresp⟩ :=
    exec_wbits_answered (v := v) (m := 0) ⟨hok, hcl⟩ hio ⟨hlo, hhi⟩ hready
  refine ⟨t, he, ?_, ?_, hok', hio', hcl', hresp⟩
  · rw [hbits, bitsOf_eq_map]
    rfl
  · rw [hcount, length_bitsOf]

/-! ### After a close (40 R112) -/

/-- What WCLOSE on an open writer leaves where no request fails: the writer closed, the padding counted. -/
theorem closing_closes {s : State} (ho : WriterOpen s) : (closing s).Meets
    (fun _ t => t.writer.closed = true ∧ t.writer.count = s.writer.count + BitVec.ofNat 64 (padCount s.writer))
    fun _ _ => True := by
  refine (putBits_stream _ ho).andThen fun _ t ⟨hot, _, hfilled, _⟩ => ?_
  refine (putBits_stream _ hot).andThen fun _ u ⟨_, _, hpadded, _⟩ => ?_
  refine (flushBuffer_empties u).andThen fun _ v ⟨hflushed, _⟩ => ?_
  refine (sinkClose_done v).andThen fun _ w ⟨hw, _⟩ => ⟨rfl, ?_⟩
  rw [List.length_replicate] at hfilled hpadded
  calc w.writer.count = v.writer.count := congrArg Writer.count hw
    _ = s.writer.count + BitVec.ofNat 64 (fillCount s.writer) + BitVec.ofNat 64 (padCount t.writer) := by
      rw [hflushed, hpadded, hfilled]
    _ = s.writer.count + BitVec.ofNat 64 (padCount s.writer) := by
      rw [BitVec.add_assoc, ← BitVec.ofNat_add, (fillCount_add_padCount ho.1 hfilled).1]

/-- Counting the padding does not wrap where a whole word of 64 bits would not. -/
theorem count_le_add_padCount {w : Writer} (h : w.count.toNat + 64 ≤ 2 ^ 64) :
    w.count.toNat ≤ (w.count + BitVec.ofNat 64 (padCount w)).toNat := by
  have hpad : padCount w < 64 := Nat.mod_lt _ (by decide)
  rw [BitVec.toNat_add, BitVec.toNat_ofNat]
  omega

/-- A writer that a successful WCLOSE leaves is closed and without fault, its count padded. -/
theorem wclose_ok {s t : State} (hinv : WriterInv s) (hwrap : s.writer.count.toNat + 64 ≤ 2 ^ 64)
    (he : exec .wclose s = .next t) (hresp : t.responses = s.responses ++ [{ status := .ok, val := 0 }]) :
    t.writer.ioFault = false ∧ t.writer.closed = true ∧ t.writer.count.toNat % 64 = 0 ∧
      s.writer.count.toNat ≤ t.writer.count.toNat := by
  cases hio : s.writer.ioFault with
  | true =>
    cases (exec_wclose_faulted hio).symm.trans he
    cases List.append_cancel_left hresp
  | false =>
    have hok := hinv hio
    cases hcl : s.writer.closed with
    | true =>
      cases (exec_wclose_closed hio hcl).symm.trans he
      obtain ⟨-, -, -, -, -, hclosed⟩ := hok
      obtain ⟨-, -, -, hmod⟩ := hclosed hcl
      exact ⟨hio, hcl, hmod, le_rfl⟩
    | false =>
      have hio' : t.writer.ioFault = false := by
        have hfailed := (sinkFailureIsRecorded.1 .wclose s t rfl hio he).1
        rw [hresp, List.append_cancel_left_eq] at hfailed
        exact Bool.eq_false_iff.mpr fun h => by cases hfailed.mp h
      rw [exec_wclose_open hio hcl] at he
      rcases conclude_of_meets ((closing_closes ⟨hok, hcl⟩).and (wclose_ends s)) with
        ⟨v, u, e, ⟨hclosed, hcount⟩, -⟩ | ⟨st, u, e, -, -, hfault⟩
      · cases e.symm.trans he
        refine ⟨hio', hclosed, ?_, ?_⟩
        · rw [respond_writer, hcount]
          exact padCount_count s.writer
        · rw [respond_writer, hcount]
          exact count_le_add_padCount hwrap
      · cases e.symm.trans he
        exact absurd (hfault.symm.trans hio') (by decide)

/-- Settles O16: the writer is closed and without fault, so every write is refused at admission. -/
theorem afterCloseWritesFail : Obligations.AfterCloseWritesFail := by
  intro s t hinv hwrap he hresp
  obtain ⟨hio, hcl, hmod, hle⟩ := wclose_ok hinv hwrap he hresp
  exact ⟨hmod, hle, fun i hi => exec_writeCommand_refused hi (writerAdmission_closed hio hcl)⟩

end Sys2Proof.Machine
end

section
/-! PROOFS. Fields written are read back (40 R111): a run of WBITS puts the fields' bits one after another, a run of RBITS
takes them off again. -/

namespace Sys2Proof.Machine

/-- The bits of a list of fields, each a length and a value (40 R104). -/
def fieldBits (fields : List (BitVec 8 × Word64)) : List Bool := fields.flatMap fun f => bitsOf f.1.toNat f.2.toNat

@[simp] theorem fieldBits_cons (f : BitVec 8 × Word64) (fields : List (BitVec 8 × Word64)) :
    fieldBits (f :: fields) = bitsOf f.1.toNat f.2.toNat ++ fieldBits fields := rfl

/-! ### Commands one after another -/

theorem execAll_cons {i : Instr} {s t : State} (is : List Instr) (h : exec i s = .next t) :
    execAll (i :: is) s = execAll is t := by
  rw [execAll, h]

/-- The fields written one after another with a sink that answers. -/
theorem execAll_wbits {fields : List (BitVec 8 × Word64)} {m : Nat} {s : State} (rest : List Instr)
    (hlen : ∀ f ∈ fields, 1 ≤ f.1.toNat ∧ f.1.toNat ≤ 64) (ho : WriterOpen s) (hio : s.writer.ioFault = false)
    (h : sinkReady (16 * fields.length + m) s) :
    ∃ t, execAll (fields.map (fun f => .wbits f.1 f.2) ++ rest) s = execAll rest t ∧ WriterOpen t ∧
      t.writer.ioFault = false ∧ sinkReady m t ∧ writtenBits t = writtenBits s ++ fieldBits fields := by
  induction fields generalizing s with
  | nil => exact ⟨s, rfl, ho, hio, sinkReady_mono h (by simp), (List.append_nil _).symm⟩
  | cons f fields ih =>
    obtain ⟨hf, hfields⟩ := List.forall_mem_cons.mp hlen
    obtain ⟨t, he, ⟨hot, hbits, -⟩, hiot, hready, -⟩ := exec_wbits_answered (v := f.2) (m := 16 * fields.length + m) ho
      hio hf (sinkReady_mono h (by rw [List.length_cons]; omega))
    obtain ⟨u, hu, hou, hiou, hready', hbits'⟩ := ih hfields hot hiot hready
    refine ⟨u, (execAll_cons _ he).trans hu, hou, hiou, hready', ?_⟩
    rw [hbits', hbits, List.append_assoc, fieldBits_cons]

/-! ### RBITS (41 R124) -/

theorem exec_rbits_open {a : BitVec 8} {s : State} (ho : ReaderOpen s) (ha : 1 ≤ a.toNat ∧ a.toNat ≤ 64) :
    exec (.rbits a) s = conclude (andThen (getBits a.toNat 0 s) fun x t => .done (BitVec.ofNat 64 x) t) := by
  simp only [exec, execRbits, readerAdmission_eq_none_iff.mpr ho.2, admitted, lengthOk_iff.mpr ha, if_true]

/-- Of 64 bits at most eight stand first in their byte. -/
theorem starts_le {n : Nat} (hn : n ≤ 64) (bit : BitVec 3) : starts bit n ≤ 8 := by
  unfold starts
  omega

/-- RBITS with a source that answers: it takes its bits off the stream, eight answers are enough, the others are left. -/
theorem exec_rbits_answered {a : BitVec 8} {m : Nat} {s : State} (ho : ReaderOpen s) (ha : 1 ≤ a.toNat ∧ a.toNat ≤ 64)
    (h : sourceReady (m + 8) s) (hpend : a.toNat ≤ (pendingBits s).length) :
    ∃ t, exec (.rbits a) s = .next t ∧ ReaderOpen t ∧ sourceReady m t ∧
      pendingBits t = (pendingBits s).drop a.toNat ∧ t.reader.count = s.reader.count + BitVec.ofNat 64 a.toNat ∧
      t.responses = s.responses ++
        [{ status := .ok, val := BitVec.ofNat 64 (ofBits ((pendingBits s).take a.toNat)) }] := by
  have hanswers := starts_le ha.2 s.reader.bit
  obtain ⟨y, t, ht, hready⟩ := (getBits_ready a.toNat 0 (m := m) ho (sourceReady_mono h (by omega))).1 hpend
  have hstream := getBits_stream a.toNat 0 ho
  have hreads := getBits_reads a.toNat 0 s
  rw [ht] at hstream hreads
  obtain ⟨hot, -, hrest, hy, hcount⟩ := hstream
  have hresp : t.responses = s.responses := hreads.1.egdecFrame.responses
  refine ⟨respond t .ok (BitVec.ofNat 64 y), ?_, hot, hready, hrest, hcount, ?_⟩
  · rw [exec_rbits_open ho ha, ht]
    rfl
  · rw [respond_responses, hresp, hy]
    rfl

/-- The fields read one after another, from a stream that begins with their bits. -/
theorem execAll_rbits {fields : List (BitVec 8 × Word64)} {more : List Bool} {s : State}
    (hlen : ∀ f ∈ fields, 1 ≤ f.1.toNat ∧ f.1.toNat ≤ 64) (ho : ReaderOpen s) (h : sourceReady (8 * fields.length) s)
    (hpend : pendingBits s = fieldBits fields ++ more) :
    ∃ t, execAll (fields.map fun f => .rbits f.1) s = .next t ∧
      t.responses = s.responses ++ fields.map fun f =>
        { status := .ok, val := BitVec.ofNat 64 (f.2.toNat % 2 ^ f.1.toNat) } := by
  induction fields generalizing s with
  | nil => exact ⟨s, rfl, (List.append_nil _).symm⟩
  | cons f fields ih =>
    obtain ⟨hf, hfields⟩ := List.forall_mem_cons.mp hlen
    rw [fieldBits_cons, List.append_assoc] at hpend
    have hbits : (bitsOf f.1.toNat f.2.toNat).length = f.1.toNat := length_bitsOf _ _
    obtain ⟨t, he, hot, hready, hrest, -, hresp⟩ := exec_rbits_answered (m := 8 * fields.length) ho hf
      (sourceReady_mono h (by rw [List.length_cons]; omega)) (by rw [hpend, List.length_append, hbits]; omega)
    rw [hpend, List.drop_left' hbits] at hrest
    rw [hpend, List.take_left' hbits, ofBits_bitsOf] at hresp
    obtain ⟨u, hu, hresp'⟩ := ih hfields hot hready hrest
    exact ⟨u, (execAll_cons _ he).trans hu, by rw [hresp', hresp, List.append_assoc]; rfl⟩

/-- Settles O28: the sink has the fields' bits with the padding behind them, and the reader takes the fields off the front. -/
theorem writtenFieldsAreReadBack : Obligations.WrittenFieldsAreReadBack := by
  intro fields s t u hlen hok hio hcl hempty hready hwrite hoku hiou heos hclu hpend hsource
  obtain ⟨w, hw, ⟨hokw, hclw⟩, hiow, hreadyw, hbits⟩ := execAll_wbits [.wclose] hlen ⟨hok, hcl⟩ hio hready
  obtain ⟨x, hx, hsink, -⟩ := wclosePadsAndCloses w hokw hiow hclw hreadyw
  have htx : t = x := by
    have hrun : execAll [.wclose] w = .next x := execAll_cons [] hx
    cases (hw.trans hrun).symm.trans hwrite
    rfl
  rw [htx, hsink, hbits, hempty, List.nil_append] at hpend
  exact execAll_rbits hlen ⟨hoku, hiou, heos, hclu⟩ hsource hpend

end Sys2Proof.Machine
end

section
/-! PROOFS. The reader's commands (41 R122 to R127): admission, RCOUNT and RCLOSE, the read commands on an open reader with a
source that answers, and their end where the source has no bit left. -/

namespace Sys2Proof.Machine

/-! ### Admission (41 R122, 60 R230) -/

theorem readerAdmission_faulted {s : State} (hio : s.reader.ioFault = true) : readerAdmission s = some .ioFailure :=
  if_pos hio

theorem readerAdmission_ended {s : State} (hio : s.reader.ioFault = false) (heos : s.reader.eos = true) :
    readerAdmission s = some .endOfStream := by
  simp only [readerAdmission, hio, Bool.false_eq_true, if_false, heos, if_true]

theorem readerAdmission_closed {s : State} (hio : s.reader.ioFault = false) (heos : s.reader.eos = false)
    (hcl : s.reader.closed = true) : readerAdmission s = some .streamClosed := by
  simp only [readerAdmission, hio, heos, Bool.false_eq_true, if_false, hcl, if_true]

/-- Every read command begins with the reader's admission test. -/
theorem exec_readCommand_refused {i : Instr} {s : State} {st : Status} (h : readCommand i = true)
    (ht : readerAdmission s = some st) : exec i s = .next (respond s st 0) := by
  cases i with
  | rbit => simp only [exec, execRbit, admitted_refused ht]
  | rbits a => simp only [exec, execRbits, admitted_refused ht]
  | egdec => simp only [exec, execEgdec, admitted_refused ht]
  | _ => cases h

/-- Settles O20: the reader's admission test decides every read command. -/
theorem readersAreAdmitted : Obligations.ReadersAreAdmitted := by
  intro i s hi
  refine ⟨fun hio => ?_, fun hio heos => ?_, fun hio heos hcl => ?_⟩
  · exact exec_readCommand_refused hi (readerAdmission_faulted hio)
  · exact exec_readCommand_refused hi (readerAdmission_ended hio heos)
  · exact exec_readCommand_refused hi (readerAdmission_closed hio heos hcl)

/-! ### RCOUNT and RCLOSE (41 R125, R126) -/

theorem exec_rcount_unfaulted {s : State} (hio : s.reader.ioFault = false) (heos : s.reader.eos = false) :
    exec .rcount s = .next (respond s .ok s.reader.count) := by
  simp only [exec, execRcount, hio, heos, Bool.or_false, Bool.false_eq_true, if_false]
  rfl

theorem exec_rcount_faulted {s : State} (h : s.reader.ioFault = true ∨ s.reader.eos = true) :
    exec .rcount s = .next (respond (nextDraw s) .ok (Config.freeRCount s.env.draws)) :=
  if_pos ((Bool.or_eq_true _ _).mpr h)

/-- Settles O26: the counter where it has a value, else a free value drawn. -/
theorem rcountReturnsTheCount : Obligations.RcountReturnsTheCount := fun s =>
  ⟨exec_rcount_unfaulted, fun h => ⟨Config.freeRCount s.env.draws, s.env.draws + 1, exec_rcount_faulted h⟩⟩

theorem exec_rclose_open {s : State} (hio : s.reader.ioFault = false) (hcl : s.reader.closed = false) :
    exec .rclose s = conclude (andThen (sourceClose s) fun _ t =>
      .done 0 { t with reader := { t.reader with closed := true } }) := by
  simp only [exec, execRclose, readerFault_of_unfaulted hio, admitted, hcl, Bool.false_eq_true, if_false]

theorem sourceClose_ready {n : Nat} {s : State} (h : sourceReady (n + 1) s) : sourceClose s = .done () { s with
    source := { s.source with closed := true }
    env := { s.env with sourceScript := s.env.sourceScript.drop 1 } } := by
  obtain ⟨k, hk, -⟩ := drawSource_ready h
  rw [sourceClose, hk]

/-- Settles O24: SourceClose with a source that answers, R_CLOSED set behind it. -/
theorem rcloseClosesTheSource : Obligations.RcloseClosesTheSource := by
  intro s hio hcl hready
  rw [exec_rclose_open hio hcl, sourceClose_ready (n := 0) hready]
  rfl

/-! ### Bits taken off the stream -/

/-- An open reader whose source answers for `k` bits: as often as that many bits can make it ask. -/
def Supplied (k : Nat) (s : State) : Prop := ReaderOpen s ∧ sourceReady (starts s.reader.bit k) s

/-- The run goes on with `a`; `more` is left of the stream, and the source answers for `k` bits of it. -/
def Takes {α : Type} (k : Nat) (more : List Bool) (r : Run α) (a : α) : Prop :=
  ∃ t, r = .done a t ∧ Supplied k t ∧ pendingBits t = more

/-- The run of an open reader has ended its command where the source had no bit left (41 R127). -/
def RunsOff {α : Type} (r : Run α) : Prop :=
  ∃ t, r = .raised .endOfStream t ∧ t.reader.eos = true ∧ t.reader.closed = false ∧ t.reader.ioFault = false

/-- `k` bits ask for at most one byte each eight. -/
theorem starts_le_bytes (bit : BitVec 3) (k : Nat) : starts bit k ≤ (k + 7) / 8 := by
  have hlt := bit.isLt
  unfold starts
  omega

theorem supplied_of_ready {k n : Nat} {s : State} (ho : ReaderOpen s) (h : sourceReady n s) (hk : (k + 7) / 8 ≤ n) :
    Supplied k s :=
  ⟨ho, sourceReady_mono h ((starts_le_bytes s.reader.bit k).trans hk)⟩

theorem RunsOff.andThen {α β : Type} {r : Run α} (h : RunsOff r) (f : α → State → Run β) : RunsOff (andThen r f) := by
  obtain ⟨t, rfl, h⟩ := h
  exact ⟨t, rfl, h⟩

theorem Reads.runsOff {α : Type} {s : State} {r : Run α} (h : Reads s r) (ho : ReaderOpen s)
    (he : ∃ t, r = .raised .endOfStream t) : RunsOff r := by
  obtain ⟨t, rfl⟩ := he
  obtain ⟨-, ⟨-, heos, hio, hcl, -⟩ | ⟨hst, -⟩⟩ := h
  · exact ⟨t, rfl, heos, hcl.trans ho.2.2.2, hio.trans ho.2.1⟩
  · cases hst

theorem getBit_takes {k : Nat} {b : Bool} {more : List Bool} {s : State} (h : Supplied (k + 1) s)
    (hp : pendingBits s = b :: more) : Takes k more (getBit s) b := by
  obtain ⟨ho, hready⟩ := h
  rw [starts_succ, Nat.add_comm] at hready
  obtain ⟨c, t, ht, hready', hbit⟩ := (getBit_ready ho hready).1 (by rw [hp]; exact Nat.succ_pos _)
  have hstream := getBit_stream ho
  rw [ht] at hstream
  obtain ⟨hot, hpend, -⟩ := hstream
  obtain ⟨rfl, rfl⟩ := List.cons.inj (hp.symm.trans hpend)
  exact ⟨t, ht, ⟨hot, hbit ▸ hready'⟩, rfl⟩

theorem getBit_runsOff {k : Nat} {s : State} (h : Supplied (k + 1) s) (hp : pendingBits s = []) : RunsOff (getBit s) := by
  obtain ⟨ho, hready⟩ := h
  rw [starts_succ, Nat.add_comm] at hready
  exact (getBit_reads s).runsOff ho ((getBit_ready ho hready).2 (by rw [hp]; rfl))

theorem getBits_takes {k x : Nat} {bits more : List Bool} {s : State} (h : Supplied (k + bits.length) s)
    (hp : pendingBits s = bits ++ more) :
    Takes k more (getBits bits.length x s) (bits.foldl (fun x b => 2 * x + b.toNat) x) := by
  induction bits generalizing x s with
  | nil => exact ⟨s, rfl, h, hp⟩
  | cons b bits ih =>
    obtain ⟨t, ht, hsupply, hpend⟩ := getBit_takes h hp
    rw [List.length_cons, getBits, ht]
    exact ih hsupply hpend

theorem getBits_runsOff {n : Nat} (x : Nat) {s : State} (h : Supplied n s) (hp : (pendingBits s).length < n) :
    RunsOff (getBits n x s) := by
  obtain ⟨ho, hready⟩ := h
  exact (getBits_reads n x s).runsOff ho
    ((getBits_ready n x (m := 0) ho (by rw [Nat.zero_add]; exact hready)).2 hp)

/-! ### RBIT and RBITS (41 R123, R124) -/

theorem exec_rbit_open {s : State} (ho : ReaderOpen s) :
    exec .rbit s = conclude (andThen (getBit s) fun b t => .done (BitVec.ofNat 64 b.toNat) t) := by
  simp only [exec, execRbit, readerAdmission_eq_none_iff.mpr ho.2, admitted]

theorem ofNat_toNat_bool (b : Bool) : BitVec.ofNat 64 b.toNat = if b then 1 else 0 := by cases b <;> rfl

/-- Settles O21: GetBit with a source that answers goes on, with the next bit. -/
theorem rbitReturnsTheNextBit : Obligations.RbitReturnsTheNextBit := by
  intro s b more hok hio heos hcl hready hp
  have ho : ReaderOpen s := ⟨hok, hio, heos, hcl⟩
  obtain ⟨t, ht, -, hpend⟩ := getBit_takes (supplied_of_ready ho hready (k := 1) le_rfl) hp
  have hstream := getBit_stream ho
  have hreads := getBit_reads s
  rw [ht] at hstream hreads
  obtain ⟨⟨hok', hio', heos', hcl'⟩, -, hcount⟩ := hstream
  have hresp : t.responses = s.responses := hreads.1.egdecFrame.responses
  refine ⟨respond t .ok (BitVec.ofNat 64 b.toNat), ?_, hpend, hcount, hok', hio', heos', hcl', ?_⟩
  · rw [exec_rbit_open ho, ht]
    rfl
  · rw [respond_responses, hresp, ofNat_toNat_bool]

/-- Settles O22: eight answers of the source are enough for 64 bits. -/
theorem rbitsReturnsTheNextBits : Obligations.RbitsReturnsTheNextBits := by
  intro a s hok hio heos hcl hlo hhi hready hlen
  obtain ⟨t, he, ⟨hok', hio', heos', hcl'⟩, -, hpend, hcount, hresp⟩ :=
    exec_rbits_answered (m := 0) ⟨hok, hio, heos, hcl⟩ ⟨hlo, hhi⟩ hready hlen
  exact ⟨t, he, hpend, hcount, hok', hio', heos', hcl', hresp⟩

/-! ### EGDEC (42 R143) -/

theorem exec_egdec_open {s : State} (ho : ReaderOpen s) : exec .egdec s =
    conclude (andThen (egFetch s) fun c t => .done (codeSymbol c.1 c.2.1 c.2.2) t) := by
  simp only [exec, execEgdec_eq, readerAdmission_eq_none_iff.mpr ho.2, admitted]

/-- The zeros are counted up to the first one (42 R143). -/
theorem egPrefix_takes {n left c k : Nat} {more : List Bool} {s : State} (hn : n < left) (h : Supplied (k + 1 + n) s)
    (hp : pendingBits s = List.replicate n false ++ true :: more) : Takes k more (egPrefix left c s) (c + n) := by
  induction n generalizing left c s with
  | zero =>
    obtain ⟨left, rfl⟩ := Nat.exists_eq_add_of_lt hn
    obtain ⟨t, ht, hsupply, hpend⟩ := getBit_takes h hp
    refine ⟨t, ?_, hsupply, hpend⟩
    rw [egPrefix, ht]
    rfl
  | succ n ih =>
    obtain ⟨left, rfl⟩ := Nat.exists_eq_add_of_lt hn
    obtain ⟨t, ht, hsupply, hpend⟩ := getBit_takes h hp
    have hcount : c + (n + 1) = c + 1 + n := by omega
    rw [egPrefix, ht, hcount]
    exact ih (left := n + 1 + left) (by omega) hsupply hpend

theorem egPrefix_runsOff {n left c : Nat} {s : State} (hn : n < left) (h : Supplied (n + 1) s)
    (hp : pendingBits s = List.replicate n false) : RunsOff (egPrefix left c s) := by
  induction n generalizing left c s with
  | zero =>
    obtain ⟨left, rfl⟩ := Nat.exists_eq_add_of_lt hn
    exact (getBit_runsOff h hp).andThen _
  | succ n ih =>
    obtain ⟨left, rfl⟩ := Nat.exists_eq_add_of_lt hn
    obtain ⟨t, ht, hsupply, hpend⟩ := getBit_takes h hp
    rw [egPrefix, ht]
    exact ih (left := n + 1 + left) (by omega) hsupply hpend

theorem ofBits_append (bits : List Bool) (b : Bool) : ofBits (bits ++ [b]) = 2 * ofBits bits + b.toNat :=
  List.foldl_append

theorem ofBits_lt (bits : List Bool) : ofBits bits < 2 ^ bits.length := by
  induction bits using List.reverseRecOn with
  | nil => exact Nat.one_pos
  | append_singleton bits b ih =>
    have hb := b.toNat_lt
    rw [ofBits_append, List.length_append, List.length_singleton, Nat.pow_succ]
    omega

/-- A magnitude is in range unless eight zeros come before a remainder with a one in it (42 R144). -/
theorem magnitude_le {n : Nat} {r : List Bool} (hn : n ≤ 8) (hr : r.length = n) (h8 : n = 8 → true ∉ r) :
    2 ^ n - 1 + ofBits r ≤ Config.egMaxMag := by
  rcases Nat.lt_or_eq_of_le hn with hlt | rfl
  · have hbits := hr ▸ ofBits_lt r
    have hpow : 2 ^ n ≤ 2 ^ 7 := Nat.pow_le_pow_right (by decide) (by omega)
    simp only [Config.egMaxMag]
    omega
  · have hzeros : r = List.replicate 8 false :=
      List.eq_replicate_iff.mpr ⟨hr, fun b hb => Bool.eq_false_iff.mpr fun h => h8 rfl (h ▸ hb)⟩
    rw [hzeros]
    decide

/-- A run of the reader's side leaves the straps. -/
theorem Run.Keeps.cfg {α : Type} {s t : State} {r : Run α} {a : α} (h : r.Keeps EgdecFrame s) (hr : r = .done a t) :
    t.cfg = s.cfg := by
  subst hr
  exact (EgdecFrame.sameRest h).1

/-- The stream ends inside the zeros. -/
theorem egFetch_runsOff_zeros {n : Nat} {s : State} (hn : n ≤ 8) (h : Supplied (n + 1) s)
    (hp : pendingBits s = List.replicate n false) : RunsOff (egFetch s) :=
  (egPrefix_runsOff (Nat.lt_succ_of_le hn) h hp).andThen _

/-- The stream ends inside the remainder. -/
theorem egFetch_runsOff_remainder {n : Nat} {r : List Bool} {s : State} (hn : n ≤ 8) (h : Supplied (n + 1 + n) s)
    (hp : pendingBits s = List.replicate n false ++ true :: r) (hr : r.length < n) : RunsOff (egFetch s) := by
  obtain ⟨t, ht, hsupply, hpend⟩ := egPrefix_takes (c := 0) (Nat.lt_succ_of_le hn) h hp
  rw [Nat.zero_add] at ht
  rw [egFetch, Config.egZeroLimit, ht]
  exact (getBits_runsOff 0 hsupply (by rw [hpend]; exact hr)).andThen _

/-- The stream ends before the sign of a magnitude that has one. -/
theorem egFetch_runsOff_sign {n : Nat} {r : List Bool} {s : State} (hn : n ≤ 8) (h : Supplied (1 + n + 1 + n) s)
    (hp : pendingBits s = List.replicate n false ++ true :: r) (hsigned : s.cfg.egdSigned = true) (hpos : 1 ≤ n)
    (hr : r.length = n) (h8 : n = 8 → true ∉ r) : RunsOff (egFetch s) := by
  obtain ⟨t, ht, hsupply, hpend⟩ := egPrefix_takes (c := 0) (Nat.lt_succ_of_le hn) h hp
  rw [Nat.zero_add] at ht
  obtain ⟨u, hu, hsupply', hpend'⟩ := getBits_takes (k := 1) (x := 0) (bits := r) (more := []) (hr.symm ▸ hsupply)
    (hpend.trans (List.append_nil r).symm)
  rw [hr] at hu
  have hmag : ¬ 2 ^ n - 1 + ofBits r > Config.egMaxMag := Nat.not_lt.mpr (magnitude_le hn hr h8)
  have hsign : (u.cfg.egdSigned && n != 0) = true := by
    rw [(egdec_of_reads (getBits_reads n 0 t)).cfg hu, (egPrefix_keeps _ 0 s).cfg ht, hsigned, Bool.true_and, bne_iff_ne]
    omega
  rw [egFetch, Config.egZeroLimit, ht, andThen_done, hu, andThen_done, ← ofBits, if_neg hmag, if_pos hsign]
  exact (getBit_runsOff hsupply' hpend').andThen _

/-! ### Past the end (41 R127, 60 R227) -/

/-- A command whose run has met the end of the source ends as 41 R127 says. -/
theorem RunsOff.ranOffTheEnd {α : Type} {i : Instr} {s : State} {r : Run α} {f : α → State → Run Word64} (h : RunsOff r)
    (hcl : s.reader.closed = false) (hk : r.Keeps EgdecFrame s) (he : exec i s = conclude (Machine.andThen r f)) :
    ∃ t, exec i s = .next t ∧ RanOffTheEnd s t := by
  obtain ⟨t, rfl, heos, hclt, hio⟩ := h
  have hf : EgdecFrame s t := hk
  exact ⟨_, he, heos, hclt.trans hcl.symm, hio, hf.sameWriter, hf.sameLz, congrArg (· ++ _) hf.responses⟩

/-- Settles O23: the bit that is not there ends RBIT, RBITS and, in each of its three parts, the fetch of EGDEC. -/
theorem readingPastTheEndIsCaught : Obligations.ReadingPastTheEndIsCaught := by
  intro s hok hio heos hcl
  have ho : ReaderOpen s := ⟨hok, hio, heos, hcl⟩
  refine ⟨fun hp hready => ?_, fun a ha hready hlen => ?_, fun n r hn hready hp => ?_⟩
  · exact (getBit_runsOff (supplied_of_ready ho hready (k := 1) le_rfl) hp).ranOffTheEnd hcl
      (egdec_of_reads (getBit_reads s)) (exec_rbit_open ho)
  · exact (getBits_runsOff 0 (supplied_of_ready ho hready (by omega)) hlen).ranOffTheEnd hcl
      (egdec_of_reads (getBits_reads _ 0 s)) (exec_rbits_open ho ⟨by omega, ha⟩)
  · have hoff : RunsOff (egFetch s) := by
      rcases hp with hp | ⟨hp, hr⟩
      · exact egFetch_runsOff_zeros hn (supplied_of_ready ho hready (by omega)) hp
      · rw [List.append_assoc] at hp
        rcases hr with hr | ⟨hsigned, hpos, hr, h8⟩
        · exact egFetch_runsOff_remainder hn (supplied_of_ready ho hready (by omega)) hp hr
        · exact egFetch_runsOff_sign hn (supplied_of_ready ho hready (by omega)) hp hsigned hpos hr h8
    exact hoff.ranOffTheEnd hcl (egFetch_keeps s) (exec_egdec_open ho)

end Sys2Proof.Machine
end

section
/-! PROOFS. The exp-Golomb codes (30 R72, 42 R141 to R147): a code determines its symbol and where it ends, and EGDEC takes
just that code off the stream, or stops where it is out of range. -/

namespace Sys2Proof.Machine

/-! ### The codes of the domain (42 R140, R141, R146) -/

/-- Count of zeros, remainder and sign bit of a code in range: a code without a sign bit is of no negative symbol (30 R72). -/
def CodeOk (signed : Bool) (n r : Nat) (neg : Bool) : Prop :=
  r < 2 ^ n ∧ 2 ^ n - 1 + r ≤ Config.egMaxMag ∧ (neg = true → (signed && n != 0) = true)

theorem CodeOk.prefix_le {signed neg : Bool} {n r : Nat} (h : CodeOk signed n r neg) : n ≤ 8 := by
  obtain ⟨-, hmag, -⟩ := h
  by_contra hgt
  have := Nat.pow_le_pow_right (n := 2) (by decide) (Nat.lt_of_not_le hgt)
  simp only [Config.egMaxMag] at hmag
  omega

theorem prefix_add_remainder (m : Nat) : 2 ^ prefixLength m - 1 + remainderOf m = m := by
  have hlo : 2 ^ prefixLength m ≤ m + 1 := Nat.log2_self_le (Nat.succ_ne_zero m)
  unfold remainderOf
  omega

theorem remainderOf_lt (m : Nat) : remainderOf m < 2 ^ prefixLength m := by
  have hhi : m + 1 < 2 ^ (prefixLength m + 1) := Nat.lt_log2_self
  rw [Nat.pow_succ] at hhi
  unfold remainderOf
  omega

/-- The code of a symbol of the domain is in range (42 R140). -/
theorem codeOk_of_symbolOk {signed : Bool} {v : Word64} (h : symbolOk signed v = true) :
    CodeOk signed (prefixLength (symbolOf v).natAbs) (remainderOf (symbolOf v).natAbs) (symbolOf v < 0) := by
  obtain ⟨hlo, hhi⟩ := symbolOk_iff.mp h
  have hsum := prefix_add_remainder (symbolOf v).natAbs
  have hr := remainderOf_lt (symbolOf v).natAbs
  refine ⟨hr, ?_, fun hneg => ?_⟩
  · rw [hsum, Config.egMaxMag, symbolOf]
    split at hlo <;> omega
  · have hlt : v.toInt < 0 := of_decide_eq_true hneg
    have hsigned : signed = true := by
      by_contra hs
      rw [if_neg hs] at hlo
      omega
    have hn : prefixLength (symbolOf v).natAbs ≠ 0 := by
      intro h0
      rw [h0] at hsum hr
      unfold symbolOf at hsum hr
      omega
    rw [hsigned, Bool.true_and, bne_iff_ne]
    exact hn

/-- Decoding undoes encoding: the code of a symbol stands for that symbol (42 R147). -/
theorem codeSymbol_symbolOf (v : Word64) :
    codeSymbol (prefixLength (symbolOf v).natAbs) (remainderOf (symbolOf v).natAbs) (symbolOf v < 0) = v := by
  have hsign : (if symbolOf v < 0 then -((symbolOf v).natAbs : Int) else (symbolOf v).natAbs) = v.toInt := by
    unfold symbolOf
    split <;> omega
  simp only [codeSymbol, prefix_add_remainder, decide_eq_true_eq, hsign, BitVec.ofInt_toInt]

theorem egCodeBits_append (signed : Bool) (n r : Nat) (neg : Bool) (more : List Bool) : egCodeBits signed n r neg ++ more =
    List.replicate n false ++ true :: (bitsOf n r ++ ((if signed && n != 0 then [neg] else []) ++ more)) := by
  simp only [egCodeBits, List.append_assoc, List.cons_append]

/-- The zeros of a code in range are counted, and the remainder is what comes next (42 R143). -/
theorem CodeOk.egZeros_append {signed neg : Bool} {n r : Nat} (h : CodeOk signed n r neg) (more : List Bool) :
    egZeros (egCodeBits signed n r neg ++ more) 0 =
      .ok (n, bitsOf n r ++ ((if signed && n != 0 then [neg] else []) ++ more)) := by
  rw [egCodeBits_append, egZeros_replicate (by rw [Nat.zero_add]; exact Nat.lt_succ_of_le h.prefix_le), Nat.zero_add]

/-- Of two codes in range one begins the other only if they agree in every part: the zeros up to the first one are
counted, and their count tells the length of the remainder and whether a sign bit follows (42 R146). -/
theorem egCodeBits_prefix {signed neg neg' : Bool} {n n' r r' : Nat} (h : CodeOk signed n r neg)
    (h' : CodeOk signed n' r' neg') (hpre : egCodeBits signed n r neg <+: egCodeBits signed n' r' neg') :
    n = n' ∧ r = r' ∧ neg = neg' := by
  obtain ⟨rest, hrest⟩ := hpre
  have hcode : egCodeBits signed n r neg ++ rest = egCodeBits signed n' r' neg' ++ [] := by rw [hrest, List.append_nil]
  have hzeros := (h.egZeros_append rest).symm.trans ((congrArg (egZeros · 0) hcode).trans (h'.egZeros_append []))
  obtain ⟨rfl, htail⟩ := Prod.mk.inj (Except.ok.inj hzeros)
  obtain ⟨hbits, hsign⟩ := List.append_inj htail (by rw [length_bitsOf, length_bitsOf])
  obtain ⟨hr, -, hneg⟩ := h
  obtain ⟨hr', -, hneg'⟩ := h'
  refine ⟨rfl, ?_, ?_⟩
  · have hval := congrArg ofBits hbits
    rwa [ofBits_bitsOf, ofBits_bitsOf, Nat.mod_eq_of_lt hr, Nat.mod_eq_of_lt hr'] at hval
  · by_cases hs : (signed && n != 0) = true
    · rw [if_pos hs, if_pos hs] at hsign
      exact (List.cons.inj hsign).1
    · rw [Bool.eq_false_iff.mpr (hs ∘ hneg), Bool.eq_false_iff.mpr (hs ∘ hneg')]

/-- Settles O33: codes of which one begins the other have the same parts, and the parts are the symbol's. -/
theorem codesArePrefixFree : Obligations.CodesArePrefixFree := by
  intro signed v w hv hw hpre
  obtain ⟨hn, hr, hneg⟩ := egCodeBits_prefix (codeOk_of_symbolOk hv) (codeOk_of_symbolOk hw) hpre
  rw [← codeSymbol_symbolOf v, ← codeSymbol_symbolOf w, hn, hr, hneg]

/-! ### The fetch of a code (42 R143) -/

/-- Where a one ends the count of zeros, only the reader has moved. -/
theorem egPrefix_readFrame (left n : Nat) (s : State) :
    (egPrefix left n s).Meets (fun _ t => ReadFrame s t) fun _ _ => True := by
  induction left generalizing n s with
  | zero => trivial
  | succ left ih =>
    refine Run.Meets.andThen ((keeps_of_reads (getBit_reads s)).imp (fun _ _ => id) fun _ _ _ => trivial) fun b t ht => ?_
    cases b with
    | true => exact ht
    | false => exact (ih (n + 1) t).imp (fun _ _ => ht.trans) fun _ _ => id

/-- What the fetch does once the count of zeros and the remainder are known: the test of the range, then the sign bit. -/
def egFinish (n r : Nat) (s : State) : Run (Nat × Nat × Bool) :=
  if 2 ^ n - 1 + r > Config.egMaxMag then egRange s
  else if s.cfg.egdSigned && n != 0 then andThen (getBit s) fun neg t => .done (n, r, neg) t
  else .done (n, r, false) s

theorem egFetch_eq (s : State) : egFetch s =
    andThen (egPrefix Config.egZeroLimit 0 s) fun n t => andThen (getBits n 0 t) fun r u => egFinish n r u := rfl

/-- Up to eight zeros, a one and as many bits more as there were zeros: what is left is the test of the range and the sign. -/
theorem egFetch_remainder {n k : Nat} {r more : List Bool} {s : State} (hn : n ≤ 8) (hr : r.length = n)
    (h : Supplied (k + n + 1 + n) s) (hp : pendingBits s = List.replicate n false ++ true :: (r ++ more)) :
    ∃ t, egFetch s = egFinish n (ofBits r) t ∧ Supplied k t ∧ pendingBits t = more ∧ ReadFrame s t := by
  obtain ⟨t, ht, hsupply, hpend⟩ := egPrefix_takes (c := 0) (Nat.lt_succ_of_le hn) h hp
  rw [Nat.zero_add] at ht
  obtain ⟨u, hu, hsupply', hpend'⟩ := getBits_takes (x := 0) (hr.symm ▸ hsupply) hpend
  rw [hr] at hu
  have hprefix := egPrefix_readFrame (8 + 1) 0 s
  have hbits := keeps_of_reads (getBits_reads n 0 t)
  rw [ht] at hprefix
  rw [hu] at hbits
  refine ⟨u, ?_, hsupply', hpend', ReadFrame.trans hprefix hbits⟩
  rw [egFetch_eq, Config.egZeroLimit, ht, andThen_done, hu, andThen_done, ← ofBits]

theorem ReadFrame.cfg {s t : State} (h : ReadFrame s t) : t.cfg = s.cfg := h.egdecFrame.sameRest.1

/-- A code in range is fetched whole, and nothing behind it (42 R143). -/
theorem egFetch_takes {n r : Nat} {neg : Bool} {more : List Bool} {s : State} (hc : CodeOk s.cfg.egdSigned n r neg)
    (h : Supplied (1 + n + 1 + n) s) (hp : pendingBits s = egCodeBits s.cfg.egdSigned n r neg ++ more) :
    ∃ t, egFetch s = .done (n, r, neg) t ∧ ReaderOpen t ∧ pendingBits t = more ∧ ReadFrame s t := by
  rw [egCodeBits_append] at hp
  obtain ⟨t, ht, hsupply, hpend, hframe⟩ := egFetch_remainder hc.prefix_le (length_bitsOf n r) h hp
  obtain ⟨hr, hmag, hneg⟩ := hc
  rw [ofBits_bitsOf, Nat.mod_eq_of_lt hr, egFinish, if_neg (Nat.not_lt.mpr hmag), hframe.cfg] at ht
  cases hs : s.cfg.egdSigned && n != 0 with
  | true =>
    rw [hs, if_pos rfl] at ht hpend
    obtain ⟨u, hu, ⟨ho, -⟩, hpend'⟩ := getBit_takes (k := 0) hsupply hpend
    have hbit := keeps_of_reads (getBit_reads t)
    rw [hu] at hbit ht
    exact ⟨u, ht, ho, hpend', hframe.trans hbit⟩
  | false =>
    rw [hs, if_neg Bool.false_ne_true] at ht hpend
    obtain rfl : neg = false := Bool.eq_false_iff.mpr fun h => Bool.false_ne_true (hs.symm.trans (hneg h))
    exact ⟨t, ht, hsupply.1, hpend, hframe⟩

/-- Settles O30: the code is fetched whole, and what it stands for is the symbol. -/
theorem egdecReturnsTheSymbol : Obligations.EgdecReturnsTheSymbol := by
  intro v n more s hok hio heos hcl hready hmag hsign hlo hhi hp
  have ho : ReaderOpen s := ⟨hok, hio, heos, hcl⟩
  have hc := codeOk_of_symbolOk (symbolOk_of_natAbs hmag hsign)
  have hn := hc.prefix_le
  rw [← symbolBits_eq hlo hhi] at hp
  obtain ⟨t, ht, ⟨hok', hio', heos', hcl'⟩, hpend, hframe⟩ :=
    egFetch_takes hc (supplied_of_ready ho hready (by omega)) hp
  refine ⟨respond t .ok v, ?_, hpend, hok', hframe.egRangeSeen, hio', heos', hcl', ?_⟩
  · rw [exec_egdec_open ho, ht, andThen_done, codeSymbol_symbolOf]
    rfl
  · rw [respond_responses, hframe.egdecFrame.responses]

/-! ### Codes out of range (42 R144, 60 R228) -/

/-- The run has ended its command with a code out of range, on a reader that is open still; `more` is left of the stream. -/
def StopsOutOfRange {α : Type} (more : List Bool) (r : Run α) : Prop :=
  ∃ t, r = .raised .egRange t ∧ ReaderOpen t ∧ pendingBits t = more ∧ t.egRangeSeen = true

theorem egRange_stops {α : Type} {s : State} (ho : ReaderOpen s) :
    StopsOutOfRange (pendingBits s) (egRange s : Run α) := ⟨_, rfl, ho, rfl, rfl⟩

/-- As many zeros as stop the count are out of range, and no bit behind them is taken. -/
theorem egPrefix_stops {left : Nat} (c : Nat) {more : List Bool} {s : State} (h : Supplied left s)
    (hp : pendingBits s = List.replicate left false ++ more) : StopsOutOfRange more (egPrefix left c s) := by
  induction left generalizing c s with
  | zero =>
    obtain rfl : pendingBits s = more := hp
    exact egRange_stops h.1
  | succ left ih =>
    obtain ⟨t, ht, hsupply, hpend⟩ := getBit_takes h hp
    rw [egPrefix, ht]
    exact ih (c + 1) hsupply hpend

theorem egFetch_stops_zeros {more : List Bool} {s : State} (h : Supplied 9 s)
    (hp : pendingBits s = List.replicate 9 false ++ more) : StopsOutOfRange more (egFetch s) := by
  obtain ⟨t, ht, hstop⟩ := egPrefix_stops 0 h hp
  refine ⟨t, ?_, hstop⟩
  rw [egFetch_eq, Config.egZeroLimit, ht, andThen_raised]

/-- A number with a one among its bits is not 0. -/
theorem ofBits_pos {bits : List Bool} (h : true ∈ bits) : 0 < ofBits bits := by
  induction bits using List.reverseRecOn with
  | nil => cases h
  | append_singleton bits b ih =>
    rw [ofBits_append]
    rcases List.mem_append.mp h with h | h
    · have := ih h
      omega
    · obtain rfl := List.mem_singleton.mp h
      exact Nat.succ_pos _

theorem egFetch_stops_magnitude {r more : List Bool} {s : State} (hr : r.length = 8) (hone : true ∈ r) (h : Supplied 17 s)
    (hp : pendingBits s = List.replicate 8 false ++ true :: (r ++ more)) : StopsOutOfRange more (egFetch s) := by
  obtain ⟨t, ht, ⟨ho, -⟩, hpend, -⟩ := egFetch_remainder (k := 0) le_rfl hr h hp
  have hpos := ofBits_pos hone
  have hmag : 2 ^ 8 - 1 + ofBits r > Config.egMaxMag := by
    simp only [Config.egMaxMag]
    omega
  rw [ht, egFinish, if_pos hmag, ← hpend]
  exact egRange_stops ho

/-- Settles O31: nine zeros stop the count, a magnitude above 255 behind the remainder. -/
theorem egdecStopsOutOfRange : Obligations.EgdecStopsOutOfRange := by
  intro s more hok hio heos hcl hready hp
  have ho : ReaderOpen s := ⟨hok, hio, heos, hcl⟩
  have hstop : StopsOutOfRange more (egFetch s) := by
    rcases hp with hp | ⟨r, hr, hone, hp⟩
    · exact egFetch_stops_zeros (supplied_of_ready ho hready (by decide)) hp
    · simp only [List.append_assoc, List.cons_append, List.nil_append] at hp
      exact egFetch_stops_magnitude hr hone (supplied_of_ready ho hready (by decide)) hp
  obtain ⟨t, ht, ⟨hok', hio', heos', hcl'⟩, hpend, hseen⟩ := hstop
  have hframe := egFetch_keeps s
  rw [ht] at hframe
  refine ⟨respond t .egRange 0, ?_, hpend, hseen, hok', hio', heos', hcl', ?_⟩
  · rw [exec_egdec_open ho, ht]
    rfl
  · rw [respond_responses, EgdecFrame.responses hframe]

end Sys2Proof.Machine
end

section
/-! PROOFS. LZMAX, LZFWD's operands and what LZFWD writes (43 R160 to R163, R178, R179, 60 R230). -/

namespace Sys2Proof.Machine

/-! ### LZMAX and the operands (43 R160 to R162, 44 R190) -/

/-- MaxLen as the 64-bit sum of its parts (43 R160). -/
theorem ofNat_maxLen (v : Word64) : BitVec.ofNat 64 (maxLen v.toNat) = v + v / 255 + 16 := by
  have h16 : (16 : Word64).toNat = 16 := rfl
  have h255 : (255 : Word64).toNat = 255 := rfl
  refine BitVec.eq_of_toNat_eq ?_
  simp only [maxLen, BitVec.toNat_ofNat, BitVec.toNat_add, BitVec.toNat_udiv, h16, h255]
  omega

/-- Settles O34: the test against MAX_SPAN, and MaxLen in 64 bits. -/
theorem lzmaxReturnsTheBound : Obligations.LzmaxReturnsTheBound := fun v s => by
  refine ⟨fun hle => ?_, fun hlt => if_pos hlt⟩
  rw [← ofNat_maxLen]
  exact if_neg (Nat.not_lt.mpr hle)

theorem spanOk_eq_false {n : Nat} {s : State} (h : 2 ^ 31 - 1 < n ∨ s.srcLen.toNat < s.srcPos.toNat + n) :
    spanOk n s = false := by
  simp only [spanOk, Bool.and_eq_false_iff, decide_eq_false_iff_not, not_le]
  exact h

theorem exec_lzfwd_badSpan {v : Word64} {s : State} (h : spanOk v.toNat s = false) :
    exec (.lzfwd v) s = .next (respond s .invalidArgument 0) := by
  simp only [exec, execLzfwd, h]
  rfl

theorem exec_lzinv_badSpan {v : Word64} {s : State} (h : spanOk v.toNat s = false) :
    exec (.lzinv v) s = .next (respond s .invalidArgument 0) := by
  simp only [exec, execLzinv, h]
  rfl

theorem exec_lzfwd_noRoom {v : Word64} {s : State} (hspan : spanOk v.toNat s = true)
    (hroom : destinationRoom s < maxLen v.toNat) : exec (.lzfwd v) s = .next (respond s .insufficientCapacity 0) := by
  simp only [exec, execLzfwd, hspan, if_true, if_pos hroom]
  rfl

/-- Settles O35: the span is tested before the room, and a refusal only responds. -/
theorem lzOperandsAreChecked : Obligations.LzOperandsAreChecked := fun _ _ =>
  ⟨fun h => ⟨exec_lzfwd_badSpan (spanOk_eq_false h), exec_lzinv_badSpan (spanOk_eq_false h)⟩,
    fun hv hspan hroom => exec_lzfwd_noRoom (spanOk_of_le hv hspan) hroom⟩

/-! ### What LZFWD writes (43 R178, R179) -/

/-- LZFWD of a legal, written span with room writes the block of the span. -/
theorem exec_lzfwd_legal {v : Word64} {span : List Byte} {s : State} (hspan : spanOk v.toNat s = true)
    (hroom : maxLen v.toNat ≤ destinationRoom s) (hread : memReadBytes s.src s.srcPos.toNat v.toNat = some span) :
    exec (.lzfwd v) s = .next (forwarded span s) := by
  simp only [exec, execLzfwd, hspan, if_true, if_neg (Nat.not_lt.mpr hroom), hread, forwarded, length_of_memReadBytes hread]
  rfl

/-- Settles O37: the state LZFWD leaves, read off field by field. -/
theorem lzfwdWritesTheBlock : Obligations.LzfwdWritesTheBlock := by
  intro v span s hv hspan hroom hread block
  have hlen : span.length = v.toNat := length_of_memReadBytes hread
  have hstreams : SameStreams s (forwarded span s) := ⟨rfl, rfl, rfl, rfl, rfl, rfl, rfl⟩
  refine ⟨forwarded span s, exec_lzfwd_legal (spanOk_of_le hv hspan) hroom hread,
    memReadBytes_memWriteBytes s.dst s.dstPos.toNat block, fun a ha => ?_, ?_,
    forwarded_dstPos (length_encodeBlock_fits (hlen ▸ hroom)), fun _ => rfl, rfl, rfl, rfl, rfl, rfl, hstreams, rfl⟩
  · exact (memRead_memWriteBytes s.dst s.dstPos.toNat a block).trans (if_neg (by omega))
  · rw [← hlen] at hspan ⊢
    exact forwarded_srcPos hspan

/-! ### Short inputs (43 R163) -/

/-- A span below MIN_LENGTH is one literal run, HT as it was. -/
theorem encodeBlock_short {span : List Byte} (t : HashTable) (h : span.length ≤ 13) :
    encodeBlock span t = (lastSequenceBytes span, t) := if_pos (Nat.lt_succ_of_le h)

/-- Below 15 literals the length stands in the token alone. -/
theorem lastSequenceBytes_short {span : List Byte} (h : span.length ≤ 13) :
    lastSequenceBytes span = BitVec.ofNat 8 (span.length * 16) :: span := by
  have hext : lengthExtension span.length = [] := if_neg (by simp only [Config.nibbleCap]; omega)
  have htoken : tokenByte (lengthNibble span.length) 0 = BitVec.ofNat 8 (span.length * 16) := by
    generalize span.length = n at h
    decide +revert
  rw [lastSequenceBytes, hext, htoken]
  rfl

/-- Settles O36: the block LZFWD writes is the token and the span. -/
theorem lzfwdEmitsAShortInputAsLiterals : Obligations.LzfwdEmitsAShortInputAsLiterals := by
  intro v span s hv hspan hroom hread
  have hlen : span.length = v.toNat := length_of_memReadBytes hread
  have hshort : span.length ≤ 13 := hlen.trans_le hv
  have hok : spanOk v.toNat s = true := spanOk_of_le (by omega) hspan
  have hfit : maxLen v.toNat ≤ destinationRoom s := by
    simp only [maxLen, destinationRoom]
    omega
  have hshortBlock := encodeBlock_short s.ht hshort
  have hblock : (encodeBlock span s.ht).1 = BitVec.ofNat 8 (v.toNat * 16) :: span := by
    rw [hshortBlock, lastSequenceBytes_short hshort, hlen]
  have hval : BitVec.ofNat 64 (v.toNat + 1) = v + 1 := by
    rw [BitVec.ofNat_add, BitVec.ofNat_toNat, BitVec.setWidth_eq]
    rfl
  have hbytes : memReadBytes (forwarded span s).dst _ _ = _ := memReadBytes_memWriteBytes s.dst s.dstPos.toNat _
  have hdst := forwarded_dstPos (length_encodeBlock_fits (hlen ▸ hfit))
  have hresp : (forwarded span s).responses =
      s.responses ++ [⟨.ok, BitVec.ofNat 64 (encodeBlock span s.ht).1.length⟩] := rfl
  rw [hblock, List.length_cons, hlen] at hbytes hdst hresp
  rw [hval] at hresp
  exact ⟨_, exec_lzfwd_legal hok hfit hread, hbytes, congrArg Prod.snd hshortBlock,
    hlen ▸ forwarded_srcPos (hlen ▸ hspan), hdst, hresp⟩

end Sys2Proof.Machine
end

section
/-! PROOFS. What LZFWD's parse says of the span (43 R168 to R178): each sequence of the block is literals of the span and a
match that repeats bytes before it. -/

namespace Sys2Proof.Machine

/-! ### Runs of equal bytes (43 R170, R172, R174) -/

/-- From `a` and from `b` on, `k` bytes of the span are the same. -/
def SameRun (span : List Byte) (a b k : Nat) : Prop := ∀ j < k, spanAt span (a + j) = spanAt span (b + j)

theorem SameRun.cons {span : List Byte} {a b k : Nat} (hfirst : spanAt span a = spanAt span b)
    (h : SameRun span (a + 1) (b + 1) k) : SameRun span a b (k + 1) := by
  intro j hj
  cases j with
  | zero => exact hfirst
  | succ j =>
    rw [Nat.add_comm j 1, ← Nat.add_assoc, ← Nat.add_assoc]
    exact h j (Nat.lt_of_succ_lt_succ hj)

theorem SameRun.append {span : List Byte} {a b k l : Nat} (h : SameRun span a b k)
    (h' : SameRun span (a + k) (b + k) l) : SameRun span a b (k + l) := by
  intro j hj
  by_cases hk : j < k
  · exact h j hk
  · have := h' (j - k) (by omega)
    rwa [Nat.add_assoc, Nat.add_assoc, Nat.add_sub_cancel' (Nat.le_of_not_lt hk)] at this

theorem SameRun.drop {span : List Byte} {a b k l : Nat} (h : SameRun span a b (k + l)) :
    SameRun span (a + k) (b + k) l := by
  intro j hj
  rw [Nat.add_assoc, Nat.add_assoc]
  exact h (k + j) (Nat.add_lt_add_left hj k)

theorem sameRun_of_sameFour {span : List Byte} {a b : Nat} (h : sameFour span a b = true) : SameRun span a b 4 := by
  simp only [sameFour, Bool.and_eq_true, beq_iff_eq] at h
  obtain ⟨⟨⟨h0, h1⟩, h2⟩, h3⟩ := h
  exact .cons h0 (.cons h1 (.cons h2 (.cons h3 fun j hj => absurd hj (Nat.not_lt_zero j))))

/-- An accepted match: a distance the format can write, and four equal bytes (43 R170). -/
theorem accepts_iff {span : List Byte} {ip ref : Nat} :
    accepts span ip ref = true ↔ ip - ref ≤ 65535 ∧ sameFour span ref ip = true := by
  rw [accepts, Bool.and_eq_true, decide_eq_true_eq, Config.maxDistance]

/-- Catch-up keeps the run equal and moves its two ends alike (43 R172). -/
theorem catchUp_spec {span : List Byte} {room ip ref k : Nat} (hroom : room ≤ ip) (h : SameRun span ref ip k) :
    catchUp span room ip ref ≤ ref ∧
      SameRun span (ref - catchUp span room ip ref) (ip - catchUp span room ip ref) (k + catchUp span room ip ref) := by
  induction room generalizing ip ref k with
  | zero => exact ⟨Nat.zero_le _, h⟩
  | succ room ih =>
    unfold catchUp
    split
    case isTrue hback =>
      obtain ⟨hpos, hbyte⟩ := hback
      have hrun : SameRun span (ref - 1) (ip - 1) (k + 1) := by
        refine .cons hbyte.symm ?_
        rwa [Nat.sub_add_cancel hpos, Nat.sub_add_cancel (by omega)]
      obtain ⟨hle, hmore⟩ := ih (by omega) hrun
      rw [Nat.sub_sub, Nat.sub_sub, Nat.add_assoc, Nat.add_comm 1] at hmore
      exact ⟨by omega, hmore⟩
    case isFalse => exact ⟨Nat.zero_le _, h⟩

/-- The bytes of the forward extension are equal (43 R174). -/
theorem sameRun_extendBy (span : List Byte) (room ip ref : Nat) : SameRun span ref ip (extendBy span room ip ref) := by
  induction room generalizing ip ref with
  | zero => exact fun j hj => absurd hj (Nat.not_lt_zero j)
  | succ room ih =>
    unfold extendBy
    split
    · rename_i h
      exact .cons h.symm (ih _ _)
    · exact fun j hj => absurd hj (Nat.not_lt_zero j)

/-- The forward extension takes every equal byte there is room for. -/
theorem le_extendBy {span : List Byte} {room ip ref k : Nat} (hk : k ≤ room) (h : SameRun span ref ip k) :
    k ≤ extendBy span room ip ref := by
  induction k generalizing room ip ref with
  | zero => exact Nat.zero_le _
  | succ k ih =>
    obtain ⟨room, rfl⟩ : ∃ r, room = r + 1 := ⟨room - 1, by omega⟩
    have hrest : SameRun span (ref + 1) (ip + 1) k := SameRun.drop (k := 1) (by rwa [Nat.add_comm 1])
    have hfirst : spanAt span ip = spanAt span ref := (h 0 (Nat.zero_lt_succ k)).symm
    rw [extendBy, if_pos hfirst]
    exact Nat.succ_le_succ (ih (Nat.le_of_succ_le_succ hk) hrest)

/-! ### The positions the hash table holds (43 R164, R165, R169) -/

/-- Every position HT holds is before `p`, the 0 of an unlisted slot too. -/
def Behind (t : HashTable) (p : Nat) : Prop := 0 < p ∧ ∀ e ∈ t, e.2.toNat < p

theorem Behind.mono {t : HashTable} {p q : Nat} (h : Behind t p) (hle : p ≤ q) : Behind t q := by
  obtain ⟨hpos, hmem⟩ := h
  exact ⟨hpos.trans_le hle, fun e he => (hmem e he).trans_le hle⟩

theorem mem_of_storeGet {α : Type} {l : List (Nat × α)} {a : Nat} {x : α} (h : storeGet l a = some x) : (a, x) ∈ l := by
  induction l with
  | nil => cases h
  | cons e l ih =>
    obtain ⟨k, y⟩ := e
    unfold storeGet at h
    split at h
    · rename_i hk
      cases h
      subst hk
      exact List.mem_cons_self
    · exact List.mem_cons_of_mem _ (ih h)

theorem Behind.htRead_lt {t : HashTable} {p : Nat} (h : Behind t p) (slot : Nat) : htRead t slot < p := by
  obtain ⟨hpos, hmem⟩ := h
  unfold htRead
  cases hget : storeGet t slot with
  | none => exact hpos
  | some x => exact hmem _ (mem_of_storeGet hget)

theorem storedPosition_le (hb p : Nat) : storedPosition hb p ≤ p := by
  unfold storedPosition
  split
  · exact Nat.mod_le _ _
  · exact le_rfl

/-- A position inserted into HT is before the next, whatever its storage cuts off (43 R164). -/
theorem Behind.insert {t : HashTable} {p : Nat} (h : Behind t p) (span : List Byte) (hb q : Nat) (hq : q < p) :
    Behind (insertPosition span hb t q) p := by
  obtain ⟨hpos, hmem⟩ := h
  refine ⟨hpos, fun e he => ?_⟩
  unfold insertPosition htWrite at he
  split at he
  · exact hmem e (mem_storeErase he)
  · rcases mem_storePut he with rfl | he
    · refine Nat.lt_of_le_of_lt ?_ hq
      rw [BitVec.toNat_ofNat]
      exact (Nat.mod_le _ _).trans (storedPosition_le hb q)
    · exact hmem e he

/-- A search that finds a match: it is accepted, at a position after its reference, and HT holds none after it. -/
theorem searchFrom_found {span : List Byte} {hb mfl fuel att fip ip ref : Nat} {t u : HashTable}
    (h : searchFrom span hb mfl fuel att fip t = (some (ip, ref), u)) (hatt : 64 ≤ att) (ht : Behind t fip) :
    ref < ip ∧ accepts span ip ref = true ∧ Behind u (ip + 1) := by
  induction fuel generalizing att fip t with
  | zero => cases h
  | succ fuel ih =>
    have hstep : 1 ≤ att >>> Config.skipStrength := by
      rw [Nat.shiftRight_eq_div_pow, Config.skipStrength]
      omega
    have hins := (ht.mono (Nat.le_succ fip)).insert span hb fip (Nat.lt_succ_self fip)
    simp only [searchFrom] at h
    split at h
    · cases h
    · split at h
      · rename_i hacc
        cases h
        exact ⟨ht.htRead_lt _, hacc, hins⟩
      · exact ih h (by omega) (hins.mono (by omega))

/-! ### The sequences of a block (30 R74, 43 R173 to R176) -/

/-- The bytes of sequences that stand for the span from `a` up to `b`: each the literals from where the last one ended up to
`ip`, and a match of 4 plus `x` bytes there that repeats the span from `ref` on. -/
inductive Sequences (span : List Byte) : Nat → List Byte → Nat → Prop
  | nil (a : Nat) : Sequences span a [] a
  | cons {a ip ref x b : Nat} {more : List Byte} (hlits : a ≤ ip) (hback : ref < ip) (hdist : ip - ref ≤ 65535)
      (hend : ip + 4 + x ≤ span.length) (hrun : SameRun span ref ip (4 + x)) (hmore : Sequences span (ip + 4 + x) more b) :
      Sequences span a (sequenceBytes (spanSlice span a (ip - a)) (ip - ref) x ++ more) b

theorem Sequences.le_length {span bytes : List Byte} {a b : Nat} (h : Sequences span a bytes b) (ha : a ≤ span.length) :
    b ≤ span.length := by
  induction h with
  | nil => exact ha
  | cons _ _ _ hend _ _ ih => exact ih hend

/-- Where the parse may stand: the positions of HT are before the next probe, or before the end of the match found so far. -/
def ParsePoint.Sound (span : List Byte) (mlim anchor : Nat) (t : HashTable) : ParsePoint → Prop
  | .search ip => anchor ≤ ip ∧ Behind t ip
  | .found ip ref => anchor ≤ ip ∧ ref < ip ∧ ip - ref ≤ 65535 ∧
      ∃ k, ip + 4 + k ≤ mlim ∧ SameRun span ref ip (4 + k) ∧ Behind t (ip + 4 + k)

/-- A match is found where the search accepts one, and caught up as far as the anchor (43 R171, R172). -/
theorem sound_caughtUp {span : List Byte} {hb mfl mlim fuel att fip anchor ip ref : Nat} {t u : HashTable}
    (hsearch : searchFrom span hb mfl fuel att fip t = (some (ip, ref), u)) (hatt : 64 ≤ att) (hmlim : mfl + 4 ≤ mlim)
    (hp : (ParsePoint.search fip).Sound span mlim anchor t) :
    (ParsePoint.found (ip - catchUp span (ip - anchor) ip ref) (ref - catchUp span (ip - anchor) ip ref)).Sound span mlim
      anchor u := by
  obtain ⟨hanchor, hbehind⟩ := hp
  obtain ⟨hfip, hmfl⟩ := searchFrom_range hsearch
  obtain ⟨hback, hacc, hbehind'⟩ := searchFrom_found hsearch hatt hbehind
  obtain ⟨hdist, hfour⟩ := accepts_iff.mp hacc
  have hroom := catchUp_le span (ip - anchor) ip ref
  obtain ⟨hle, hrun⟩ := catchUp_spec (Nat.sub_le ip anchor) (sameRun_of_sameFour hfour)
  exact ⟨by omega, by omega, by omega, _, by omega, hrun, hbehind'.mono (by omega)⟩

/-- The forward extension takes in all of the match found so far, so HT holds no position behind it (43 R174). -/
theorem sound_extended {span : List Byte} {mlim anchor ip ref : Nat} {t : HashTable}
    (hp : (ParsePoint.found ip ref).Sound span mlim anchor t) :
    let x := extendBy span (mlim - (ip + 4)) (ip + 4) (ref + 4)
    ip + 4 + x ≤ mlim ∧ SameRun span ref ip (4 + x) ∧ Behind t (ip + 4 + x) := by
  intro x
  obtain ⟨-, -, -, k, hk, hrun, hbehind⟩ := hp
  have hle : k ≤ x := le_extendBy (by omega) hrun.drop
  have hroom : x ≤ mlim - (ip + 4) := extendBy_le _ _ _ _
  have hfour : SameRun span ref ip 4 := fun j hj => hrun j (by omega)
  exact ⟨by omega, hfour.append (sameRun_extendBy _ _ _ _), hbehind.mono (by omega)⟩

/-- The next position is tested right behind a match (43 R176): again a match, or the search goes on. -/
theorem sound_behind_match {span : List Byte} {hb mfl mlim stop : Nat} {t : HashTable} (hmlim : mfl + 4 ≤ mlim)
    (hstop : stop ≤ mfl) (ht : Behind t stop) (slot : Nat) :
    ParsePoint.Sound span mlim stop (insertPosition span hb t stop)
      (if accepts span stop (htRead t slot) then .found stop (htRead t slot) else .search (stop + 1)) := by
  have hins := (ht.mono (Nat.le_succ stop)).insert span hb stop (Nat.lt_succ_self stop)
  split
  · rename_i hacc
    obtain ⟨hdist, hfour⟩ := accepts_iff.mp hacc
    exact ⟨le_rfl, ht.htRead_lt slot, hdist, 0, by omega, sameRun_of_sameFour hfour, hins.mono (by omega)⟩
  · exact ⟨Nat.le_succ stop, hins⟩

/-- The parse from a sound point on gives sequences of the span (43 R178). -/
theorem parseFrom_sequences {span : List Byte} {hb mfl mlim : Nat} (hmfl : mfl + 4 ≤ mlim) (hmlim : mlim ≤ span.length)
    (fuel : Nat) {point : ParsePoint} {anchor : Nat} {t : HashTable} (hp : point.Sound span mlim anchor t) :
    Sequences span anchor (parseFrom span hb mfl mlim fuel point anchor t).1
      (parseFrom span hb mfl mlim fuel point anchor t).2.1 := by
  induction fuel generalizing point anchor t with
  | zero => cases point <;> exact .nil anchor
  | succ fuel ih =>
    cases point with
    | search ip =>
      simp only [parseFrom]
      split
      · exact .nil anchor
      · rename_i hsearch
        exact ih (sound_caughtUp hsearch (by decide) hmfl hp)
    | found ip ref =>
      obtain ⟨hend, hrun, hbehind⟩ := sound_extended hp
      obtain ⟨hanchor, hback, hdist, -⟩ := hp
      simp only [parseFrom]
      split
      · have hlast := Sequences.cons hanchor hback hdist (hend.trans hmlim) hrun (.nil _)
        rw [List.append_nil] at hlast
        exact hlast
      · rename_i hstop
        have hins := hbehind.insert span hb _ (Nat.sub_lt hbehind.1 Nat.two_pos)
        exact .cons hanchor hback hdist (hend.trans hmlim) hrun
          (ih (sound_behind_match hmfl (Nat.le_of_not_gt hstop) hins _))

theorem spanSlice_all (span : List Byte) : spanSlice span 0 span.length = span := List.take_length

/-- A block is the sequences of a parse and the last literals (43 R177, R178). -/
theorem encodeBlock_sequences (span : List Byte) (t : HashTable) : ∃ bytes anchor,
    Sequences span 0 bytes anchor ∧
      (encodeBlock span t).1 = bytes ++ lastSequenceBytes (spanSlice span anchor (span.length - anchor)) := by
  unfold encodeBlock
  dsimp only
  split
  · exact ⟨[], 0, .nil 0, by rw [Nat.sub_zero, spanSlice_all]; rfl⟩
  · rename_i hn
    simp only [Config.minLength, not_lt] at hn
    have hempty : Behind ([] : HashTable) 1 := ⟨Nat.one_pos, fun e he => nomatch he⟩
    exact ⟨_, _, parseFrom_sequences (by simp only [Config.mfLimit, Config.lastLiterals]; omega) (Nat.sub_le _ _) _
      (point := .search 1) ⟨Nat.zero_le 1, hempty.insert span _ 0 Nat.one_pos⟩, rfl⟩

end Sys2Proof.Machine
end

section
/-! PROOFS. LZINV over a block that LZFWD made (43 R180 a, 44 R199 a): it writes the span back, sequence by sequence. -/

namespace Sys2Proof.Machine

/-! ### Bytes of the span -/

/-- The literals of a sequence are the span's bytes at their positions. -/
theorem getElem?_spanSlice {span : List Byte} {a len i : Nat} (h : i < len) : (spanSlice span a len)[i]? = span[a + i]? := by
  rw [spanSlice, List.getElem?_take_of_lt h, List.getElem?_drop]

theorem length_spanSlice {span : List Byte} {a len : Nat} (h : a + len ≤ span.length) :
    (spanSlice span a len).length = len := by
  rw [spanSlice, List.length_take, List.length_drop]
  omega

/-- Inside the span equal bytes are equal entries of the list. -/
theorem SameRun.getElem? {span : List Byte} {a b k j : Nat} (h : SameRun span a b k) (hj : j < k) (hab : a ≤ b)
    (hend : b + k ≤ span.length) : span[a + j]? = span[b + j]? := by
  have hbyte := h j hj
  simp only [spanAt, List.getD_eq_getElem?_getD] at hbyte
  rw [List.getElem?_eq_getElem (by omega), List.getElem?_eq_getElem (by omega)] at hbyte ⊢
  exact congrArg some hbyte

/-! ### The state between two elements of the block -/

/-- LZINV has written the span's first `a` bytes from `d0` on; the block's bytes `rest` are ahead and end the span it reads;
there is room for the whole span, and nothing has been answered since `responses`. -/
structure Expanded (span : List Byte) (responses : List Response) (sEnd d0 a : Nat) (rest : List Byte) (s : State) :
    Prop where
  ahead : Ahead rest s
  srcEnd : s.srcPos.toNat + rest.length = sEnd
  cursor : s.dstPos.toNat = d0 + a
  output : ∀ i < a, memRead s.dst (d0 + i) = span[i]?
  room : d0 + span.length ≤ s.dstLen.toNat
  unanswered : s.responses = responses

section

variable {span : List Byte} {responses : List Response} {sEnd d0 a : Nat} {rest : List Byte} {s : State}

/-- What has been written of the span is there to be copied. -/
theorem Expanded.written (h : Expanded span responses sEnd d0 a rest s) (ha : a ≤ span.length) {x : Nat} (hle : d0 ≤ x)
    (hlt : x < s.dstPos.toNat) : memRead s.dst x ≠ none := by
  obtain ⟨i, rfl⟩ := Nat.exists_eq_add_of_le hle
  have hi : i < a := by
    rw [h.cursor] at hlt
    omega
  rw [h.output i hi, List.getElem?_eq_getElem (by omega)]
  exact Option.some_ne_none _

/-- Past bytes of the block nothing else has changed. -/
theorem Expanded.skip {l : List Byte} (h : Expanded span responses sEnd d0 a (l ++ rest) s) :
    Expanded span responses sEnd d0 a rest (stepOver l.length s) := by
  refine ⟨h.ahead.right, ?_, h.cursor, h.output, h.room, h.unanswered⟩
  rw [h.ahead.srcPos, Nat.add_assoc, ← List.length_append]
  exact h.srcEnd

/-- The span's next bytes copied to the write cursor. -/
theorem Expanded.copy {len : Nat} (h : Expanded span responses sEnd d0 a rest s) (hlen : a + len ≤ span.length) :
    Expanded span responses sEnd d0 (a + len) rest (literalsCopied (spanSlice span a len) s) := by
  have hlits := length_spanSlice hlen
  have hcursor := h.cursor
  have hroom := h.room
  refine ⟨h.ahead, h.srcEnd, ?_, fun i hi => ?_, hroom, h.unanswered⟩
  · rw [toNat_dstPos_literalsCopied (by omega)]
    omega
  · refine (memRead_memWriteBytes s.dst s.dstPos.toNat _ _).trans ?_
    rw [hlits, hcursor]
    split
    · rw [getElem?_spanSlice (by omega)]
      congr 1
      omega
    · exact h.output i (by omega)

/-- From a token over the literals it announces (44 R192). -/
theorem Expanded.literals {len : Nat} {mat : BitVec 4} (hl : s.lzi = .active sEnd d0 .token)
    (h : Expanded span responses sEnd d0 a (literalPart (spanSlice span a len) mat ++ rest) s)
    (hlen : a + len ≤ span.length) :
    ∃ t, GetsTo (literalPart (spanSlice span a len) mat).length (.next s) (lziAfterLiterals sEnd d0 mat.toNat t) ∧
      Expanded span responses sEnd d0 (a + len) rest t := by
  have hlits := length_spanSlice hlen
  have hend := h.srcEnd
  have hcursor := h.cursor
  have hroom := h.room
  rw [List.length_append] at hend
  exact ⟨_, getsTo_literalPart hl h.ahead.left (by omega) (by omega), h.skip.copy hlen⟩

/-- A match that repeats the span's bytes from `ref` on: the span's next bytes are written (44 R196). -/
theorem Expanded.matchCopied {ref x : Nat} {t : State} (h : Expanded span responses sEnd d0 a rest s) (hback : ref < a)
    (hlen : a + 4 + x ≤ span.length) (hrun : SameRun span ref a (4 + x)) (hne : rest ≠ [])
    (hcopied : MatchCopied sEnd d0 (a - ref) (x + 4) s t) :
    t.lzi = .active sEnd d0 .token ∧ Expanded span responses sEnd d0 (a + 4 + x) rest t := by
  obtain ⟨hpos, hrepeat, hframe, ⟨-, hsrc, hsrcPos, -, hdstLen, -⟩, hlzi, hresp⟩ := hcopied
  have hgoes : s.srcPos.toNat ≠ sEnd := by
    have := List.length_pos_of_ne_nil hne
    have := h.srcEnd
    omega
  rw [if_neg hgoes] at hlzi hresp
  rw [h.cursor] at hpos hrepeat hframe
  refine ⟨hlzi, ?_, ?_, by omega, fun i => ?_, hdstLen ▸ h.room, ?_⟩
  · unfold Ahead
    rw [hsrc, hsrcPos]
    exact h.ahead
  · rw [hsrcPos]
    exact h.srcEnd
  · induction i using Nat.strong_induction_on with
    | _ i ih =>
      intro hi
      by_cases hia : i < a
      · exact (hframe _ (.inl (by omega))).trans (h.output i hia)
      · obtain ⟨j, rfl⟩ := Nat.exists_eq_add_of_le (Nat.le_of_not_lt hia)
        have hsource := ih (ref + j) (by omega) (by omega)
        rw [← hrun.getElem? (j := j) (by omega) hback.le (by omega), ← hsource, ← Nat.add_assoc]
        refine (hrepeat j (by omega)).trans ?_
        congr 1
        omega
  · rw [hresp, List.append_nil]
    exact h.unanswered

/-- From the distance over the match, to the next token (44 R194 to R196). -/
theorem Expanded.repeats {ref x : Nat} (hback : ref < a) (hdist : a - ref ≤ 65535) (hlen : a + 4 + x ≤ span.length)
    (hrun : SameRun span ref a (4 + x)) (hne : rest ≠ [])
    (h : Expanded span responses sEnd d0 a (distBytes (BitVec.ofNat 16 (a - ref)) ++ lengthExtension x ++ rest) s) :
    ∃ t, GetsTo (1 + (lengthExtension x).length) (lziAfterLiterals sEnd d0 (lengthNibble x).toNat s) (.next t) ∧
      t.lzi = .active sEnd d0 .token ∧ Expanded span responses sEnd d0 (a + 4 + x) rest t := by
  have hbytes : (distBytes (BitVec.ofNat 16 (a - ref)) ++ lengthExtension x).length = 2 + (lengthExtension x).length :=
    List.length_append
  have hend := h.srcEnd
  rw [List.length_append, hbytes] at hend
  have hgo := getsTo_match (sEnd := sEnd) (d0 := d0) hdist h.ahead.left (by omega)
  have hat := h.skip
  rw [hbytes] at hat
  have hcursor := hat.cursor
  have hroom := hat.room
  obtain ⟨t, ht, hcopied⟩ := lziMatch_copies (sEnd := sEnd) (d0 := d0) (dist := a - ref) (len := x) (by omega) (by omega)
    (by omega) (fun y hle hlt => hat.written (by omega) hle hlt) (Nat.le.intro hat.srcEnd)
  exact ⟨t, ht ▸ hgo, hat.matchCopied hback hlen hrun hne hcopied⟩

end

/-! ### The whole block -/

theorem GetsTo.mono {m n : Nat} {o o' : Host.Outcome State Fault Refusal} (h : GetsTo m o o') (hle : m ≤ n) :
    GetsTo n o o' := by
  obtain ⟨k, hk, hrun⟩ := h
  exact ⟨k, hk.trans hle, hrun⟩

/-- From a token over the sequences of a parse, to the token of the last one (44 R197). -/
theorem Sequences.expand {span bytes rest : List Byte} {responses : List Response} {sEnd d0 a b : Nat} {s : State}
    (hseq : Sequences span a bytes b) (hne : rest ≠ []) (hl : s.lzi = .active sEnd d0 .token)
    (h : Expanded span responses sEnd d0 a (bytes ++ rest) s) :
    ∃ t, GetsTo bytes.length (.next s) (.next t) ∧ t.lzi = .active sEnd d0 .token ∧
      Expanded span responses sEnd d0 b rest t := by
  induction hseq generalizing s with
  | nil a => exact ⟨s, GetsTo.refl _, hl, h⟩
  | @cons a ip ref x b more hlits hback hdist hend hrun hmore ih =>
    have hsplit : sequenceBytes (spanSlice span a (ip - a)) (ip - ref) x ++ more ++ rest =
        literalPart (spanSlice span a (ip - a)) (lengthNibble x) ++
          (distBytes (BitVec.ofNat 16 (ip - ref)) ++ lengthExtension x ++ (more ++ rest)) := by
      simp only [sequenceBytes, literalPart, List.append_assoc, List.cons_append]
    have hlength : (sequenceBytes (spanSlice span a (ip - a)) (ip - ref) x ++ more).length =
        (literalPart (spanSlice span a (ip - a)) (lengthNibble x)).length +
          (2 + (lengthExtension x).length + more.length) := by
      have := congrArg List.length hsplit
      simp only [List.length_append, distBytes, List.length_cons, List.length_nil] at this ⊢
      omega
    rw [hsplit] at h
    obtain ⟨u, hgo, hu⟩ := h.literals hl (by omega)
    rw [Nat.add_sub_cancel' hlits] at hu
    obtain ⟨w, hgo', hlw, hw⟩ := hu.repeats hback hdist hend hrun
      (List.append_ne_nil_of_right_ne_nil more hne)
    obtain ⟨t, hgo'', hlt, ht⟩ := ih hlw hw
    exact ⟨t, GetsTo.mono ((hgo.trans hgo').trans hgo'') (by omega), hlt, ht⟩

/-- From the token of the last sequence to the end of the command (44 R193). -/
theorem Expanded.finishes {span : List Byte} {responses : List Response} {sEnd d0 a : Nat} {s : State}
    (ha : a ≤ span.length) (hl : s.lzi = .active sEnd d0 .token)
    (h : Expanded span responses sEnd d0 a (lastSequenceBytes (spanSlice span a (span.length - a))) s) :
    ∃ t, GetsTo (lastSequenceBytes (spanSlice span a (span.length - a))).length (.next s) (.next t) ∧ t.lzi = .idle ∧
      memReadBytes t.dst d0 span.length = some span ∧
      t.responses = responses ++ [⟨.ok, BitVec.ofNat 64 span.length⟩] := by
  have hlast : lastSequenceBytes (spanSlice span a (span.length - a)) =
      literalPart (spanSlice span a (span.length - a)) 0 ++ [] := (List.append_nil _).symm
  rw [hlast] at h ⊢
  obtain ⟨u, hgo, hu⟩ := h.literals hl (Nat.add_sub_cancel' ha).le
  rw [Nat.add_sub_cancel' ha] at hu
  rw [lziAfterLiterals_at_end _ hu.srcEnd, hu.cursor, Nat.add_sub_cancel_left] at hgo
  rw [List.append_nil]
  exact ⟨_, hgo, rfl, (memReadBytes_eq_some _ _ _ _).mpr ⟨rfl, hu.output⟩, by rw [respond_responses, hu.unanswered]⟩

/-- LZINV of a span that holds the block of `span`, with room for it, writes `span` back. -/
theorem lzinv_encodeBlock {v : Word64} {span : List Byte} {t : HashTable} {s : State} (hmax : v.toNat ≤ 2 ^ 31 - 1)
    (hspan : s.srcPos.toNat + v.toNat ≤ s.srcLen.toNat)
    (hread : memReadBytes s.src s.srcPos.toNat v.toNat = some (encodeBlock span t).1)
    (hroom : s.dstPos.toNat + span.length ≤ s.dstLen.toNat) :
    ∃ w, exec (.lzinv v) s = .next w ∧ memReadBytes w.dst s.dstPos.toNat span.length = some span ∧
      w.responses = s.responses ++ [⟨.ok, BitVec.ofNat 64 span.length⟩] := by
  obtain ⟨bytes, anchor, hseq, hblock⟩ := encodeBlock_sequences span t
  rw [hblock] at hread
  have hlast : lastSequenceBytes (spanSlice span anchor (span.length - anchor)) ≠ [] := List.cons_ne_nil _ _
  obtain ⟨hlen, hahead, hexec⟩ := lzinv_starts hmax hspan hread (List.append_ne_nil_of_right_ne_nil _ hlast)
  have hstart : Expanded span s.responses (s.srcPos.toNat + v.toNat) s.dstPos.toNat 0 _ (lzinvStart v.toNat s) :=
    ⟨hahead, congrArg _ hlen, rfl, fun i hi => absurd hi (Nat.not_lt_zero i), hroom, rfl⟩
  obtain ⟨u, hgo, hl, hu⟩ := hseq.expand hlast rfl hstart
  obtain ⟨w, hgo', hidle, hbytes, hresp⟩ := hu.finishes (hseq.le_length (Nat.zero_le _)) hl
  rw [List.length_append] at hlen
  exact ⟨w, hexec.trans ((hgo.trans hgo').lziRun_eq hidle hlen.le), hbytes, hresp⟩

/-- LZFWD that answers OK has written its block, and the answer is the block's length (43 R179). -/
theorem exec_lzfwd_ok {v k : Word64} {s t : State} (h : exec (.lzfwd v) s = .next t)
    (hresp : t.responses = s.responses ++ [⟨.ok, k⟩]) :
    ∃ span, memReadBytes s.src s.srcPos.toNat v.toNat = some span ∧ t = forwarded span s ∧
      k.toNat = (encodeBlock span s.ht).1.length := by
  have not_refused (st : Status) (hst : st ≠ .ok) : exec (.lzfwd v) s ≠ .next (respond s st 0) := fun ht => by
    cases h.symm.trans ht
    have hlast := List.append_cancel_left hresp
    cases hlast
    exact hst rfl
  by_cases hspan : spanOk v.toNat s = true
  · by_cases hroom : maxLen v.toNat ≤ destinationRoom s
    · obtain ⟨span, hread, rfl⟩ := execLzfwd_of_legal h hspan hroom
      have hfits := length_encodeBlock_fits (length_of_memReadBytes hread ▸ hroom)
      have hlt := s.dstLen.isLt
      have hlast := List.append_cancel_left hresp
      cases hlast
      exact ⟨span, hread, rfl, (BitVec.toNat_ofNat _ _).trans (Nat.mod_eq_of_lt (by omega))⟩
    · exact absurd (exec_lzfwd_noRoom hspan (Nat.lt_of_not_le hroom)) (not_refused _ (by decide))
  · exact absurd (exec_lzfwd_badSpan (Bool.eq_false_of_not_eq_true hspan)) (not_refused _ (by decide))

/-- Settles O45: the block LZFWD wrote is the one LZINV reads, and LZINV of it writes the span. -/
theorem expandingABlockGivesTheInputBack : Obligations.ExpandingABlockGivesTheInputBack := by
  intro v k span block s t u hread hexec hresp hblock hk hspan hblock' hroom
  obtain ⟨span', hread', rfl, hlen⟩ := exec_lzfwd_ok hexec hresp
  obtain rfl : span = span' := Option.some.inj (hread.symm.trans hread')
  have hwritten : memReadBytes (forwarded span s).dst _ _ = _ :=
    memReadBytes_memWriteBytes s.dst s.dstPos.toNat (encodeBlock span s.ht).1
  rw [← hlen] at hwritten
  rw [Option.some.inj (hblock.symm.trans hwritten)] at hblock'
  exact lzinv_encodeBlock hk hspan hblock' hroom

end Sys2Proof.Machine
end

section
/-! PROOFS. LZINV of a written span always ends (44 R198, R199, 60 R233). -/

namespace Sys2Proof.Machine

/-- LZINV of the empty span ends at once with OK and no byte written (44 R193, R197). -/
theorem exec_lzinv_empty {v : Word64} {s : State} (hspan : spanOk v.toNat s = true) (hv : v.toNat = 0) :
    exec (.lzinv v) s = .next (respond { s with lzi := .idle } .ok 0) := by
  simp only [exec, execLzinv, if_pos hspan, if_pos hv, lziFinish_at_end, Nat.sub_self]
  rfl

/-- Settles O43: the empty span ends at once; the run over any other stops only at an unwritten byte of the span, and there
is none. -/
theorem lzinvAlwaysEnds : Obligations.LzinvAlwaysEnds := by
  intro v span s hmax hspan hread
  have hlegal := spanOk_of_le hmax hspan
  rcases Nat.eq_zero_or_pos v.toNat with hv | hv
  · refine ⟨_, exec_lzinv_empty hlegal hv, rfl, le_rfl, .inl rfl, le_rfl, Nat.le_add_right _ _, .inl ⟨?_, ?_⟩⟩
    · rw [respond_dstPos, Nat.sub_self]
      rfl
    · rw [hv]
      rfl
  · obtain ⟨hok, hphase⟩ := lzinv_begins hlegal hv.ne'
    rcases lziRun_goes v.toNat hok hphase rfl le_rfl with
      ⟨-, a, hle, hlt, hunwritten⟩ | ⟨t, hrun, hframe, hidle, hstart, hend, -, hanswer⟩
    · exact absurd hunwritten (written_of_memReadBytes hread hle hlt)
    · obtain ⟨-, hforward, hview, -⟩ := hframe
      exact ⟨t, (exec_lzinv_legal hlegal hv).trans hrun, hidle, hforward, hview, hstart, hend, hanswer.imp_left And.symm⟩

end Sys2Proof.Machine
end

section
/-! PROOFS. CRW (45 R210, R212): the registers it writes, the legal values of each, and what is refused. -/

namespace Sys2Proof.Machine

/-! ### The register file's one write, case by case -/

section
variable {v : Nat} {s : State}

theorem controlWrite_srcPos (h : v ≤ s.srcLen.toNat) :
    controlWrite 0 v s = some { s with srcPos := BitVec.ofNat 32 v } :=
  if_neg (Nat.not_lt_of_le h)

theorem controlWrite_srcLen (hpos : s.srcPos.toNat ≤ v) (hmem : v ≤ s.cfg.srcMemBytes) :
    controlWrite 1 v s = some { s with srcLen := BitVec.ofNat 32 v } :=
  if_neg (not_or_intro (Nat.not_lt_of_le hpos) (Nat.not_lt_of_le hmem))

theorem controlWrite_dstPos (h : v ≤ s.dstLen.toNat) :
    controlWrite 2 v s = some { s with dstPos := BitVec.ofNat 32 v } :=
  if_neg (Nat.not_lt_of_le h)

theorem controlWrite_dstLen (hpos : s.dstPos.toNat ≤ v) (hmem : v ≤ s.cfg.dstMemBytes) :
    controlWrite 3 v s = some { s with dstLen := BitVec.ofNat 32 v } :=
  if_neg (not_or_intro (Nat.not_lt_of_le hpos) (Nat.not_lt_of_le hmem))

/-- No other index is writable (45 R210, R212). -/
theorem controlWrite_of_four_le {i : Nat} (h : 4 ≤ i) : controlWrite i v s = none := by
  obtain ⟨n, rfl⟩ := Nat.exists_eq_add_of_le' h
  rfl

end

/-! ### The command -/

theorem exec_crw_of_some {a : BitVec 8} {v : Word64} {s t : State} (h : controlWrite a.toNat v.toNat s = some t) :
    exec (.crw a v) s = .next (respond t .ok 0) := by
  simp only [exec, execCrw, h, returnOk]

theorem exec_crw_of_none {a : BitVec 8} {v : Word64} {s : State} (h : controlWrite a.toNat v.toNat s = none) :
    exec (.crw a v) s = .next (respond s .invalidArgument 0) := by
  simp only [exec, execCrw, h, raiseStatus]

/-- Settles O52: the register file's write, index by index; a legal value is stored, any other is refused. -/
theorem crwWritesLegalValuesOnly : Obligations.CrwWritesLegalValuesOnly := by
  intro a v s ok w
  have hw : w = BitVec.ofNat 32 v.toNat := (BitVec.ofNat_toNat 32 v).symm
  rw [hw]
  refine ⟨?_, ?_, ?_, ?_, fun hbad => exec_crw_of_none ?_⟩
  · rintro rfl hv; exact exec_crw_of_some (controlWrite_srcPos hv)
  · rintro rfl hpos hmem; exact exec_crw_of_some (controlWrite_srcLen hpos hmem)
  · rintro rfl hv; exact exec_crw_of_some (controlWrite_dstPos hv)
  · rintro rfl hpos hmem; exact exec_crw_of_some (controlWrite_dstLen hpos hmem)
  · rcases hbad with ⟨rfl, hv⟩ | ⟨rfl, hv⟩ | ⟨rfl, hv⟩ | ⟨rfl, hv⟩ | ha
    · exact if_pos hv
    · exact if_pos hv
    · exact if_pos hv
    · exact if_pos hv
    · exact controlWrite_of_four_le ha

end Sys2Proof.Machine
end

section
/-! PROOFS. The host's reset between commands (70 R250 to R252). -/

namespace Sys2Proof.Machine

theorem step_reset {s : State} {e d : Bool} {source : List Byte} {rest : List HostMove} (hl : s.lzi = .idle)
    (hi : s.inbox = .reset e d source :: rest) : step s = hostReset e d source { s with inbox := rest } := by
  simp only [step, hl, hi]

/-- Settles O8: between commands the step is the reset move's, which keeps only the parameters, the answers and the moves
still to come. -/
theorem resetStartsAfresh : Obligations.ResetStartsAfresh := by
  intro s e d source rest hl hi
  rw [step_reset hl hi, hostReset]

end Sys2Proof.Machine
end
